-- ==== Sys2Proof/Word.lean ====
section
/-! DEFINITION. The words of the block: bytes, the 16-bit words of `PC`, `RES` and the snapshot's year,
and single bits (spec/00_scope.md R8: bit 7 of a byte is its most significant, every value unsigned). -/

namespace Sys2Proof

/-- A byte, bits 7 (most significant) to 0. -/
abbrev Byte := BitVec 8

/-- A 16-bit word: `PC`, `RES`, `ERRPC`, the year operand, `SNAP.year`. -/
abbrev Half := BitVec 16

/-- A line level or a one-bit operand: `true` is 1 (high), `false` is 0 (low). -/
abbrev Bit := Bool

/-- A bit as a byte, 0 or 1. -/
def Byte.ofBit (b : Bit) : Byte := if b then 1#8 else 0#8

/-- `zext_16` of a byte (R9). -/
def Byte.zext16 (v : Byte) : Half := v.setWidth 16

end Sys2Proof
end

