-- ==== Sys2Proof/Config.lean ====
section
/-! DEFINITION. The parameters of the block (spec/00_scope.md R7) and the free values: what the spec
leaves open is an opaque constant with no body, so that every claim holds whatever its value is. -/

namespace Sys2Proof

/-- `DEV_ADDR7`, the device's 7-bit address (R2, R7). -/
def Config.devAddr7 : BitVec 7 := 0x68#7
/-- `DEV_W`, the write-mode address byte (R7). -/
def Config.devW : Byte := 0xD0#8
/-- `DEV_R`, the read-mode address byte (R7). -/
def Config.devR : Byte := 0xD1#8
/-- `CENTURY_BASE` (R7). -/
def Config.centuryBase : Nat := 2000
/-- `SCRATCH_BASE` (R7). -/
def Config.scratchBase : Nat := 8
/-- `SCRATCH_LEN`, which is also the length of `BUF` and the longest burst (R7, R97). -/
def Config.scratchLen : Nat := 56
/-- `REG_COUNT`: the device's registers are offsets 0..63 (R7). -/
def Config.regCount : Nat := 64
/-- `SNAP_BURST_LEN` (R7). -/
def Config.snapBurstLen : Nat := 8
/-- The longest command stream (R25, R90). -/
def Config.maxStream : Nat := 65535

/-- FREE VALUE (R73, decision D22): the n-th bit the environment answers to `SampleSDA()` where
nothing in `State` already fixes the answer. -/
opaque Config.sample : Nat → Bit

/-- FREE VALUE (R176, decision D18): `enc_ext`, the byte WRDATE sends for the years 2100..2999; a
function of `year - 2000` about which nothing is known. -/
opaque Config.encExt : Nat → Byte

/-- FREE VALUE (R81): what register `a` of the reference device holds after the k-th draw, made when
an event takes the device outside what R75 to R80 promise. -/
opaque Config.lostReg : Nat → Nat → Byte

/-- FREE VALUE (R81): where the reference device's pointer then stands. -/
opaque Config.lostPtr : Nat → BitVec 6

/-- FREE VALUE (R285, decision D23): `T_HALF`, the time between two line changes; no rule depends on it. -/
opaque Config.tHalf : Nat

end Sys2Proof
end

