-- ==== Sys2Proof/Machine/Bcd.lean ====
section
/-! DEFINITION. The BCD codec: the pure functions of spec/42_bcd_codec.md R171 to R176. -/

namespace Sys2Proof.Machine

/-- `encode(v)`, valid for 0..99 (R171). DESIGN CHOICE: past 99, where the spec picks no value (R176), 0 is the model's own filler,
so that the function is total and R177 (d) holds of it; no command reaches it (notes/assumptions/19). -/
def bcdEncode (v : Nat) : Byte := if v ≤ 99 then BitVec.ofNat 8 (((v / 10) <<< 4) ||| (v % 10)) else 0#8

/-- `decodeGeneric(b)`: bit 7 masked off, then units plus ten times tens (R172). -/
def decodeGeneric (b : Byte) : Nat :=
  let m := b &&& 0x7F#8
  (m &&& 0xF#8).toNat + 10 * ((m >>> 4) &&& 0xF#8).toNat

/-- `decodeYear(b)`: the nibble decode with no mask (R173). -/
def decodeYear (b : Byte) : Nat := (b &&& 0xF#8).toNat + 10 * ((b >>> 4) &&& 0xF#8).toNat

/-- `decodeHour(b)`: bit 7 set, 12-hour mode, bit 5 weighs 12; bit 7 clear, 24-hour mode, bits 5:4 weigh 10 (R174). -/
def decodeHour (b : Byte) : Nat :=
  if b.getLsbD 7 then (b.extractLsb' 0 4).toNat + 12 * (b.extractLsb' 5 1).toNat
  else (b.extractLsb' 0 4).toNat + 10 * (b.extractLsb' 4 2).toNat

/-- `yearAbs(b)`: the absolute year (R175). -/
def yearAbs (b : Byte) : Nat := Config.centuryBase + decodeYear b

/-- The year byte WRDATE sends for `y = year - 2000`: `encode(y)` in its domain, `enc_ext(y)` beyond it (R176, R193). -/
def yearByte (y : Nat) : Byte := if y ≤ 99 then bcdEncode y else Config.encExt y

end Sys2Proof.Machine
end

