-- ==== Sys2Proof/Syntax.lean ====
section
/-! DEFINITION. The 29 commands as data, one constructor per row of spec/opcode_table.json
(spec/30_encoding.md R92, R105). -/

namespace Sys2Proof

/-- The abstract command type of R105. The bounds that are not in the types (a count of 1..56, data of
1..56 bytes, data of 56 bytes) are `Instr.WellFormed`. -/
inductive Instr where
  | start (a : Byte)
  | stop
  | wbit (f : Bit)
  | rbit
  | wbyte (a : Byte)
  | rbyte
  | sack
  | snack
  | wack
  | rdreg (off : BitVec 6)
  | wrreg (off : BitVec 6) (v : Byte)
  | brd (off : BitVec 6) (n : Nat)
  | bwr (off : BitVec 6) (d : List Byte)
  | bcdenc (a : Byte)
  | bcddec (a : Byte)
  | bcdyear (a : Byte)
  | bcdhour (a : Byte)
  | rdsnap
  | wrtime (hour minute second : Byte)
  | wrdate (day month : Byte) (year : Half)
  | wrdow (a : Byte)
  | sethalt (f : Bit)
  | setout (f : Bit)
  | setsqwe (f : Bit)
  | setrate (r : BitVec 2)
  | rdscr (a : Byte)
  | wrscr (a v : Byte)
  | rdscrall
  | wrscrall (d : List Byte)
  deriving DecidableEq, Repr

end Sys2Proof
end

