-- ==== Sys2Proof/Machine/State.lean ====
section
/-! DEFINITION. The state of the machine as plain data (spec/10_state.md R20 to R32), the run's parameters
and the environment that one step needs (R14), and the reasons a step can stop. -/

namespace Sys2Proof.Machine

/-! ### The block's registers -/

/-- `SDA_DIR`: `IN` (0, the block does not drive the data line) or `OUT` (1). R20, R22. -/
inductive Dir where
  | input
  | output
  deriving DecidableEq, Repr

/-- `PHASE`: is a transfer open? R26. -/
inductive Phase where
  | idle
  | active
  deriving DecidableEq, Repr

/-- The three pin registers `SCL_OUT`, `SDA_DIR`, `SDA_OUT`, written `scl/dir/out` in the spec. R20 to R22. -/
structure Pins where
  scl : Bit
  dir : Dir
  sda : Bit
  deriving DecidableEq, Repr

/-- The pins of an idle bus, `1/I/1`: after reset and after every `Stop()`. R26, R45. -/
def Pins.idle : Pins := ⟨true, .input, true⟩

/-- `SNAP`, the clock snapshot register. R30. -/
structure Snapshot where
  hour : Byte
  minute : Byte
  second : Byte
  date : Byte
  month : Byte
  year : Half
  dow : Byte
  deriving DecidableEq, Repr

/-- The default snapshot: 2010-01-01 00:00:00, day-of-week 5. R30, R45. -/
def Snapshot.epoch : Snapshot := ⟨0#8, 0#8, 0#8, 1#8, 1#8, 2010#16, 5#8⟩

/-- The three fault codes of spec/60_exceptions.md R230 to R232. -/
inductive FaultCode where
  | illegalCommand
  | protocol
  | operand
  deriving DecidableEq, Repr

/-! ### A command in progress (R32 (a)) -/

/-- The nine primitive procedures of spec/40_line_primitives.md R124 to R132. -/
inductive Prim where
  | start (a : Byte)
  | stop
  | writeBit (b : Bit)
  | readBit
  | writeByte (v : Byte)
  | readByte
  | sendAck
  | sendNack
  | waitForAck
  deriving DecidableEq, Repr

/-- One entry of a command's sequence: a primitive, or the data byte of a read-modify-write, which is
`WriteByte((v & ~mask) | bits)` for the byte `v` read last (R195). -/
inductive BusOp where
  | prim (p : Prim)
  | writeBack (mask bits : Byte)
  deriving DecidableEq, Repr

/-- Which result register a command writes after its last transfer (R201). -/
inductive Finish where
  | nothing
  | toRes
  | toBuf
  | toSnap
  deriving DecidableEq, Repr

/-- A command held up in the loop of a `WaitForAck()`: what is still to run once the wait ends, the bytes read
so far (the contents of the shift register as each byte was completed), where the result goes, and the
command's length in bytes. R32 (a). -/
structure Job where
  todo : List BusOp
  rx : List Byte
  fin : Finish
  len : Nat
  deriving DecidableEq, Repr

/-! ### The reference device (spec/20_memory.md R75) -/

/-- `DST`. `D_READ` is held as two: `read` until a byte has been read, `readOn` from then on, where the acknowledgement
of the address byte is past (93_implementation_defined.md U5). -/
inductive DevMode where
  | idle
  | offset
  | wdata
  | read
  | readOn
  | deaf
  | free
  deriving DecidableEq, Repr

/-- The reference device: `DEV[0..63]` as a canonical list of cells (an unlisted register reads 0), `PTR`, `DST`,
`DACK`. -/
structure Device where
  regs : List Host.Cell
  ptr : BitVec 6
  mode : DevMode
  dack : Bit
  deriving DecidableEq, Repr

/-! ### The four observations of a run (spec/00_scope.md R13) -/

/-- An entry of the primitive trace: a call, with the bit or byte it returned. R13 (b). -/
structure Call where
  prim : Prim
  result : Option Byte
  deriving DecidableEq, Repr

/-- An entry of the register trace: `rd(a)=v` or `wr(a,v)`. R13 (c). -/
inductive RegEvent where
  | rd (a : BitVec 6) (v : Byte)
  | wr (a : BitVec 6) (v : Byte)
  deriving DecidableEq, Repr

/-- An entry of the result trace: `RES=v`, `BUF[0..n-1]=d`, `SNAP=v`. R13 (d). -/
inductive ResultEvent where
  | res (v : Half)
  | buf (d : List Byte)
  | snap (v : Snapshot)
  deriving DecidableEq, Repr

/-- The four traces, each NEWEST FIRST; in the pin trace consecutive equal states are merged. -/
structure Trace where
  pins : List Pins
  calls : List Call
  regs : List RegEvent
  results : List ResultEvent
  deriving DecidableEq, Repr

/-! ### The state -/

/-- The BusHandle: the two line identifiers `PIN_SCL`, `PIN_SDA`. R24. -/
structure BusHandle where
  scl : Nat
  sda : Nat
  deriving DecidableEq, Repr

/-- Everything a step reads or writes. The first group is the block's state, R20's table; `busy` is its hidden
state, R32 (a). The second group is the run's parameters, fixed while the block runs, and the host's reset
input. The third group is the environment. The last is what is observed of the run. -/
structure State where
  /-- `SCL_OUT`, `SDA_DIR`, `SDA_OUT`. -/
  pins : Pins
  /-- `PC`, the index of the command being executed. -/
  pc : Half
  /-- `RES`. -/
  res : Half
  /-- `BUF[0..55]`; its length is 56 in every state that meets `State.Inv`. -/
  buf : List Byte
  /-- `BUFN`. -/
  bufn : BitVec 6
  /-- `SNAP`. -/
  snap : Snapshot
  /-- `PHASE`. -/
  phase : Phase
  /-- `ERR`. -/
  err : Bit
  /-- `ERRCODE`. -/
  errcode : BitVec 2
  /-- `ERRPC`. -/
  errpc : Half
  /-- The command held up in a `WaitForAck()`, if one is; `none` at a command boundary. -/
  busy : Option Job
  /-- `PIN_SCL`, `PIN_SDA` (R24). -/
  handle : BusHandle
  /-- The command stream (R90); `L` is its length. -/
  stream : List Byte
  /-- The host asserts reset: the next step is the reset (R260, R273). -/
  resetReq : Bit
  /-- How many micro-operations the command in progress, or the one that would be fetched next, still performs before a
  pending reset lands (R260: "at any moment"; R285: "a step is a micro-operation"). -/
  resetAfter : Nat
  /-- What the environment answers to the next samples, soonest first (R73). -/
  answers : List Bit
  /-- MODEL'S OWN: how many free values have been drawn; the index of the next one. -/
  drawn : Nat
  /-- Who answers the samples: the reference device (R75), or the free oracle (R73)? -/
  attached : Bool
  /-- The reference device, on the primitive trace of the run (R75, R13 (c)), whoever answers. -/
  device : Device
  /-- The four traces (R13). -/
  trace : Trace
  deriving DecidableEq, Repr

/-- The reference device as the model starts it: `DEV0` all zero, `PTR0` zero, `D_IDLE`, `DACK = 0` (R75). -/
def Device.initial : Device := ⟨[], 0#6, .idle, false⟩

/-- The machine right after reset (R45), with an empty stream and the free oracle as the environment. -/
def State.reset : State where
  pins := Pins.idle
  pc := 0#16
  res := 0#16
  buf := List.replicate Config.scratchLen 0#8
  bufn := 0#6
  snap := Snapshot.epoch
  phase := .idle
  err := false
  errcode := 0#2
  errpc := 0#16
  busy := none
  handle := ⟨0, 1⟩
  stream := []
  resetReq := false
  resetAfter := 0
  answers := []
  drawn := 0
  attached := false
  device := Device.initial
  trace := ⟨[Pins.idle], [], [], []⟩

/-! ### How a step can stop -/

/-- The faults of the MODEL (the spec's own faults, ILLEGAL_COMMAND, PROTOCOL and OPERAND, are next states with
`ERR = 1`). -/
inductive Fault where
  /-- Raised by `step` when `PC > L`: a stream byte that R90 says does not exist would be fetched. Safe: the
  machine stops where nothing is specified, and no state that meets `State.Inv` is one. -/
  | pcPastStream
  deriving DecidableEq, Repr

/-- What the model does not accept. -/
inductive Refusal where
  /-- Raised by an arm of `exec` that has no meaning yet. No arm is one. Safe. -/
  | notModelled (mnemonic : String)
  /-- Raised by `step` when `PIN_SCL = PIN_SDA`: "not a legal configuration" (R24, U22). Safe. -/
  | busHandleNotDistinct
  /-- Raised by `step` when the stream is longer than 65535 bytes, which no host may supply (R25, R90). Safe. -/
  | streamTooLong
  deriving DecidableEq, Repr

/-- What the sequencer does next: answer without executing a command, or execute one. -/
inductive Action where
  | answer (o : Host.Outcome State Fault Refusal)
  | execute (i : Instr)

end Sys2Proof.Machine
end

