-- ==== Sys2Proof/Machine/Memory.lean ====
section
/-! DEFINITION. The device register space (spec/20_memory.md R60 (a), R61): 64 byte registers at offsets 0..63 as
a list of cells in canonical form, offsets strictly rising and no register that holds what an unlisted one
reads as. -/

namespace Sys2Proof.Machine

/-- What a register nothing has written reads as. DESIGN CHOICE (R75 leaves `DEV0` open): 0. -/
def Memory.blank : Byte := 0#8

/-- `DEV[a]`. -/
def Memory.read : List Host.Cell → Nat → Byte
  | [], _ => Memory.blank
  | (b, v) :: m, a => if b = a then v else Memory.read m a

/-- `DEV[a] <- v`, keeping the canonical form. -/
def Memory.write : List Host.Cell → Nat → Byte → List Host.Cell
  | [], a, v => if v = Memory.blank then [] else [(a, v)]
  | (b, u) :: m, a, v =>
    if a < b then
      if v = Memory.blank then (b, u) :: m else (a, v) :: (b, u) :: m
    else if a = b then
      if v = Memory.blank then m else (a, v) :: m
    else (b, u) :: Memory.write m a v

/-- The 64 registers at the values of `f`. Irreducible, so that no proof unfolds 64 writes of free values. -/
@[irreducible] def Memory.ofFn (f : Nat → Byte) : List Host.Cell :=
  (List.range Config.regCount).foldl (fun m a => Memory.write m a (f a)) []

/-- The canonical form of the cells from offset `lo` on. -/
def Memory.wfFrom : Nat → List Host.Cell → Bool
  | _, [] => true
  | lo, (a, v) :: m =>
    decide (lo ≤ a) && decide (a < Config.regCount) && decide (v ≠ Memory.blank) && Memory.wfFrom (a + 1) m

/-- The canonical form: offsets strictly rising and below 64, no cell at the blank value. -/
def Memory.wf (m : List Host.Cell) : Bool := Memory.wfFrom 0 m

end Sys2Proof.Machine
end

