-- ==== Sys2Proof/Machine/Device.lean ====
section
/-! DEFINITION. The reference device on the primitive trace: one event per primitive (spec/20_memory.md R75 to R82).
`none` is an event for which its rules promise nothing, R81's `D_FREE`. With an event goes what it adds to the register trace
(R13 (c)); a byte read adds its entry apart, once the block has the byte. -/

namespace Sys2Proof.Machine

/-- `DEV[PTR]`. -/
def Device.cell (d : Device) : Byte := Memory.read d.regs d.ptr.toNat

/-- `start(a)` (R77). -/
def Device.onStart (a : Byte) (d : Device) : Device :=
  if a = Config.devW then { d with mode := .offset, dack := true }
  else if a = Config.devR then { d with mode := .read, dack := true }
  else { d with mode := .deaf, dack := false }

/-- `stop` (R77). -/
def Device.onStop (d : Device) : Device := { d with mode := .idle, dack := false }

/-- A data byte is stored whole and the pointer moves on, from 63 to 0 (R76, R78, R82). -/
def Device.store (v : Byte) (d : Device) : Device :=
  { d with regs := Memory.write d.regs d.ptr.toNat v, ptr := d.ptr + 1#6, dack := true }

/-- `writeByte(v)`: the offset, then data (R78). -/
def Device.onWriteByte (v : Byte) (d : Device) : Option (Device × List RegEvent) :=
  match d.mode with
  | .offset =>
    if v.toNat < Config.regCount then
      some ({ d with ptr := v.setWidth 6, mode := .wdata, dack := true }, [])
    else none
  | .wdata => some (d.store v, [.wr d.ptr v])
  | _ => none

/-- `readByte` in `D_READ` (R79). -/
def Device.onReadByte (d : Device) : Option (Device × List RegEvent) :=
  match d.mode with
  | .read | .readOn => some ({ d with ptr := d.ptr + 1#6, mode := .readOn }, [])
  | _ => none

/-- What a `readByte` in `D_READ` adds to the register trace: `rd(PTR) = v`, for the byte `v` that the block read (R13 (c), R79). -/
def Device.readTrace (v : Byte) (d : Device) : List RegEvent :=
  match d.mode with
  | .read | .readOn => [.rd d.ptr v]
  | _ => []

/-- `sendAck` in `D_READ` (R79). -/
def Device.onSendAck (d : Device) : Option (Device × List RegEvent) :=
  match d.mode with
  | .read | .readOn => some (d, [])
  | _ => none

/-- `sendNack` (R79). In `D_READ` the device stops sending: its answers are free until the next `start` or `stop`,
its registers and its pointer stay (R82, R83). DEDUCED. -/
def Device.onSendNack (d : Device) : Option (Device × List RegEvent) :=
  match d.mode with
  | .read | .readOn => some ({ d with mode := .free }, [])
  | _ => none

/-- `waitForAck` changes nothing (R78); after a byte read, out of its order, the device goes to `D_FREE` (U5), and in
`D_FREE` nothing is promised (R81). -/
def Device.onWaitForAck (d : Device) : Option (Device × List RegEvent) :=
  match d.mode with
  | .readOn | .free => none
  | _ => some (d, [])

/-- The event of a primitive; a lone bit is none the device models (R80). -/
def Device.event (p : Prim) (d : Device) : Option (Device × List RegEvent) :=
  match p with
  | .start a => some (d.onStart a, [])
  | .stop => some (d.onStop, [])
  | .writeBit _ => none
  | .readBit => none
  | .writeByte v => d.onWriteByte v
  | .readByte => d.onReadByte
  | .sendAck => d.onSendAck
  | .sendNack => d.onSendNack
  | .waitForAck => d.onWaitForAck

/-- `DST <- D_FREE`, with the registers and the pointer at the k-th free values: they "may change in any way" (R81). -/
def Device.lose (k : Nat) (d : Device) : Device :=
  { d with regs := Memory.ofFn (Config.lostReg k), ptr := Config.lostPtr k, mode := .free }

/-- The byte the device sends in a `readByte`: `DEV[PTR]` in `D_READ`, else nothing it fixes (R79, R81). -/
def Device.byteAnswer (d : Device) : Option Byte :=
  match d.mode with
  | .read | .readOn => some d.cell
  | _ => none

/-- What every sample of a `waitForAck` returns: 0 if `DACK = 1`, 1 if `DACK = 0`; after a byte read and in `D_FREE`
nothing it fixes (R78, U5, R81). -/
def Device.ackAnswer (d : Device) : Option Bit :=
  match d.mode with
  | .readOn | .free => none
  | _ => some (!d.dack)

end Sys2Proof.Machine
end

