-- ==== Sys2Proof/Machine/Flags.lean ====
section
/-! DEFINITION. The status flags: `PHASE`, the fault code numbers, and the derived predicate `SNAP_OK`. The block has
no arithmetic flags. -/

namespace Sys2Proof.Machine

/-- `PHASE <- p` (R26). -/
def setPhase (p : Phase) (s : State) : State := { s with phase := p }

/-- `ERRCODE` of a fault: 1, 2 or 3; 0 is never written (R230 to R233). -/
def FaultCode.number : FaultCode → BitVec 2
  | .illegalCommand => 1#2
  | .protocol => 2#2
  | .operand => 3#2

/-- `SNAP_OK` (R31): the six 8-bit fields in the ranges of R30 and the year absolute with four digits. A predicate
for claims; the block checks it nowhere (R236). -/
def Snapshot.ok (v : Snapshot) : Bool :=
  decide (v.hour.toNat ≤ 23) && decide (v.minute.toNat ≤ 59) && decide (v.second.toNat ≤ 59)
    && decide (1 ≤ v.date.toNat ∧ v.date.toNat ≤ 31) && decide (1 ≤ v.month.toNat ∧ v.month.toNat ≤ 12)
    && decide (1000 ≤ v.year.toNat ∧ v.year.toNat ≤ 9999) && decide (1 ≤ v.dow.toNat ∧ v.dow.toNat ≤ 7)

end Sys2Proof.Machine
end

