-- ==== Sys2Proof/Machine/Line.lean ====
section
/-! DEFINITION. The four line micro-operations and the nine primitive procedures on the two lines
(spec/40_line_primitives.md R120 to R132). -/

namespace Sys2Proof.Machine

/-! ### Micro-operations -/

/-- A pin state goes to the pin trace unless it equals the one before it (R13 (a)). -/
def Trace.recordPins (p : Pins) (t : Trace) : Trace :=
  if t.pins.head? = some p then t else { t with pins := p :: t.pins }

/-- The pin registers take the values `p`, in one action. -/
def setPins (p : Pins) (s : State) : State := { s with pins := p, trace := s.trace.recordPins p }

/-- `DriveSDA(b)` (R120). -/
def driveSDA (b : Bit) (s : State) : State := setPins { s.pins with dir := .output, sda := b } s

/-- `ReleaseSDA()` (R121). -/
def releaseSDA (s : State) : State := setPins { s.pins with dir := .input } s

/-- `SetSCL(b)` (R122). -/
def setSCL (b : Bit) (s : State) : State := setPins { s.pins with scl := b } s

/-- A bit supplied by the environment where the reference device fixes none: the next answer that stands in the
state, or else a free value (R73). -/
def freeSample (s : State) : Bit × State :=
  match s.answers with
  | b :: rest => (b, { s with answers := rest })
  | [] => (Config.sample s.drawn, { s with drawn := s.drawn + 1 })

/-- `SampleSDA()` (R123): the resolved level of the data line (R23). `fixed` is what the reference device answers,
if it fixes an answer. -/
def sampleSDA (fixed : Option Bit) (s : State) : Bit × State :=
  match s.pins.dir with
  | .output => (s.pins.sda, s)
  | .input =>
    match fixed with
    | some b => (b, s)
    | none => freeSample s

/-! ### The bit and byte procedures -/

/-- The bits of a byte in the order they travel (R62). -/
def msbFirst : List Nat := [7, 6, 5, 4, 3, 2, 1, 0]

/-- `WriteBit(b)` (R126). -/
def lineWriteBit (b : Bit) (s : State) : State := setSCL false (setSCL true (driveSDA b s))

/-- `ReadBit()` (R127): exactly one sample, while the clock is high. -/
def lineReadBit (fixed : Option Bit) (s : State) : Bit × State :=
  let r := sampleSDA fixed (setSCL true (releaseSDA s))
  (r.1, setSCL false r.2)

/-- The writes of the bits of `v` at the given indices, in order. -/
def lineWriteBits (v : Byte) : List Nat → State → State
  | [], s => s
  | i :: is, s => lineWriteBits v is (lineWriteBit (v.getLsbD i) s)

/-- `WriteByte(v)` (R128). -/
def lineWriteByte (v : Byte) (s : State) : State := lineWriteBits v msbFirst s

/-- The reads of the bits at the given indices, in order, into `acc` (R129). -/
def lineReadBits (fixed : Option Byte) : List Nat → Byte → State → Byte × State
  | [], acc, s => (acc, s)
  | i :: is, acc, s =>
    let r := lineReadBit (fixed.map (·.getLsbD i)) s
    lineReadBits fixed is (acc ||| (Byte.ofBit r.1 <<< i)) r.2

/-- `ReadByte()` (R129). -/
def lineReadByte (fixed : Option Byte) (s : State) : Byte × State := lineReadBits fixed msbFirst 0#8 s

/-! ### The framing procedures -/

/-- `Start(a)` on the lines and in `PHASE` (R124). -/
def lineStart (a : Byte) (s : State) : State :=
  setPhase .active (lineWriteByte a (setSCL false (driveSDA false (setSCL true (driveSDA true s)))))

/-- `Stop()` (R125): the clock stays high (90_conflicts.md C1). -/
def lineStop (s : State) : State :=
  setPhase .idle (releaseSDA (driveSDA true (setSCL true (driveSDA false s))))

/-- `SendAck()` for `b = 0` (R130), `SendNack()` for `b = 1` (R131). -/
def lineAcknowledge (b : Bit) (s : State) : State :=
  releaseSDA (setSCL false (setSCL true (driveSDA b s)))

/-- `WaitForAck()` up to its loop (R132). -/
def lineWaitBegin (s : State) : State := setSCL true (releaseSDA s)

/-! ### The procedures one micro-operation at a time

What a reset that lands inside a procedure interrupts (R260). -/

/-- A micro-operation of R120 to R123; a sample with what the reference device answers to it, if it fixes that. -/
inductive Micro where
  | drive (b : Bit)
  | release
  | scl (b : Bit)
  | sample (fixed : Option Bit)
  deriving DecidableEq, Repr

/-- One micro-operation. -/
def Micro.run (m : Micro) (s : State) : State :=
  match m with
  | .drive b => driveSDA b s
  | .release => releaseSDA s
  | .scl b => setSCL b s
  | .sample fixed => (sampleSDA fixed s).2

/-- Micro-operations in order. -/
def runMicros : List Micro → State → State
  | [], s => s
  | m :: ms, s => runMicros ms (m.run s)

/-- `WriteBit(b)` (R126). -/
def writeBitMicros (b : Bit) : List Micro := [.drive b, .scl true, .scl false]

/-- `ReadBit()` (R127). -/
def readBitMicros (fixed : Option Bit) : List Micro := [.release, .scl true, .sample fixed, .scl false]

/-- `WriteByte(v)` (R128). -/
def writeByteMicros (v : Byte) : List Micro := msbFirst.flatMap fun i => writeBitMicros (v.getLsbD i)

/-- The micro-operations of a primitive (R124 to R132), `fixed` the byte the reference device sends if it is a read; of
`WaitForAck()` those before its loop. -/
def Prim.micros (fixed : Option Byte) : Prim → List Micro
  | .start a => [.drive true, .scl true, .drive false, .scl false] ++ writeByteMicros a
  | .stop => [.drive false, .scl true, .drive true, .release]
  | .writeBit b => writeBitMicros b
  | .readBit => readBitMicros none
  | .writeByte v => writeByteMicros v
  | .readByte => msbFirst.flatMap fun i => readBitMicros (fixed.map (·.getLsbD i))
  | .sendAck => [.drive false, .scl true, .scl false, .release]
  | .sendNack => [.drive true, .scl true, .scl false, .release]
  | .waitForAck => [.release, .scl true]

/-- How many micro-operations a primitive is; of `WaitForAck()` those before its loop. -/
def Prim.microCount (p : Prim) : Nat := (p.micros none).length

end Sys2Proof.Machine
end

