-- ==== Sys2Proof/Machine/Ops.lean ====
section
/-! DEFINITION. The shared operations: entering a fault and the reset that alone leaves it, the result registers, the
primitives with the environment they meet, and the run of a command's sequence. -/

namespace Sys2Proof.Machine

/-! ### Fault and reset -/

/-- `raise X(PC)` (R233): `ERR`, `ERRCODE`, `ERRPC`, and nothing else. -/
def raise (c : FaultCode) (s : State) : State :=
  { s with err := true, errcode := c.number, errpc := s.pc }

/-- `DST <- D_FREE` of the reference device, drawing free values for what it then holds (R81). -/
def loseDevice (s : State) : State := { s with device := s.device.lose s.drawn, drawn := s.drawn + 1 }

/-- The reset event (R260): every piece of block state takes its reset value, a command in progress is abandoned;
the parameters and the environment stay. In the middle of a transfer the reference device is lost (R261). -/
def hostReset (s : State) : State :=
  let e := if s.phase = .active then loseDevice s else s
  { State.reset with
    handle := s.handle
    stream := s.stream
    answers := s.answers
    drawn := e.drawn
    attached := s.attached
    device := e.device
    trace := s.trace.recordPins Pins.idle }

/-! ### Results and the stream position -/

/-- `pc <- PC + len` (R25, R94). -/
def advance (len : Nat) (s : State) : State := { s with pc := s.pc + BitVec.ofNat 16 len }

/-- An entry of the result trace (R13 (d)). -/
def logResult (e : ResultEvent) (s : State) : State :=
  { s with trace := { s.trace with results := e :: s.trace.results } }

/-- `RES <- v` (R28). -/
def setRes (v : Half) (s : State) : State := logResult (.res v) { s with res := v }

/-- `BUF[i] <- d[i]` for every byte of `d`, the cells after them unchanged, and `BUFN` their number (R29). -/
def setBuf (d : List Byte) (s : State) : State :=
  logResult (.buf d) { s with buf := d ++ s.buf.drop d.length, bufn := BitVec.ofNat 6 d.length }

/-- The snapshot of the bytes of registers 0..6 (R191); the eighth byte of the burst is not used. -/
def snapshotOf (d : List Byte) : Snapshot where
  second := BitVec.ofNat 8 (decodeGeneric (d.getD 0 0#8))
  minute := BitVec.ofNat 8 (decodeGeneric (d.getD 1 0#8))
  hour := BitVec.ofNat 8 (decodeHour (d.getD 2 0#8))
  dow := d.getD 3 0#8
  date := BitVec.ofNat 8 (decodeGeneric (d.getD 4 0#8))
  month := BitVec.ofNat 8 (decodeGeneric (d.getD 5 0#8))
  year := BitVec.ofNat 16 (yearAbs (d.getD 6 0#8))

/-- All seven fields of `SNAP` together (R30). -/
def setSnap (v : Snapshot) (s : State) : State := logResult (.snap v) { s with snap := v }

/-- The result a command writes from the bytes it read, oldest first. -/
def writeResult (fin : Finish) (rx : List Byte) (s : State) : State :=
  match fin with
  | .nothing => s
  | .toRes => setRes (rx.getLastD 0#8).zext16 s
  | .toBuf => setBuf rx s
  | .toSnap => setSnap (snapshotOf rx) s

/-! ### Primitives -/

/-- An entry of the primitive trace (R13 (b)). -/
def logCall (p : Prim) (r : Option Byte) (s : State) : State :=
  { s with trace := { s.trace with calls := ⟨p, r⟩ :: s.trace.calls } }

/-- Entries of the register trace, newest first (R13 (c)). -/
def logRegs (es : List RegEvent) (s : State) : State := { s with trace := { s.trace with regs := es ++ s.trace.regs } }

/-- The reference device meets a primitive: it "is defined on the primitive trace" (R75), so that it follows every run, whether it
or the oracle answers the samples (notes/assumptions/20). -/
def deviceEvent (p : Prim) (s : State) : State :=
  match s.device.event p with
  | some (d, es) => logRegs es { s with device := d }
  | none => loseDevice s

/-- What an attached reference device answers to a `readByte` (R79). -/
def byteAnswer (s : State) : Option Byte := if s.attached then s.device.byteAnswer else none

/-- What an attached reference device answers to the samples of a `waitForAck` (R78). -/
def ackAnswer (s : State) : Option Bit := if s.attached then s.device.ackAnswer else none

/-- A primitive with the environment it meets: the bit or byte it returns, and the state after it. For
`waitForAck` it is the part before the loop. -/
def runPrim (p : Prim) (s : State) : Option Byte × State :=
  match p with
  | .start a => (none, logCall p none (lineStart a (deviceEvent p s)))
  | .stop => (none, logCall p none (lineStop (deviceEvent p s)))
  | .writeBit b => (none, logCall p none (lineWriteBit b (deviceEvent p s)))
  | .readBit =>
    let r := lineReadBit none (deviceEvent p s)
    (some (Byte.ofBit r.1), logCall p (some (Byte.ofBit r.1)) r.2)
  | .writeByte v => (none, logCall p none (lineWriteByte v (deviceEvent p s)))
  | .readByte =>
    let r := lineReadByte (byteAnswer s) (deviceEvent p s)
    (some r.1, logRegs (s.device.readTrace r.1) (logCall p (some r.1) r.2))
  | .sendAck => (none, logCall p none (lineAcknowledge false (deviceEvent p s)))
  | .sendNack => (none, logCall p none (lineAcknowledge true (deviceEvent p s)))
  | .waitForAck => (none, logCall p none (lineWaitBegin (deviceEvent p s)))

/-! ### The run of a sequence -/

/-- The primitive an entry of a sequence stands for, given the bytes read so far (R195). -/
def BusOp.resolve (rx : List Byte) : BusOp → Prim
  | .prim p => p
  | .writeBack mask bits => .writeByte ((rx.getLastD 0#8 &&& ~~~mask) ||| bits)

/-- One sample of the loop of `WaitForAck()` (R132). -/
def sampleAck (s : State) : Bit × State := sampleSDA (ackAnswer s) s

/-- The end of a command: its result, then `pc <- PC + len` (R94, R201). -/
def finish (fin : Finish) (rx : List Byte) (len : Nat) (s : State) : State :=
  advance len (writeResult fin rx { s with busy := none })

/-- The run of a command's sequence to its end, or to a sample of 1 in a `WaitForAck()`, where the command is held
up: the loop goes on with the next step (R132, R235). -/
def runOps : List BusOp → List Byte → Finish → Nat → State → State
  | [], rx, fin, len, s => finish fin rx len s
  | op :: rest, rx, fin, len, s =>
    let p := op.resolve rx
    let r := runPrim p s
    let rx' := rx ++ r.1.toList
    if p = .waitForAck then
      let a := sampleAck r.2
      if a.1 then { a.2 with busy := some ⟨rest, rx', fin, len⟩ }
      else runOps rest rx' fin len (setSCL false a.2)
    else runOps rest rx' fin len r.2

/-- One more sample of a wait that holds a command up: a 1 keeps it there, a 0 lowers the clock and the command goes
on (R132). -/
def resume (j : Job) (s : State) : State :=
  let a := sampleAck s
  if a.1 then a.2
  else runOps j.todo j.rx j.fin j.len (setSCL false { a.2 with busy := none })

/-! ### The run of a sequence up to a reset -/

/-- The first `n` micro-operations of a primitive that a reset then abandons (R260). The primitive returns nothing and its
event does not happen. With the third micro-operation of a `Start` the start condition is formed (R124): from there on the
transfer has begun although `PHASE` does not say so yet, and the reference device is lost, as in the middle of any transfer
(R261); before, both lines have stayed high and it has seen nothing. DEDUCED (notes/assumptions/10). -/
def abandon (n : Nat) (p : Prim) (s : State) : State :=
  if n = 0 then s
  else
    let u := logCall p none (runMicros ((p.micros (byteAnswer s)).take n) s)
    if s.phase = .idle ∧ 3 ≤ n then loseDevice u else u

/-- At most `n` micro-operations of the loop of `WaitForAck()` (R132): the state, and how many of the `n` are left if the
wait has ended. -/
def waitUntil : Nat → State → State × Option Nat
  | 0, s => (s, none)
  | 1, s => ((sampleAck s).2, none)
  | n + 2, s =>
    let a := sampleAck s
    if a.1 then waitUntil (n + 1) a.2 else (setSCL false a.2, some n)

/-- At most `n` micro-operations of a sequence: as `runOps`, but a reset lands after the last of them, so that the command has
no end (R260). -/
def runUntil : List BusOp → List Byte → Nat → State → State
  | [], _, _, s => s
  | op :: rest, rx, n, s =>
    let p := op.resolve rx
    if n < p.microCount then abandon n p s
    else
      let r := runPrim p s
      let rx' := rx ++ r.1.toList
      if p = .waitForAck then
        match waitUntil (n - p.microCount) r.2 with
        | (u, none) => u
        | (u, some m) => runUntil rest rx' m u
      else runUntil rest rx' (n - p.microCount) r.2

/-- At most `n` micro-operations of a command that a wait holds up. -/
def resumeUntil (j : Job) (n : Nat) (s : State) : State :=
  match waitUntil n s with
  | (u, none) => u
  | (u, some m) => runUntil j.todo j.rx m u

/-! ### Commands -/

/-- A command that drives the bus: the phase its first primitive requires (R135), its sequence, its result. -/
def busCommand (need : Phase) (ops : List BusOp) (fin : Finish) (len : Nat) (s : State) :
    Host.Outcome State Fault Refusal :=
  .next (if s.phase = need then runOps ops [] fin len s else raise .protocol s)

/-- A skip: no effect but the advance (R200). -/
def skip (len : Nat) (s : State) : Host.Outcome State Fault Refusal := .next (advance len s)

/-- The fault of a command no encoding of which is legal (R100, R230). -/
def illegal (s : State) : Host.Outcome State Fault Refusal := .next (raise .illegalCommand s)

end Sys2Proof.Machine
end

