-- ==== Sys2Proof/Machine/Codec.lean ====
section
/-! DEFINITION. The four codec commands (spec/42_bcd_codec.md R180 to R183); legal in either phase. -/

namespace Sys2Proof.Machine

/-- BCDENC a (R180): outside 0..99 it raises OPERAND (R232). -/
def execBcdenc (a : Byte) (s : State) : Host.Outcome State Fault Refusal :=
  .next (if a.toNat ≤ 99 then advance 2 (setRes (bcdEncode a.toNat).zext16 s) else raise .operand s)

/-- BCDDEC a (R181). -/
def execBcddec (a : Byte) (s : State) : Host.Outcome State Fault Refusal :=
  .next (advance 2 (setRes (BitVec.ofNat 16 (decodeGeneric a)) s))

/-- BCDYEAR a (R182): the absolute year. -/
def execBcdyear (a : Byte) (s : State) : Host.Outcome State Fault Refusal :=
  .next (advance 2 (setRes (BitVec.ofNat 16 (yearAbs a)) s))

/-- BCDHOUR a (R183). -/
def execBcdhour (a : Byte) (s : State) : Host.Outcome State Fault Refusal :=
  .next (advance 2 (setRes (BitVec.ofNat 16 (decodeHour a)) s))

end Sys2Proof.Machine
end

