-- ==== Sys2Proof/Machine/LinePrimitives.lean ====
section
/-! DEFINITION. The nine commands that expose the primitives (spec/40_line_primitives.md R136 to R144). -/

namespace Sys2Proof.Machine

/-- START a (R136). -/
def execStart (a : Byte) (s : State) : Host.Outcome State Fault Refusal :=
  busCommand .idle [.prim (.start a)] .nothing 2 s

/-- STOP (R137). -/
def execStop (s : State) : Host.Outcome State Fault Refusal :=
  busCommand .active [.prim .stop] .nothing 1 s

/-- WBIT f (R138). -/
def execWbit (f : Bit) (s : State) : Host.Outcome State Fault Refusal :=
  busCommand .active [.prim (.writeBit f)] .nothing 2 s

/-- RBIT (R139). -/
def execRbit (s : State) : Host.Outcome State Fault Refusal :=
  busCommand .active [.prim .readBit] .toRes 1 s

/-- WBYTE a (R140). -/
def execWbyte (a : Byte) (s : State) : Host.Outcome State Fault Refusal :=
  busCommand .active [.prim (.writeByte a)] .nothing 2 s

/-- RBYTE (R141). -/
def execRbyte (s : State) : Host.Outcome State Fault Refusal :=
  busCommand .active [.prim .readByte] .toRes 1 s

/-- SACK (R142). -/
def execSack (s : State) : Host.Outcome State Fault Refusal :=
  busCommand .active [.prim .sendAck] .nothing 1 s

/-- SNACK (R143). -/
def execSnack (s : State) : Host.Outcome State Fault Refusal :=
  busCommand .active [.prim .sendNack] .nothing 1 s

/-- WACK (R144). -/
def execWack (s : State) : Host.Outcome State Fault Refusal :=
  busCommand .active [.prim .waitForAck] .nothing 1 s

end Sys2Proof.Machine
end

