-- ==== Sys2Proof/Machine/Operands.lean ====
section
/-! DEFINITION. What the commands make of their operands: the validations of spec/43_register_model.md (R192 to R194,
R210, R211), the offsets, and the bits of the control fields. -/

namespace Sys2Proof.Machine

/-- An offset operand as the byte that goes on the wire (R97, R155 (f)). -/
def offsetByte (off : BitVec 6) : Byte := off.setWidth 8

/-- WRTIME's check: hour < 24, minute < 60, second < 60 (R192). -/
def timeValid (hour minute second : Byte) : Bool :=
  decide (hour.toNat < 24) && decide (minute.toNat < 60) && decide (second.toNat < 60)

/-- WRDATE's check: 1 ≤ day ≤ 31, 1 ≤ month ≤ 12, 2000 ≤ year < 3000; no check of one field against another (R193). -/
def dateValid (day month : Byte) (year : Half) : Bool :=
  decide (1 ≤ day.toNat ∧ day.toNat ≤ 31) && decide (1 ≤ month.toNat ∧ month.toNat ≤ 12)
    && decide (2000 ≤ year.toNat ∧ year.toNat < 3000)

/-- WRDOW's check: 1 ≤ dow ≤ 7 (R194). -/
def dowValid (a : Byte) : Bool := decide (1 ≤ a.toNat ∧ a.toNat ≤ 7)

/-- A scratch address is 0..55 (R210, R211). -/
def scratchValid (a : Byte) : Bool := decide (a.toNat < Config.scratchLen)

/-- The offset byte of scratch cell `a`: 8 + a (R210). -/
def scratchOffset (a : Byte) : Byte := BitVec.ofNat 8 (Config.scratchBase + a.toNat)

/-- A flag operand moved to bit `k` of a byte: `f << k` (R196 to R198). -/
def flagAt (f : Bit) (k : Nat) : Byte := Byte.ofBit f <<< k

end Sys2Proof.Machine
end

