-- ==== Sys2Proof/WellFormed.lean ====
section
/-! DEFINITION. Which commands have an encoding: the bounds of spec/30_encoding.md R91, R97 and R105
that the types of `Instr` do not carry. -/

namespace Sys2Proof

/-- A burst length is 1..56 (R97: "legal 1..56"). -/
abbrev burstLengthOk (n : Nat) : Prop := 1 ≤ n ∧ n ≤ Config.scratchLen

/-- The command has an encoding: a BRD count in 1..56, BWR data of 1..56 bytes, WRSCRALL data of exactly
56 bytes; every other command always has one. -/
def Instr.wellFormed : Instr → Bool
  | .brd _ n => decide (burstLengthOk n)
  | .bwr _ d => decide (burstLengthOk d.length)
  | .wrscrall d => decide (d.length = Config.scratchLen)
  | _ => true

/-- `Instr.wellFormed` as a proposition. -/
abbrev Instr.WellFormed (i : Instr) : Prop := i.wellFormed = true

end Sys2Proof
end

