-- ==== Sys2Proof/Machine/Patterns.lean ====
section
/-! DEFINITION. The four transfer patterns as sequences and the four commands that expose them
(spec/41_transfer_patterns.md R150 to R159). -/

namespace Sys2Proof.Machine

/-- The addressing phase that every pattern opens with: `Start(0xD0) WaitForAck WriteByte(off) WaitForAck`. -/
def addressing (off : Byte) : List BusOp :=
  [.prim (.start Config.devW), .prim .waitForAck, .prim (.writeByte off), .prim .waitForAck]

/-- `n` bytes read, each acknowledged but the last, which is negative-acknowledged (R152). -/
def readPhase : Nat → List BusOp
  | 0 => []
  | 1 => [.prim .readByte, .prim .sendNack]
  | n + 2 => .prim .readByte :: .prim .sendAck :: readPhase (n + 1)

/-- `BurstRead(off, n)` (R152). -/
def burstRead (off : Byte) (n : Nat) : List BusOp :=
  addressing off ++ [.prim .stop, .prim (.start Config.devR), .prim .waitForAck] ++ readPhase n ++ [.prim .stop]

/-- `RegRead(off)` (R150), the burst read of one byte (R154). -/
def regRead (off : Byte) : List BusOp := burstRead off 1

/-- A byte written and its acknowledgement awaited. -/
def writePhase : List Byte → List BusOp
  | [] => []
  | v :: vs => .prim (.writeByte v) :: .prim .waitForAck :: writePhase vs

/-- `BurstWrite(off, d)` (R153). -/
def burstWrite (off : Byte) (d : List Byte) : List BusOp :=
  addressing off ++ writePhase d ++ [.prim .stop]

/-- `RegWrite(off, v)` (R151), the burst write of one byte (R154). -/
def regWrite (off v : Byte) : List BusOp := burstWrite off [v]

/-- `RegModify(off, mask, bits)` (R195): a register read, then a write of the byte read with the bits of `mask`
replaced by `bits`. -/
def regModify (off mask bits : Byte) : List BusOp :=
  regRead off ++ addressing off ++ [.writeBack mask bits, .prim .waitForAck, .prim .stop]

/-- RDREG off (R156). -/
def execRdreg (off : BitVec 6) (s : State) : Host.Outcome State Fault Refusal :=
  busCommand .idle (regRead (offsetByte off)) .toRes 2 s

/-- WRREG off, v (R157). -/
def execWrreg (off : BitVec 6) (v : Byte) (s : State) : Host.Outcome State Fault Refusal :=
  busCommand .idle (regWrite (offsetByte off) v) .nothing 3 s

/-- BRD off, n (R158). A count outside 1..56 is no command (R97, R100). -/
def execBrd (off : BitVec 6) (n : Nat) (s : State) : Host.Outcome State Fault Refusal :=
  if burstLengthOk n then busCommand .idle (burstRead (offsetByte off) n) .toBuf 3 s else illegal s

/-- BWR off, n, d (R159). Data of no byte or of more than 56 is no command (R97, R100). -/
def execBwr (off : BitVec 6) (d : List Byte) (s : State) : Host.Outcome State Fault Refusal :=
  if burstLengthOk d.length then busCommand .idle (burstWrite (offsetByte off) d) .nothing (3 + d.length) s
  else illegal s

end Sys2Proof.Machine
end

