-- ==== Sys2Proof/Machine/RegisterModel.lean ====
section
/-! DEFINITION. The twelve register-model commands (spec/43_register_model.md). Validation comes before the phase
check, and a command that skips never reaches it (R190, R200, R237). -/

namespace Sys2Proof.Machine

/-- RDSNAP (R191). -/
def execRdsnap (s : State) : Host.Outcome State Fault Refusal :=
  busCommand .idle (burstRead 0#8 Config.snapBurstLen) .toSnap 1 s

/-- The three transfers of WRTIME: hour, minute, second (R192). -/
def timeWrites (hour minute second : Byte) : List BusOp :=
  regWrite 2#8 (bcdEncode hour.toNat) ++ regWrite 1#8 (bcdEncode minute.toNat)
    ++ regWrite 0#8 (bcdEncode second.toNat)

/-- WRTIME hour, minute, second (R192). -/
def execWrtime (hour minute second : Byte) (s : State) : Host.Outcome State Fault Refusal :=
  if timeValid hour minute second then busCommand .idle (timeWrites hour minute second) .nothing 4 s
  else skip 4 s

/-- The three transfers of WRDATE: year, month, day (R193). -/
def dateWrites (day month : Byte) (year : Half) : List BusOp :=
  regWrite 6#8 (yearByte (year.toNat - Config.centuryBase)) ++ regWrite 5#8 (bcdEncode month.toNat)
    ++ regWrite 4#8 (bcdEncode day.toNat)

/-- WRDATE day, month, year (R193). -/
def execWrdate (day month : Byte) (year : Half) (s : State) : Host.Outcome State Fault Refusal :=
  if dateValid day month year then busCommand .idle (dateWrites day month year) .nothing 5 s
  else skip 5 s

/-- WRDOW a (R194): raw, not BCD. -/
def execWrdow (a : Byte) (s : State) : Host.Outcome State Fault Refusal :=
  if dowValid a then busCommand .idle (regWrite 3#8 a) .nothing 2 s else skip 2 s

/-- SETHALT f (R196). -/
def execSethalt (f : Bit) (s : State) : Host.Outcome State Fault Refusal :=
  busCommand .idle (regModify 0#8 0x80#8 (flagAt f 7)) .nothing 2 s

/-- SETOUT f (R197). -/
def execSetout (f : Bit) (s : State) : Host.Outcome State Fault Refusal :=
  busCommand .idle (regModify 7#8 0x80#8 (flagAt f 7)) .nothing 2 s

/-- SETSQWE f (R198). -/
def execSetsqwe (f : Bit) (s : State) : Host.Outcome State Fault Refusal :=
  busCommand .idle (regModify 7#8 0x10#8 (flagAt f 4)) .nothing 2 s

/-- SETRATE r (R199). -/
def execSetrate (r : BitVec 2) (s : State) : Host.Outcome State Fault Refusal :=
  busCommand .idle (regModify 7#8 0x03#8 (r.setWidth 8)) .nothing 2 s

/-- RDSCR a (R210): out of range, `RES <- 0` and no bus activity. -/
def execRdscr (a : Byte) (s : State) : Host.Outcome State Fault Refusal :=
  if scratchValid a then busCommand .idle (regRead (scratchOffset a)) .toRes 2 s
  else skip 2 (setRes 0#16 s)

/-- WRSCR a, v (R211). -/
def execWrscr (a v : Byte) (s : State) : Host.Outcome State Fault Refusal :=
  if scratchValid a then busCommand .idle (regWrite (scratchOffset a) v) .nothing 3 s else skip 3 s

/-- RDSCRALL (R212). -/
def execRdscrall (s : State) : Host.Outcome State Fault Refusal :=
  busCommand .idle (burstRead 8#8 Config.scratchLen) .toBuf 1 s

/-- WRSCRALL d (R213). Data of another length than 56 bytes is no command (R91, R100). -/
def execWrscrall (d : List Byte) (s : State) : Host.Outcome State Fault Refusal :=
  if d.length = Config.scratchLen then busCommand .idle (burstWrite 8#8 d) .nothing 57 s else illegal s

end Sys2Proof.Machine
end

