-- ==== Sys2Proof/Machine/Dispatch.lean ====
section
/-! DEFINITION. One arm per command, one direct call of its meaning each. -/

namespace Sys2Proof.Machine

def exec (i : Instr) (s : State) : Host.Outcome State Fault Refusal :=
  match i with
  | .start a => Sys2Proof.Machine.execStart a s
  | .stop => Sys2Proof.Machine.execStop s
  | .wbit f => Sys2Proof.Machine.execWbit f s
  | .rbit => Sys2Proof.Machine.execRbit s
  | .wbyte a => Sys2Proof.Machine.execWbyte a s
  | .rbyte => Sys2Proof.Machine.execRbyte s
  | .sack => Sys2Proof.Machine.execSack s
  | .snack => Sys2Proof.Machine.execSnack s
  | .wack => Sys2Proof.Machine.execWack s
  | .rdreg off => Sys2Proof.Machine.execRdreg off s
  | .wrreg off v => Sys2Proof.Machine.execWrreg off v s
  | .brd off n => Sys2Proof.Machine.execBrd off n s
  | .bwr off d => Sys2Proof.Machine.execBwr off d s
  | .bcdenc a => Sys2Proof.Machine.execBcdenc a s
  | .bcddec a => Sys2Proof.Machine.execBcddec a s
  | .bcdyear a => Sys2Proof.Machine.execBcdyear a s
  | .bcdhour a => Sys2Proof.Machine.execBcdhour a s
  | .rdsnap => Sys2Proof.Machine.execRdsnap s
  | .wrtime hour minute second => Sys2Proof.Machine.execWrtime hour minute second s
  | .wrdate day month year => Sys2Proof.Machine.execWrdate day month year s
  | .wrdow a => Sys2Proof.Machine.execWrdow a s
  | .sethalt f => Sys2Proof.Machine.execSethalt f s
  | .setout f => Sys2Proof.Machine.execSetout f s
  | .setsqwe f => Sys2Proof.Machine.execSetsqwe f s
  | .setrate r => Sys2Proof.Machine.execSetrate r s
  | .rdscr a => Sys2Proof.Machine.execRdscr a s
  | .wrscr a v => Sys2Proof.Machine.execWrscr a v s
  | .rdscrall => Sys2Proof.Machine.execRdscrall s
  | .wrscrall d => Sys2Proof.Machine.execWrscrall d s

end Sys2Proof.Machine
end

