-- ==== Sys2Proof/Decode.lean ====
section
/-! DEFINITION. The decoder, total on any bytes and refusing by name, and the encoder, both from the
formats and the opcode map of spec/30_encoding.md (R91 to R94, R96 to R100). -/

namespace Sys2Proof

/-- Why a command is illegal (R100); every one of them raises ILLEGAL_COMMAND. -/
inductive DecodeError where
  /-- R100 (a): the opcode byte is not in the opcode map. -/
  | unknownOpcode
  /-- R100 (b): a must-be-zero bit is 1. -/
  | mustBeZero
  /-- R100 (c): the count is 0 or above 56. -/
  | badCount
  /-- R100 (d): the command's bytes run past the end of the stream. -/
  | truncated
  deriving DecidableEq, Repr

/-- What the decoder answers: the command and the bytes after it, or why there is none. -/
abbrev Decoded := Except DecodeError (Instr × List Byte)

/-- Format Z: no operand byte. -/
def formatZ (i : Instr) (rest : List Byte) : Decoded := .ok (i, rest)

/-- Format B: one operand byte, every value legal. -/
def formatB (mk : Byte → Instr) : List Byte → Decoded
  | a :: rest => .ok (mk a, rest)
  | [] => .error .truncated

/-- Format F: a flag in bit 0, bits 7:1 must be zero (R96). -/
def formatF (mk : Bit → Instr) : List Byte → Decoded
  | b :: rest => if b &&& 0xFE#8 = 0#8 then .ok (mk (b.getLsbD 0), rest) else .error .mustBeZero
  | [] => .error .truncated

/-- Format R: a rate in bits 1:0, bits 7:2 must be zero (R96). -/
def formatR (mk : BitVec 2 → Instr) : List Byte → Decoded
  | b :: rest => if b &&& 0xFC#8 = 0#8 then .ok (mk (b.setWidth 2), rest) else .error .mustBeZero
  | [] => .error .truncated

/-- The offset operand of formats O, OB, ON and V: bits 5:0, with bits 7:6 zero (R97). -/
def offsetOperand (b : Byte) : Option (BitVec 6) :=
  if b &&& 0xC0#8 = 0#8 then some (b.setWidth 6) else none

/-- Format O: an offset byte. -/
def formatO (mk : BitVec 6 → Instr) : List Byte → Decoded
  | b :: rest =>
    match offsetOperand b with
    | some off => .ok (mk off, rest)
    | none => .error .mustBeZero
  | [] => .error .truncated

/-- Format OB: an offset byte, then a value byte. -/
def formatOB (mk : BitVec 6 → Byte → Instr) : List Byte → Decoded
  | b :: v :: rest =>
    match offsetOperand b with
    | some off => .ok (mk off v, rest)
    | none => .error .mustBeZero
  | _ => .error .truncated

/-- Format ON: an offset byte, then a count byte, legal 1..56. -/
def formatON (mk : BitVec 6 → Nat → Instr) : List Byte → Decoded
  | b :: n :: rest =>
    match offsetOperand b with
    | some off => if burstLengthOk n.toNat then .ok (mk off n.toNat, rest) else .error .badCount
    | none => .error .mustBeZero
  | _ => .error .truncated

/-- Format BB: two operand bytes. -/
def formatBB (mk : Byte → Byte → Instr) : List Byte → Decoded
  | a :: v :: rest => .ok (mk a v, rest)
  | _ => .error .truncated

/-- Format T: three operand bytes. -/
def formatT (mk : Byte → Byte → Byte → Instr) : List Byte → Decoded
  | a :: b :: c :: rest => .ok (mk a b c, rest)
  | _ => .error .truncated

/-- The year operand: `byte3 * 256 + byte4`, high byte first (R98). -/
def yearOperand (hi lo : Byte) : Half := BitVec.ofNat 16 (hi.toNat * 256 + lo.toNat)

/-- Format D: day, month, year high byte, year low byte. -/
def formatD (mk : Byte → Byte → Half → Instr) : List Byte → Decoded
  | day :: month :: yh :: yl :: rest => .ok (mk day month (yearOperand yh yl), rest)
  | _ => .error .truncated

/-- Format V: an offset byte, a count byte `n` of 1..56, then `n` data bytes (R94's order of checks). -/
def formatV (mk : BitVec 6 → List Byte → Instr) : List Byte → Decoded
  | b :: n :: rest =>
    if burstLengthOk n.toNat then
      if n.toNat ≤ rest.length then
        match offsetOperand b with
        | some off => .ok (mk off (rest.take n.toNat), rest.drop n.toNat)
        | none => .error .mustBeZero
      else .error .truncated
    else .error .badCount
  | _ => .error .truncated

/-- Format S: 56 data bytes. -/
def formatS (mk : List Byte → Instr) (rest : List Byte) : Decoded :=
  if Config.scratchLen ≤ rest.length then
    .ok (mk (rest.take Config.scratchLen), rest.drop Config.scratchLen)
  else .error .truncated

/-- The decoder of R94 on the bytes from the command's first to the stream's last: the opcode map of R92,
each opcode with its format. -/
def decode : List Byte → Decoded
  | [] => .error .truncated
  | op :: rest =>
    match op.toNat with
    | 0x01 => formatB .start rest
    | 0x02 => formatZ .stop rest
    | 0x03 => formatF .wbit rest
    | 0x04 => formatZ .rbit rest
    | 0x05 => formatB .wbyte rest
    | 0x06 => formatZ .rbyte rest
    | 0x07 => formatZ .sack rest
    | 0x08 => formatZ .snack rest
    | 0x09 => formatZ .wack rest
    | 0x10 => formatO .rdreg rest
    | 0x11 => formatOB .wrreg rest
    | 0x12 => formatON .brd rest
    | 0x13 => formatV .bwr rest
    | 0x20 => formatB .bcdenc rest
    | 0x21 => formatB .bcddec rest
    | 0x22 => formatB .bcdyear rest
    | 0x23 => formatB .bcdhour rest
    | 0x30 => formatZ .rdsnap rest
    | 0x31 => formatT .wrtime rest
    | 0x32 => formatD .wrdate rest
    | 0x33 => formatB .wrdow rest
    | 0x34 => formatF .sethalt rest
    | 0x35 => formatF .setout rest
    | 0x36 => formatF .setsqwe rest
    | 0x37 => formatR .setrate rest
    | 0x38 => formatB .rdscr rest
    | 0x39 => formatBB .wrscr rest
    | 0x3A => formatZ .rdscrall rest
    | 0x3B => formatS .wrscrall rest
    | _ => .error .unknownOpcode

/-- The bytes of a command (R91, R92). On a command that is not well-formed the bytes are no encoding. -/
def encode : Instr → List Byte
  | .start a => [0x01#8, a]
  | .stop => [0x02#8]
  | .wbit f => [0x03#8, Byte.ofBit f]
  | .rbit => [0x04#8]
  | .wbyte a => [0x05#8, a]
  | .rbyte => [0x06#8]
  | .sack => [0x07#8]
  | .snack => [0x08#8]
  | .wack => [0x09#8]
  | .rdreg off => [0x10#8, off.setWidth 8]
  | .wrreg off v => [0x11#8, off.setWidth 8, v]
  | .brd off n => [0x12#8, off.setWidth 8, BitVec.ofNat 8 n]
  | .bwr off d => 0x13#8 :: off.setWidth 8 :: BitVec.ofNat 8 d.length :: d
  | .bcdenc a => [0x20#8, a]
  | .bcddec a => [0x21#8, a]
  | .bcdyear a => [0x22#8, a]
  | .bcdhour a => [0x23#8, a]
  | .rdsnap => [0x30#8]
  | .wrtime h m s => [0x31#8, h, m, s]
  | .wrdate d m y => [0x32#8, d, m, y.extractLsb' 8 8, y.extractLsb' 0 8]
  | .wrdow a => [0x33#8, a]
  | .sethalt f => [0x34#8, Byte.ofBit f]
  | .setout f => [0x35#8, Byte.ofBit f]
  | .setsqwe f => [0x36#8, Byte.ofBit f]
  | .setrate r => [0x37#8, r.setWidth 8]
  | .rdscr a => [0x38#8, a]
  | .wrscr a v => [0x39#8, a, v]
  | .rdscrall => [0x3A#8]
  | .wrscrall d => 0x3B#8 :: d

/-- A command's length in bytes, from its format (R93). -/
def Instr.byteLength : Instr → Nat
  | .stop | .rbit | .rbyte | .sack | .snack | .wack | .rdsnap | .rdscrall => 1
  | .start _ | .wbit _ | .wbyte _ | .rdreg _ | .bcdenc _ | .bcddec _ | .bcdyear _ | .bcdhour _
  | .wrdow _ | .sethalt _ | .setout _ | .setsqwe _ | .setrate _ | .rdscr _ => 2
  | .wrreg _ _ | .brd _ _ | .wrscr _ _ => 3
  | .wrtime _ _ _ => 4
  | .wrdate _ _ _ => 5
  | .bwr _ d => 3 + d.length
  | .wrscrall _ => 57

/-- The longest command, BWR with 56 data bytes (R93). -/
def maxCommandBytes : Nat := 59

/-- The bytes of an instruction whose bits are `w`, numbered as spec/opcode_table.json numbers them (bit 0
the least significant of the first byte), every bit from `nbits` up being 0, to the longest command. -/
def tableBytes (nbits w : Nat) : List Byte :=
  (List.range maxCommandBytes).map fun k => BitVec.ofNat 8 ((w % 2 ^ nbits) >>> (8 * k))

/-- The command the decoder reads from an instruction of the opcode table, `none` where it refuses. -/
def decodeTableWord (nbits w : Nat) : Option Instr :=
  match decode (tableBytes nbits w) with
  | .ok (i, _) => some i
  | .error _ => none

end Sys2Proof
end

