-- ==== Sys2Proof/Machine/Sequencer.lean ====
section
/-! DEFINITION. Fetch and the sequencer's choice of what to do next (spec/30_encoding.md R94, R95), and how an
instruction is placed where the next fetch finds it. -/

namespace Sys2Proof.Machine

/-- The bytes of the stream from `PC` on (R94). -/
def fetchBytes (s : State) : List Byte := s.stream.drop s.pc.toNat

/-- The fetch at a command boundary: a legal command is executed, an illegal one raises ILLEGAL_COMMAND (R94), and at
`PC = L` there is nothing to fetch, DONE (R95). -/
def fetch (s : State) : Action :=
  if s.pc.toNat < s.stream.length then
    match decode (fetchBytes s) with
    | .ok (i, _) => .execute i
    | .error _ => .answer (illegal s)
  else if s.pc.toNat = s.stream.length then .answer (.next s)
  else .answer (.fault .pcPastStream)

/-- The primitives a command performs, and the phase its first one requires; `none` for a command that reaches no primitive
(the codec, a skip, operands without an encoding). -/
def busPlan : Instr → Option (Phase × List BusOp)
  | .start a => some (.idle, [.prim (.start a)])
  | .stop => some (.active, [.prim .stop])
  | .wbit f => some (.active, [.prim (.writeBit f)])
  | .rbit => some (.active, [.prim .readBit])
  | .wbyte a => some (.active, [.prim (.writeByte a)])
  | .rbyte => some (.active, [.prim .readByte])
  | .sack => some (.active, [.prim .sendAck])
  | .snack => some (.active, [.prim .sendNack])
  | .wack => some (.active, [.prim .waitForAck])
  | .rdreg off => some (.idle, regRead (offsetByte off))
  | .wrreg off v => some (.idle, regWrite (offsetByte off) v)
  | .brd off n => if burstLengthOk n then some (.idle, burstRead (offsetByte off) n) else none
  | .bwr off d => if burstLengthOk d.length then some (.idle, burstWrite (offsetByte off) d) else none
  | .bcdenc _ | .bcddec _ | .bcdyear _ | .bcdhour _ => none
  | .rdsnap => some (.idle, burstRead 0#8 Config.snapBurstLen)
  | .wrtime h m x => if timeValid h m x then some (.idle, timeWrites h m x) else none
  | .wrdate d m y => if dateValid d m y then some (.idle, dateWrites d m y) else none
  | .wrdow a => if dowValid a then some (.idle, regWrite 3#8 a) else none
  | .sethalt f => some (.idle, regModify 0#8 0x80#8 (flagAt f 7))
  | .setout f => some (.idle, regModify 7#8 0x80#8 (flagAt f 7))
  | .setsqwe f => some (.idle, regModify 7#8 0x10#8 (flagAt f 4))
  | .setrate r => some (.idle, regModify 7#8 0x03#8 (r.setWidth 8))
  | .rdscr a => if scratchValid a then some (.idle, regRead (scratchOffset a)) else none
  | .wrscr a v => if scratchValid a then some (.idle, regWrite (scratchOffset a) v) else none
  | .rdscrall => some (.idle, burstRead 8#8 Config.scratchLen)
  | .wrscrall d => if d.length = Config.scratchLen then some (.idle, burstWrite 8#8 d) else none

/-- At most `n` micro-operations of the command at a boundary, if it is one that reaches the bus (R94, R135). -/
def runPart (n : Nat) (s : State) : State :=
  match decode (fetchBytes s) with
  | .error _ => s
  | .ok (i, _) =>
    match busPlan i with
    | none => s
    | some (need, ops) => if s.phase = need then runUntil ops [] n s else s

/-- What the block still does before a pending reset lands: `resetAfter` micro-operations of the command that is held up or
comes next, no result written (R260: "It abandons any command in progress"). -/
def beforeReset (s : State) : State :=
  if s.err then s
  else
    match s.busy with
    | some j => resumeUntil j s.resetAfter s
    | none => runPart s.resetAfter s

/-- What the sequencer does next. The premises on the run come first (R24, R25); then the host's reset (R260); a fault
stops fetching (R27); a command in a wait goes on with it (R132). -/
def nextAction (s : State) : Action :=
  if s.handle.scl = s.handle.sda then .answer (.refused .busHandleNotDistinct)
  else if Config.maxStream < s.stream.length then .answer (.refused .streamTooLong)
  else if s.resetReq then .answer (.next (hostReset (beforeReset s)))
  else if s.err then .answer (.next s)
  else
    match s.busy with
    | some j => .answer (.next (resume j s))
    | none => fetch s

/-- The stream with `bytes` at index `at`, in place of what stood there, up to the longest stream. -/
def placeBytes (at_ : Nat) (bytes stream : List Byte) : List Byte :=
  (stream.take at_ ++ List.replicate (at_ - stream.length) 0#8 ++ bytes ++ stream.drop (at_ + bytes.length)).take
    Config.maxStream

/-- A state in which the next step fetches: no reset pending, no fault, no command in a wait, and the instruction of
the opcode table's bits `w` in the stream at `PC`. -/
def placeTableWord (s : State) (nbits w : Nat) : State :=
  { s with
    stream := placeBytes s.pc.toNat (tableBytes nbits w) s.stream
    resetReq := false
    resetAfter := 0
    err := false
    busy := none }

end Sys2Proof.Machine
end

