-- ==== Sys2Proof/Machine/Step.lean ====
section
/-! DEFINITION. One step: the sequencer's next action, and the command it fetched. -/

namespace Sys2Proof.Machine

/-- One step of the machine. -/
def step (s : State) : Host.Outcome State Fault Refusal :=
  match nextAction s with
  | .answer o => o
  | .execute i => exec i s

/-- `s` with the opcode table's instruction `w` where `step` fetches next. -/
def State.withFetchWord (s : State) (nbits w : Nat) : State := placeTableWord s nbits w

end Sys2Proof.Machine
end

