-- ==== Sys2Proof/Safety.lean ====
section
/-! DEFINITION. The terms claims are stated in: the invariant of the machine, what a run may show on the two lines, the
bench of spec/20_memory.md R83, and the parts of the state a command leaves alone. -/

namespace Sys2Proof.Machine

/-! ### The invariant -/

/-- The phase after a primitive, where its precondition holds (R135, R26). -/
def Prim.phaseAfter : Prim → Phase → Option Phase
  | .start _, .idle => some .active
  | .start _, .active => none
  | .stop, .active => some .idle
  | .stop, .idle => none
  | _, .active => some .active
  | _, .idle => none

/-- The phase after an entry of a sequence. -/
def BusOp.phaseAfter : BusOp → Phase → Option Phase
  | .prim p, ph => p.phaseAfter ph
  | .writeBack _ _, ph => (Prim.writeByte 0#8).phaseAfter ph

/-- Every primitive of the sequence meets its phase precondition (R155 (c)). -/
def legalFrom : Phase → List BusOp → Bool
  | _, [] => true
  | ph, op :: rest =>
    match op.phaseAfter ph with
    | some ph' => legalFrom ph' rest
    | none => false

/-- How many values the entry reads: one for a bit or a byte read. -/
def BusOp.reads : BusOp → Nat
  | .prim .readBit => 1
  | .prim .readByte => 1
  | _ => 0

/-- How many values the sequence reads. -/
def readCount : List BusOp → Nat
  | [] => 0
  | op :: rest => op.reads + readCount rest

/-- The lines at a command boundary (R133): idle pins in `PHASE = IDLE`, the clock low in `PHASE = ACTIVE`. In the loop of
a wait: the pins of R155 (d), the phase open, no fault, and a rest of the command that keeps the preconditions. -/
def State.linesOk (s : State) : Bool :=
  match s.busy with
  | none =>
    match s.phase with
    | .idle => decide (s.pins = Pins.idle)
    | .active => decide (s.pins.scl = false)
  | some j =>
    decide (s.phase = .active) && decide (s.pins.scl = true) && decide (s.pins.dir = .input)
      && decide (s.err = false) && legalFrom .active j.todo

/-- `BUF` has 56 cells and `BUFN` counts at most 56 (R20, R29); a command in a wait reads at most 56 bytes in all. -/
def State.bufferOk (s : State) : Bool :=
  decide (s.buf.length = Config.scratchLen) && decide (s.bufn.toNat ≤ Config.scratchLen)
    && match s.busy with
      | none => true
      | some j => decide (j.rx.length + readCount j.todo ≤ Config.scratchLen)

/-- `PC` is inside the stream or at its end, and so is the end of a command in a wait (R25, R95). -/
def State.pcOk (s : State) : Bool :=
  decide (s.pc.toNat ≤ s.stream.length)
    && match s.busy with
      | none => true
      | some j => decide (s.pc.toNat + j.len ≤ s.stream.length)

/-- A recorded fault has a code and names the command `PC` stands at (R233). -/
def State.faultOk (s : State) : Bool :=
  !s.err || (decide (s.errcode ≠ 0#2) && decide (s.errpc = s.pc))

/-- The invariant every step keeps. -/
abbrev State.Inv (s : State) : Prop :=
  s.linesOk = true ∧ s.bufferOk = true ∧ s.pcOk = true ∧ s.faultOk = true ∧ Memory.wf s.device.regs = true

/-! ### What the two lines may show (R134) -/

/-- Where the two lines stand: bus idle, inside a start condition, inside a transfer, inside a stop condition. -/
inductive LineMode where
  | idle
  | opening
  | opened
  | transfer
  | closing
  deriving DecidableEq, Repr

/-- The one pin change that may follow: a start condition is `1/O/1 1/O/0 0/O/0`, a stop condition `1/O/0 1/O/1 1/I/1`; in a
transfer the data line changes only while the clock is low, and a clock that is high may only fall. -/
def lineNext : LineMode → Pins → Pins → Option LineMode
  | .idle, _, new => if new = ⟨true, .output, true⟩ then some .opening else none
  | .opening, _, new => if new = ⟨true, .output, false⟩ then some .opened else none
  | .opened, _, new => if new = ⟨false, .output, false⟩ then some .transfer else none
  | .transfer, old, new =>
    if old.scl = false then
      if new.scl = false ∨ new = { old with scl := true } then some .transfer else none
    else if new = { old with scl := false } then some .transfer
    else if old = ⟨true, .output, false⟩ ∧ new = ⟨true, .output, true⟩ then some .closing
    else none
  | .closing, _, new => if new = Pins.idle then some .idle else none

/-- Where the lines stand after a pin trace (newest first) that began on an idle bus, `none` if it shows a change that may
not be. -/
def lineMode : List Pins → Option LineMode
  | [] => none
  | [p] => if p = Pins.idle then some .idle else none
  | new :: old :: rest => (lineMode (old :: rest)).bind fun m => lineNext m old new

/-- The stretch `recent` of the pin trace (newest first) shows no data-line change with the clock high but start and stop
conditions, and where it stands agrees with the pins and with `PHASE` (R134). -/
abbrev State.StableOver (recent : List Pins) (s : State) : Prop :=
  recent.head? = some s.pins ∧
    lineMode recent = some (match s.phase with | .idle => .idle | .active => .transfer)

/-- The data-line levels at the clock's rising edges of a pin trace (newest first), oldest first. -/
def bitsOnWire : List Pins → List Bit
  | new :: old :: rest =>
    bitsOnWire (old :: rest) ++ (if old.scl = false ∧ new.scl = true then [new.sda] else [])
  | _ => []

/-! ### Runs and premises -/

/-- The run's premises hold and no reset is pending: two distinct lines (R24), a stream a host may supply (R90). -/
abbrev State.Ready (s : State) : Prop :=
  s.handle.scl ≠ s.handle.sda ∧ s.stream.length ≤ Config.maxStream ∧ s.resetReq = false

/-- The sequencer is at a command boundary and may fetch. -/
abbrev State.AtBoundary (s : State) : Prop := s.Ready ∧ s.err = false ∧ s.busy = none

/-- The setting of R83: the reference device is the environment, in `D_IDLE`, the block in `PHASE = IDLE`, the device's
registers in canonical form. -/
abbrev State.OnBench (s : State) : Prop :=
  s.attached = true ∧ s.device.mode = .idle ∧ s.phase = .idle ∧ Memory.wf s.device.regs = true

/-- `DEV[a]` of the reference device. -/
def State.dev (s : State) (a : Nat) : Byte := Memory.read s.device.regs a

/-- The bits of a byte, first on the wire first (R62). -/
def msbBits (v : Byte) : List Bit := msbFirst.map fun i => v.getLsbD i

/-! ### What is left alone -/

/-- The result registers are unchanged. -/
abbrev SameResults (s t : State) : Prop :=
  t.res = s.res ∧ t.buf = s.buf ∧ t.bufn = s.bufn ∧ t.snap = s.snap

/-- The fault registers are unchanged. -/
abbrev SameFault (s t : State) : Prop := t.err = s.err ∧ t.errcode = s.errcode ∧ t.errpc = s.errpc

/-- The run's parameters and the choice of environment are unchanged. -/
abbrev SameRun (s t : State) : Prop :=
  t.handle = s.handle ∧ t.stream = s.stream ∧ t.resetReq = s.resetReq ∧ t.resetAfter = s.resetAfter
    ∧ t.attached = s.attached

/-- No pin, no phase, no environment: the bus is untouched. -/
abbrev SameBus (s t : State) : Prop :=
  t.pins = s.pins ∧ t.phase = s.phase ∧ t.busy = s.busy ∧ t.answers = s.answers ∧ t.drawn = s.drawn
    ∧ t.device = s.device ∧ t.trace.pins = s.trace.pins ∧ t.trace.calls = s.trace.calls
    ∧ t.trace.regs = s.trace.regs

/-- A bus command has completed, `len` bytes long: the bus is idle again, no command is in progress, and nothing
faulted (R155 (b)). -/
abbrev CompletedIdle (len : Nat) (s t : State) : Prop :=
  t.phase = .idle ∧ t.pins = Pins.idle ∧ t.busy = none ∧ t.pc = s.pc + BitVec.ofNat 16 len
    ∧ SameFault s t ∧ SameRun s t

/-- The environment is left as it was, the reference device standing idle. -/
abbrev EnvironmentKept (s t : State) : Prop :=
  t.answers = s.answers ∧ t.drawn = s.drawn ∧ t.device.mode = .idle ∧ t.device.dack = false

/-! ### Commands -/

/-- The phase a well-formed command requires: `none` for the codec, and for a command whose operands make it skip
(R135, R190, R200, R231). -/
def phaseNeeded : Instr → Option Phase
  | .start _ => some .idle
  | .stop | .wbit _ | .rbit | .wbyte _ | .rbyte | .sack | .snack | .wack => some .active
  | .rdreg _ | .wrreg _ _ | .brd _ _ | .bwr _ _ => some .idle
  | .bcdenc _ | .bcddec _ | .bcdyear _ | .bcdhour _ => none
  | .rdsnap | .sethalt _ | .setout _ | .setsqwe _ | .setrate _ | .rdscrall | .wrscrall _ => some .idle
  | .wrtime h m s => if h.toNat < 24 ∧ m.toNat < 60 ∧ s.toNat < 60 then some .idle else none
  | .wrdate d m y =>
    if (1 ≤ d.toNat ∧ d.toNat ≤ 31) ∧ (1 ≤ m.toNat ∧ m.toNat ≤ 12) ∧ 2000 ≤ y.toNat ∧ y.toNat < 3000 then some .idle
    else none
  | .wrdow a => if 1 ≤ a.toNat ∧ a.toNat ≤ 7 then some .idle else none
  | .rdscr a => if a.toNat ≤ 55 then some .idle else none
  | .wrscr a _ => if a.toNat ≤ 55 then some .idle else none

/-- Which result register a command writes (R28 to R30, R201). -/
def resultOf : Instr → Finish
  | .start _ | .stop | .wbit _ | .wbyte _ | .sack | .snack | .wack => .nothing
  | .rbit | .rbyte | .rdreg _ | .rdscr _ | .bcdenc _ | .bcddec _ | .bcdyear _ | .bcdhour _ => .toRes
  | .brd _ _ | .rdscrall => .toBuf
  | .rdsnap => .toSnap
  | .wrreg _ _ | .bwr _ _ | .wrtime _ _ _ | .wrdate _ _ _ | .wrdow _ | .sethalt _ | .setout _ | .setsqwe _ | .setrate _
  | .wrscr _ _ | .wrscrall _ => .nothing

/-- At most `n` more samples of a command held up in a wait, one after another (R132). -/
def goOn : Nat → State → State
  | 0, s => s
  | n + 1, s =>
    match s.busy with
    | none => s
    | some j => goOn n (resume j s)

/-- The command `i`, executed in `s`, completes in `t`, its waits acknowledged after any number of samples (R132). -/
def Completes (i : Instr) (s t : State) : Prop :=
  ∃ u n, exec i s = .next u ∧ goOn n u = t ∧ t.busy = none

/-- Commands that complete one after another. -/
def CompleteAll : List Instr → State → State → Prop
  | [], s, t => t = s
  | i :: is, s, t => ∃ u, Completes i s u ∧ CompleteAll is u t

/-- Commands executed one after another. -/
def execAll : List Instr → State → Host.Outcome State Fault Refusal
  | [], s => .next s
  | i :: is, s =>
    match exec i s with
    | .next t => execAll is t
    | .fault f => .fault f
    | .refused r => .refused r

/-- A command that is one primitive `p` and writes no result: it ends with the given pins in the open transfer, and the
reference device has met exactly that primitive. -/
def RunsPrimitive (i : Instr) (p : Prim) (pins : Pins) (s : State) : Prop :=
  ∃ t, exec i s = .next t ∧ t.pins = pins ∧ t.phase = .active ∧ t.busy = none
    ∧ t.pc = s.pc + BitVec.ofNat 16 i.byteLength ∧ SameResults s t ∧ SameFault s t ∧ SameRun s t
    ∧ t.answers = s.answers ∧ t.device = (deviceEvent p s).device ∧ t.drawn = (deviceEvent p s).drawn
    ∧ t.trace.calls = ⟨p, none⟩ :: s.trace.calls ∧ t.trace.regs = (deviceEvent p s).trace.regs
    ∧ t.trace.results = s.trace.results

/-- A read-modify-write on the bench: the register `off` takes `w` of its old value, by one read and one write, and every other
register keeps its value. -/
def ModifiesRegister (i : Instr) (off : BitVec 6) (w : Byte → Byte) (s : State) : Prop :=
  ∃ t, exec i s = .next t ∧ CompletedIdle 2 s t ∧ SameResults s t ∧ EnvironmentKept s t
    ∧ (∀ a, t.dev a = if a = off.toNat then w (s.dev off.toNat) else s.dev a) ∧ t.device.ptr = off + 1#6
    ∧ t.trace.regs = [.wr off (w (s.dev off.toNat)), .rd off (s.dev off.toNat)] ++ s.trace.regs
    ∧ t.trace.results = s.trace.results

/-! ### Sequences of primitive calls (R150 to R153), oldest first -/

/-- A call that returns nothing. -/
def called (p : Prim) : Call := ⟨p, none⟩

/-- The addressing phase of every pattern. -/
def addressCalls (off : Byte) : List Call :=
  [called (.start 0xD0#8), called .waitForAck, called (.writeByte off), called .waitForAck]

/-- The bytes of a burst read: every one acknowledged but the last. -/
def dataReadCalls : List Byte → List Call
  | [] => []
  | [v] => [⟨.readByte, some v⟩, called .sendNack]
  | v :: w :: vs => ⟨.readByte, some v⟩ :: called .sendAck :: dataReadCalls (w :: vs)

/-- The bytes of a burst write. -/
def dataWriteCalls : List Byte → List Call
  | [] => []
  | v :: vs => called (.writeByte v) :: called .waitForAck :: dataWriteCalls vs

/-- `BurstRead` of the bytes `ds`. -/
def burstReadCalls (off : Byte) (ds : List Byte) : List Call :=
  addressCalls off ++ [called .stop, called (.start 0xD1#8), called .waitForAck] ++ dataReadCalls ds ++ [called .stop]

/-- `BurstWrite` of the bytes `ds`. -/
def burstWriteCalls (off : Byte) (ds : List Byte) : List Call :=
  addressCalls off ++ dataWriteCalls ds ++ [called .stop]

end Sys2Proof.Machine
end

