-- ==== Sys2Proof/Certificates/Slice0/Obligations.lean ====
section
/-! DEFINITION. The statements for the provers. A clause about the traces, about `busy`, `answers`, `drawn` or `attached` is about
the model's own way to hold what R13, R32, R73 and R75 give (notes/assumptions 1, 2, 3, 5), and so is a clause about the reference
device or the register trace where the oracle answers (notes/assumptions/20). -/

open Sys2Proof Sys2Proof.Machine

/-! ### Fetch, decode, encode -/

/-- R94: at a command boundary, when the bytes from `PC` on decode to a command, the step is that command and nothing else. While a
wait holds a command up (R132), the step is one more sample of that wait (the model's choice, notes/assumptions/1). -/
def Obligations.StepRunsTheDecodedCommand : Prop :=
  (∀ (s : State) (i : Instr) (rest : List Byte), s.AtBoundary →
      decode (s.stream.drop s.pc.toNat) = .ok (i, rest) → i.WellFormed ∧ step s = exec i s)
    ∧ (∀ (s : State) (j : Job), s.Ready → s.err = false → s.busy = some j → step s = .next (resume j s))

/-- R100: every illegal encoding raises ILLEGAL_COMMAND, with nothing changed but the fault registers. -/
def Obligations.IllegalEncodingsFault : Prop :=
  ∀ (s : State) (bs : List Byte), s.AtBoundary → s.stream.drop s.pc.toNat = bs →
    ((∃ op rest, bs = op :: rest ∧ op.toNat ∉ [0x01, 0x02, 0x03, 0x04, 0x05, 0x06, 0x07, 0x08, 0x09, 0x10, 0x11, 0x12,
          0x13, 0x20, 0x21, 0x22, 0x23, 0x30, 0x31, 0x32, 0x33, 0x34, 0x35, 0x36, 0x37, 0x38, 0x39, 0x3A, 0x3B])
      ∨ (∃ op b rest, bs = op :: b :: rest ∧ op.toNat ∈ [0x03, 0x34, 0x35, 0x36] ∧ 2 ≤ b.toNat)
      ∨ (∃ b rest, bs = 0x37#8 :: b :: rest ∧ 4 ≤ b.toNat)
      ∨ (∃ op b rest, bs = op :: b :: rest ∧ op.toNat ∈ [0x10, 0x11, 0x12, 0x13] ∧ 64 ≤ b.toNat)
      ∨ (∃ op b n rest, bs = op :: b :: n :: rest ∧ op.toNat ∈ [0x12, 0x13] ∧ (n.toNat = 0 ∨ 56 < n.toNat))
      ∨ (∃ i k, i.WellFormed ∧ 0 < k ∧ k < (encode i).length ∧ bs = (encode i).take k)) →
    step s = .next { s with err := true, errcode := 1#2, errpc := s.pc }

/-- R105: decoding the encoding of any well-formed command gives it back, with the bytes after it. -/
def Obligations.DecodeOfEncode : Prop :=
  ∀ (i : Instr) (rest : List Byte), i.WellFormed → decode (encode i ++ rest) = .ok (i, rest)

/-- R105: bytes that decode are the encoding of a well-formed command. -/
def Obligations.EncodeOfDecode : Prop :=
  ∀ (bs : List Byte) (i : Instr) (rest : List Byte), decode bs = .ok (i, rest) → i.WellFormed ∧ bs = encode i ++ rest

/-- Words written out from R91 and R92 decode to the commands they stand for (spec/95_test_vectors.md V1). -/
def Obligations.SpecWordsDecode : Prop :=
  decode [0x01#8, 0xD0#8] = .ok (.start 0xD0#8, []) ∧ decode [0x03#8, 0x01#8] = .ok (.wbit true, [])
    ∧ decode [0x12#8, 0x00#8, 0x08#8] = .ok (.brd 0#6 8, [])
    ∧ decode [0x13#8, 0x08#8, 0x03#8, 0x11#8, 0x22#8, 0x33#8] = .ok (.bwr 8#6 [0x11#8, 0x22#8, 0x33#8], [])
    ∧ decode [0x20#8, 0x2D#8] = .ok (.bcdenc 45#8, [])
    ∧ decode [0x32#8, 0x07#8, 0x03#8, 0x07#8, 0xE8#8] = .ok (.wrdate 7#8 3#8 2024#16, [])
    ∧ decode [0x37#8, 0x03#8] = .ok (.setrate 3#2, [])

/-- R25: a command that ends advances `PC` by its length; one that faults, or that a wait holds up (notes/assumptions/1), keeps it. -/
def Obligations.PcAdvancesByLength : Prop :=
  ∀ (i : Instr) (s t : State), i.WellFormed → s.err = false → s.busy = none → exec i s = .next t →
    (t.err = false ∧ t.busy = none ∧ t.pc = s.pc + BitVec.ofNat 16 i.byteLength)
      ∨ (t.err = true ∧ t.busy = none ∧ t.pc = s.pc) ∨ (t.err = false ∧ t.busy ≠ none ∧ t.pc = s.pc)

/-! ### Faults, reset, the end of a run -/

/-- R233: a command that faults has changed nothing but the fault registers. The sequencer then stops fetching (R233, R238): that
a step then answers the same state is the model's choice (DESIGN CHOICE, notes/assumptions/8). -/
def Obligations.FaultsArePrecise : Prop :=
  ∀ (i : Instr) (s t : State), s.err = false → exec i s = .next t → t.err = true →
    (∃ c : BitVec 2, (c = 1#2 ∨ c = 2#2 ∨ c = 3#2) ∧ t = { s with err := true, errcode := c, errpc := s.pc })
      ∧ (t.Ready → step t = .next t)

/-- R231: a command whose phase precondition fails raises PROTOCOL before it changes anything, and nothing else raises it. -/
def Obligations.PhaseViolationsFault : Prop :=
  ∀ (i : Instr) (s : State), i.WellFormed →
    (∀ p, phaseNeeded i = some p → s.phase ≠ p →
        exec i s = .next { s with err := true, errcode := 2#2, errpc := s.pc })
      ∧ (∀ t, s.err = false → exec i s = .next t → t.err = true → t.errcode = 2#2 →
        ∃ p, phaseNeeded i = some p ∧ s.phase ≠ p)

/-- R238: a fault is left by reset alone. -/
def Obligations.OnlyResetLeavesAFault : Prop :=
  ∀ (s t : State), s.err = true → step s = .next t →
    (s.resetReq = false → t = s) ∧ (s.resetReq = true → t.err = false ∧ t.pc = 0#16)

/-- R95: at `PC = L` there is nothing to fetch. The model's step then stands still (DESIGN CHOICE, notes/assumptions/8). -/
def Obligations.DoneStandsStill : Prop :=
  ∀ (s : State), s.AtBoundary → s.pc.toNat = s.stream.length →
    ∀ n, Host.Core.run core n s = .next s

/-- R45, R260: the reset gives every register of the block the value of R45 that the spec states, in one action, whatever was in
progress. The model's choices: that the request and where it lands are fields of the state, cleared by the reset
(notes/assumptions/10), and that the pin trace goes on through a reset (notes/assumptions/2). `ERRCODE` and `ERRPC` are left out,
as R45 leaves them unspecified. -/
def Obligations.ResetEvent : Prop :=
  ∀ (s : State), s.handle.scl ≠ s.handle.sda → s.stream.length ≤ 65535 → s.resetReq = true →
    ∃ t, step s = .next t ∧ t.pins = ⟨true, .input, true⟩ ∧ t.pc = 0#16 ∧ t.res = 0#16
      ∧ t.buf = List.replicate 56 0#8 ∧ t.bufn = 0#6 ∧ t.snap = ⟨0#8, 0#8, 0#8, 1#8, 1#8, 2010#16, 5#8⟩
      ∧ t.phase = .idle ∧ t.err = false ∧ t.busy = none ∧ t.resetReq = false ∧ t.resetAfter = 0
      ∧ t.handle = s.handle ∧ t.stream = s.stream
      ∧ (s.resetAfter = 0 → t.trace.pins = if s.trace.pins.head? = some ⟨true, .input, true⟩ then s.trace.pins
          else ⟨true, .input, true⟩ :: s.trace.pins)

/-- R260 "at any moment": where a reset lands inside a command. After the first of WRTIME's three register writes (92
micro-operations), on the bench: the hour stands in the device, the minutes and seconds are as before (R280). After the first or the
second micro-operation of a START, both lines still high: the device has seen nothing (R261). After the third, the start condition
just formed: the lines show it and rise, and the device is lost. After k bits of an RBYTE: k samples have been taken, no result is
written, and the device is lost. In a wait: after n more samples of 1. That the moment is an input (`resetAfter`), and that the
device is lost from the start condition on, are the model's choices (notes/assumptions/10). -/
def Obligations.ResetInsideACommand : Prop :=
  ∀ (s : State), s.handle.scl ≠ s.handle.sda → s.stream.length ≤ 65535 → s.err = false → s.resetReq = true →
    (∀ (h m x : Byte) (rest : List Byte), h.toNat < 24 → m.toNat < 60 → x.toNat < 60 → s.OnBench → s.busy = none →
        decode (s.stream.drop s.pc.toNat) = .ok (.wrtime h m x, rest) → s.resetAfter = 92 →
        ∃ t, step s = .next t
          ∧ (∀ a, t.dev a = if a = 2 then BitVec.ofNat 8 (16 * (h.toNat / 10) + h.toNat % 10) else s.dev a)
          ∧ t.device.ptr = 3#6 ∧ t.device.mode = .idle ∧ t.pins = ⟨true, .input, true⟩ ∧ t.pc = 0#16 ∧ t.phase = .idle
          ∧ t.err = false ∧ t.busy = none ∧ t.resetReq = false)
      ∧ (∀ (a : Byte) (rest : List Byte) (n : Nat), 1 ≤ n → n ≤ 3 → s.busy = none → s.phase = .idle →
          s.pins = ⟨true, .input, true⟩ → s.trace.pins.head? = some s.pins →
          decode (s.stream.drop s.pc.toNat) = .ok (.start a, rest) → s.resetAfter = n →
          ∃ t, step s = .next t
            ∧ t.trace.pins = [⟨true, .input, true⟩] ++ (if n = 3 then [⟨true, .output, false⟩] else [])
                ++ [⟨true, .output, true⟩] ++ s.trace.pins
            ∧ (n < 3 → t.device = s.device ∧ t.drawn = s.drawn) ∧ (n = 3 → t.device.mode = .free) ∧ t.answers = s.answers
            ∧ t.pins = ⟨true, .input, true⟩ ∧ t.pc = 0#16 ∧ t.phase = .idle ∧ t.err = false ∧ t.busy = none
            ∧ t.resetReq = false)
      ∧ (∀ (bits rest : List Bit) (more : List Byte), bits.length ≤ 8 → s.busy = none → s.phase = .active →
          s.attached = false → s.answers = bits ++ rest → decode (s.stream.drop s.pc.toNat) = .ok (.rbyte, more) →
          s.resetAfter = 4 * bits.length →
          ∃ t, step s = .next t ∧ t.answers = rest ∧ (bits.length < 8 → t.drawn = s.drawn + 1) ∧ t.device.mode = .free
            ∧ t.res = 0#16 ∧ t.trace.results = s.trace.results ∧ t.pins = ⟨true, .input, true⟩ ∧ t.phase = .idle
            ∧ t.resetReq = false)
      ∧ (∀ (n : Nat) (j : Job) (rest : List Bit), s.busy = some j → s.attached = false → s.pins.dir = .input →
          s.answers = List.replicate n true ++ rest → s.resetAfter = n →
          ∃ t, step s = .next t ∧ t.answers = rest ∧ t.drawn = (if s.phase = .active then s.drawn + 1 else s.drawn)
            ∧ t.busy = none ∧ t.trace.results = s.trace.results ∧ t.pins = ⟨true, .input, true⟩ ∧ t.pc = 0#16 ∧ t.phase = .idle
            ∧ t.resetReq = false)

/-- R261: a reset between transfers leaves the device alone; in the middle of one the reference device, whoever answers, is lost
until it sees a `start`. The free values of a lost device are the model's form of R81 (notes/assumptions/6; the device under an
oracle: notes/assumptions/20). -/
def Obligations.ResetAndTheDevice : Prop :=
  ∀ (s : State), s.handle.scl ≠ s.handle.sda → s.stream.length ≤ 65535 → s.resetReq = true → s.resetAfter = 0 →
    ∃ t, step s = .next t ∧ t.attached = s.attached ∧ t.answers = s.answers
      ∧ (s.phase = .idle → t.device = s.device ∧ t.drawn = s.drawn)
      ∧ (s.phase = .active → t.device.mode = .free
          ∧ ∀ a, ∃ u, exec (.start a) t = .next u ∧ u.device.mode ≠ .free)

/-- The reset state meets the invariants, its lines show an idle bus, and a run from it with nothing placed is DONE at once: the
empty stream, the handle and the standing still are the model's (notes/assumptions/8, 9). -/
def Obligations.ResetMeetsTheInvariants : Prop :=
  State.reset.Inv ∧ State.reset.StableOver State.reset.trace.pins ∧ State.reset.AtBoundary
    ∧ step State.reset = .next State.reset

/-! ### Invariants -/

/-- The invariant of R133 with the bounds of R20, R25, R29, R233 and the canonical form of the device's registers is kept by
every step from every state that meets it. R133 is the spec's own derivation ("Command-boundary invariant [derived"). -/
def Obligations.EveryStepKeepsTheInvariant : Prop :=
  ∀ (s t : State), s.Inv → step s = .next t → t.Inv

/-- R134, the spec's own derivation ("Data-stability invariant [derived"): no step but a reset shows on the lines a data-line
change with the clock high other than a start or a stop condition. `recent` is the pin trace since some moment, `old` what was
before it: a reset, whose own pin change may be another one, begins a new stretch on an idle bus (the trace goes on through it:
notes/assumptions/2). -/
def Obligations.DataLineStableWhileClockHigh : Prop :=
  ∀ (s t : State) (recent old : List Pins), s.Inv → s.trace.pins = recent ++ old → s.StableOver recent → step s = .next t →
    (s.resetReq = false → ∃ later, t.trace.pins = later ++ old ∧ t.StableOver later)
      ∧ (s.resetReq = true → ∃ before, t.trace.pins = [⟨true, .input, true⟩] ++ before
          ∧ t.StableOver [⟨true, .input, true⟩])

/-- R72, R24: no step writes the stream or the line identifiers. The model's choices: that they are fields of the state
(notes/assumptions/9), and that the choice of environment is one, which no step writes either (notes/assumptions/5). -/
def Obligations.RunParametersAreFixed : Prop :=
  ∀ (s t : State), step s = .next t → t.stream = s.stream ∧ t.handle = s.handle ∧ t.attached = s.attached

/-- R28 to R30: which commands write `RES`, `BUF` with `BUFN`, and `SNAP`. A command that a wait holds up (notes/assumptions/1) is
held up with the result register of that command and its length, and each later step of it writes no other register and keeps
both. -/
def Obligations.OnlyTheirCommandsWriteResults : Prop :=
  (∀ (i : Instr) (s t : State), exec i s = .next t →
      (t.res ≠ s.res → i = .rbit ∨ i = .rbyte ∨ (∃ off, i = .rdreg off) ∨ (∃ a, i = .rdscr a) ∨ (∃ a, i = .bcdenc a)
          ∨ (∃ a, i = .bcddec a) ∨ (∃ a, i = .bcdyear a) ∨ (∃ a, i = .bcdhour a))
        ∧ (t.buf ≠ s.buf ∨ t.bufn ≠ s.bufn → (∃ off n, i = .brd off n) ∨ i = .rdscrall)
        ∧ (t.snap ≠ s.snap → i = .rdsnap)
        ∧ (s.busy = none → ∀ j, t.busy = some j → j.fin = resultOf i ∧ j.len = i.byteLength))
    ∧ (∀ (s t : State) (j : Job), s.Ready → s.err = false → s.busy = some j → step s = .next t →
      (t.res ≠ s.res → j.fin = .toRes) ∧ (t.buf ≠ s.buf ∨ t.bufn ≠ s.bufn → j.fin = .toBuf)
        ∧ (t.snap ≠ s.snap → j.fin = .toSnap) ∧ (∀ k, t.busy = some k → k.fin = j.fin ∧ k.len = j.len))

/-- R155, the spec's own derivation ("Common properties of the four patterns [derived"), for every command that needs an idle bus
but START: on an idle bus it completes with the bus idle and `PC` advanced, or a wait holds it up (notes/assumptions/1) with no
result written and `PC` kept, and so it stands after every later sample of that wait (`goOn`); it never faults. -/
def Obligations.BusCommandsCompleteOrHang : Prop :=
  ∀ (i : Instr) (s u t : State) (n : Nat), i.WellFormed → phaseNeeded i = some .idle → (∀ a, i ≠ .start a) →
    s.phase = .idle → exec i s = .next u → goOn n u = t →
    (CompletedIdle i.byteLength s t
      ∨ (SameResults s t ∧ SameFault s t ∧ SameRun s t ∧ t.pc = s.pc ∧ t.phase = .active ∧ t.pins.scl = true
          ∧ t.pins.dir = .input ∧ ∃ j, t.busy = some j ∧ j.len = i.byteLength ∧ j.fin = resultOf i
          ∧ t.trace.results = s.trace.results))

/-! ### The codec -/

/-- R180: BCDENC writes the BCD byte of 0..99 and raises OPERAND beyond; nothing else changes. -/
def Obligations.BcdencResult : Prop :=
  ∀ (a : Byte) (s : State),
    exec (.bcdenc a) s = .next (if a.toNat ≤ 99 then
        { s with
          res := BitVec.ofNat 16 (16 * (a.toNat / 10) + a.toNat % 10)
          pc := s.pc + 2#16
          trace := { s.trace with
            results := .res (BitVec.ofNat 16 (16 * (a.toNat / 10) + a.toNat % 10)) :: s.trace.results } }
      else { s with err := true, errcode := 3#2, errpc := s.pc })
    ∧ encode (.bcdenc a) = [0x20#8, a]

/-- R181: BCDDEC, units plus ten times bits 6:4; nothing else changes. -/
def Obligations.BcddecResult : Prop :=
  ∀ (a : Byte) (s : State),
    exec (.bcddec a) s = .next
        { s with
          res := BitVec.ofNat 16 (a.toNat % 16 + 10 * (a.toNat / 16 % 8))
          pc := s.pc + 2#16
          trace := { s.trace with
            results := .res (BitVec.ofNat 16 (a.toNat % 16 + 10 * (a.toNat / 16 % 8))) :: s.trace.results } }
    ∧ encode (.bcddec a) = [0x21#8, a]

/-- R182: BCDYEAR, 2000 plus units plus ten times bits 7:4; nothing else changes. -/
def Obligations.BcdyearResult : Prop :=
  ∀ (a : Byte) (s : State),
    exec (.bcdyear a) s = .next
        { s with
          res := BitVec.ofNat 16 (2000 + (a.toNat % 16 + 10 * (a.toNat / 16)))
          pc := s.pc + 2#16
          trace := { s.trace with
            results := .res (BitVec.ofNat 16 (2000 + (a.toNat % 16 + 10 * (a.toNat / 16)))) :: s.trace.results } }
    ∧ encode (.bcdyear a) = [0x22#8, a]

/-- R183: BCDHOUR, with bit 7 set units plus 12 times bit 5, with bit 7 clear units plus ten times bits 5:4; nothing else
changes. -/
def Obligations.BcdhourResult : Prop :=
  ∀ (a : Byte) (s : State) (h : Nat),
    h = (if 128 ≤ a.toNat then a.toNat % 16 + 12 * (a.toNat / 32 % 2) else a.toNat % 16 + 10 * (a.toNat / 16 % 4)) →
    exec (.bcdhour a) s = .next
        { s with
          res := BitVec.ofNat 16 h
          pc := s.pc + 2#16
          trace := { s.trace with results := .res (BitVec.ofNat 16 h) :: s.trace.results } }
    ∧ encode (.bcdhour a) = [0x23#8, a]

/-- R177, the spec's own derivation ("Round trips [derived"), as commands: (a) to (c) BCDENC, then a decode of the byte it left in
`RES`; (d) BCDYEAR, then BCDENC of the two-digit year, gives the byte back exactly when both its nibbles are at most 9, and
otherwise another value or OPERAND; (e) BCDDEC cannot see bit 7. -/
def Obligations.CodecRoundTrips : Prop :=
  (∀ (v : Byte) (s : State), v.toNat ≤ 99 →
    ∃ t, exec (.bcdenc v) s = .next t ∧
      (∃ u, exec (.bcdyear (t.res.setWidth 8)) t = .next u ∧ u.res.toNat = 2000 + v.toNat)
      ∧ (∃ u, exec (.bcddec (t.res.setWidth 8)) t = .next u
          ∧ u.res.toNat = if v.toNat ≤ 79 then v.toNat else v.toNat - 80)
      ∧ (v.toNat ≤ 23 → ∃ u, exec (.bcdhour (t.res.setWidth 8)) t = .next u ∧ u.res.toNat = v.toNat))
    ∧ (∀ (b : Byte) (s : State),
      (∃ t u, exec (.bcdyear b) s = .next t ∧ exec (.bcdenc (BitVec.ofNat 8 (t.res.toNat - 2000))) t = .next u
          ∧ (u.res = Byte.zext16 b ↔ b.toNat % 16 ≤ 9 ∧ b.toNat / 16 ≤ 9))
        ∧ exec (.bcddec (b ||| 0x80#8)) s = exec (.bcddec b) s ∧ exec (.bcddec (b &&& 0x7F#8)) s = exec (.bcddec b) s)

/-! ### Skips -/

/-- R200: a command whose operands fail its check has no effect but the advance of `PC`, in either phase; RDSCR writes 0. -/
def Obligations.InvalidOperandsSkip : Prop :=
  ∀ (s : State),
    (∀ h m x : Byte, 24 ≤ h.toNat ∨ 60 ≤ m.toNat ∨ 60 ≤ x.toNat →
        exec (.wrtime h m x) s = .next { s with pc := s.pc + 4#16 })
      ∧ (∀ (d m : Byte) (y : Half), d.toNat < 1 ∨ 31 < d.toNat ∨ m.toNat < 1 ∨ 12 < m.toNat ∨ y.toNat < 2000
          ∨ 3000 ≤ y.toNat → exec (.wrdate d m y) s = .next { s with pc := s.pc + 5#16 })
      ∧ (∀ a : Byte, a.toNat < 1 ∨ 7 < a.toNat → exec (.wrdow a) s = .next { s with pc := s.pc + 2#16 })
      ∧ (∀ a v : Byte, 55 < a.toNat → exec (.wrscr a v) s = .next { s with pc := s.pc + 3#16 })
      ∧ (∀ a : Byte, 55 < a.toNat → exec (.rdscr a) s = .next
          { s with
            pc := s.pc + 2#16
            res := 0#16
            trace := { s.trace with results := .res 0#16 :: s.trace.results } })

/-! ### Line primitives -/

/-- R136: START on an idle bus. The reference device meets it whoever answers the samples (notes/assumptions/20). -/
def Obligations.StartOpensATransfer : Prop :=
  ∀ (a : Byte) (s : State), s.phase = .idle →
    ∃ t, exec (.start a) s = .next t ∧ t.pins = ⟨false, .output, a.getLsbD 0⟩ ∧ t.phase = .active ∧ t.busy = none
      ∧ t.pc = s.pc + 2#16 ∧ SameResults s t ∧ SameFault s t ∧ SameRun s t
      ∧ t.answers = s.answers ∧ t.drawn = s.drawn
      ∧ t.device =
          { s.device with
            mode := if a = 0xD0#8 then .offset else if a = 0xD1#8 then .read else .deaf
            dack := decide (a = 0xD0#8 ∨ a = 0xD1#8) }
      ∧ t.trace.calls = called (.start a) :: s.trace.calls ∧ t.trace.regs = s.trace.regs
      ∧ t.trace.results = s.trace.results

/-- R137: STOP in an open transfer. The reference device meets it whoever answers the samples (notes/assumptions/20). -/
def Obligations.StopClosesATransfer : Prop :=
  ∀ (s : State), s.phase = .active →
    ∃ t, exec .stop s = .next t ∧ CompletedIdle 1 s t ∧ SameResults s t
      ∧ t.answers = s.answers ∧ t.drawn = s.drawn
      ∧ t.device = { s.device with mode := .idle, dack := false }
      ∧ t.trace.calls = called .stop :: s.trace.calls ∧ t.trace.regs = s.trace.regs
      ∧ t.trace.results = s.trace.results

/-- R138, R140, R142, R143: WBIT, WBYTE, SACK and SNACK in an open transfer; each is one event for the reference device, whoever
answers the samples (notes/assumptions/20). -/
def Obligations.PinCommandsInATransfer : Prop :=
  ∀ (s : State), s.phase = .active →
    (∀ f, RunsPrimitive (.wbit f) (.writeBit f) ⟨false, .output, f⟩ s)
      ∧ (∀ a, RunsPrimitive (.wbyte a) (.writeByte a) ⟨false, .output, a.getLsbD 0⟩ s)
      ∧ RunsPrimitive .sack .sendAck ⟨false, .input, false⟩ s
      ∧ RunsPrimitive .snack .sendNack ⟨false, .input, true⟩ s

/-- R139: RBIT takes one sample, whatever it is; where the environment's answer stands in the state, it is that. -/
def Obligations.RbitReadsOneSample : Prop :=
  ∀ (s : State), s.phase = .active →
    ∃ t b, exec .rbit s = .next t ∧ t.res = (if b then 1#16 else 0#16) ∧ t.pins = ⟨false, .input, s.pins.sda⟩
      ∧ t.phase = .active ∧ t.busy = none ∧ t.pc = s.pc + 1#16 ∧ t.buf = s.buf ∧ t.bufn = s.bufn ∧ t.snap = s.snap
      ∧ SameFault s t ∧ SameRun s t ∧ t.device = (deviceEvent .readBit s).device
      ∧ t.trace.calls = ⟨.readBit, some (if b then 1#8 else 0#8)⟩ :: s.trace.calls
      ∧ t.trace.regs = s.trace.regs ∧ t.trace.results = .res t.res :: s.trace.results
      ∧ (∀ c rest, s.answers = c :: rest → b = c ∧ t.answers = rest)

/-- R141: RBYTE takes eight samples, the first into bit 7. With the oracle as the environment the byte is its next eight
answers; from the reference device in `D_READ` it is `DEV[PTR]`. In `D_READ` the access `rd(PTR)` with that byte stands in the
register trace and the pointer moves on, whoever answered (R79, R13 (c); the model's two halves of `D_READ`: notes/assumptions/13;
the device under an oracle: notes/assumptions/20). -/
def Obligations.RbyteReadsEightSamples : Prop :=
  ∀ (s : State), s.phase = .active →
    ∃ t v, exec .rbyte s = .next t ∧ t.res = Byte.zext16 v ∧ t.pins = ⟨false, .input, s.pins.sda⟩
      ∧ t.phase = .active ∧ t.busy = none ∧ t.pc = s.pc + 1#16 ∧ t.buf = s.buf ∧ t.bufn = s.bufn ∧ t.snap = s.snap
      ∧ SameFault s t ∧ SameRun s t ∧ t.device = (deviceEvent .readByte s).device
      ∧ t.trace.calls = ⟨.readByte, some v⟩ :: s.trace.calls ∧ t.trace.results = .res t.res :: s.trace.results
      ∧ (∀ (w : Byte) (rest : List Bit), s.attached = false →
          s.answers = [w.getLsbD 7, w.getLsbD 6, w.getLsbD 5, w.getLsbD 4, w.getLsbD 3, w.getLsbD 2, w.getLsbD 1,
            w.getLsbD 0] ++ rest → v = w ∧ t.answers = rest)
      ∧ (s.device.mode ≠ .read → s.device.mode ≠ .readOn → t.device.mode = .free ∧ t.trace.regs = s.trace.regs)
      ∧ (s.device.mode = .read ∨ s.device.mode = .readOn →
          t.device = { s.device with ptr := s.device.ptr + 1#6, mode := .readOn }
          ∧ t.trace.regs = .rd s.device.ptr v :: s.trace.regs
          ∧ (s.attached = true → v = s.dev s.device.ptr.toNat ∧ t.answers = s.answers))

/-- R144: WACK ends with its first sample of 0: from an oracle that answers 0, or the reference device with `DACK = 1` where no
byte has been read out since its `start`. After a byte has been read out the reference device is lost, whoever answers, and its
answer is free (U5, R81): that `D_READ` is held as two for this is the model's reading (notes/assumptions/13; the
device under an oracle: notes/assumptions/20). -/
def Obligations.WackEndsOnAZero : Prop :=
  ∀ (s : State), s.phase = .active →
    ((s.attached = false ∧ s.answers.head? = some false)
        ∨ (s.attached = true ∧ s.device.mode ≠ .free ∧ s.device.mode ≠ .readOn ∧ s.device.dack = true) →
      ∃ t, exec .wack s = .next t ∧ t.pins = ⟨false, .input, s.pins.sda⟩ ∧ t.phase = .active ∧ t.busy = none
        ∧ t.pc = s.pc + 1#16 ∧ SameResults s t ∧ SameFault s t ∧ SameRun s t
        ∧ (s.device.mode ≠ .free → s.device.mode ≠ .readOn → t.device = s.device ∧ t.drawn = s.drawn)
        ∧ (s.device.mode = .free ∨ s.device.mode = .readOn → t.device.mode = .free)
        ∧ t.answers = (if s.attached then s.answers else s.answers.tail)
        ∧ t.trace.calls = called .waitForAck :: s.trace.calls ∧ t.trace.regs = s.trace.regs
        ∧ t.trace.results = s.trace.results)
    ∧ (∀ (b : Bit) (rest : List Bit), s.device.mode = .readOn → s.answers = b :: rest →
      ∃ t, exec .wack s = .next t ∧ t.device.mode = .free ∧ t.answers = rest ∧ t.phase = .active
        ∧ t.pins = ⟨b, .input, s.pins.sda⟩ ∧ SameResults s t ∧ SameFault s t ∧ SameRun s t
        ∧ (if b then t.pc = s.pc ∧ ∃ j, t.busy = some j else t.pc = s.pc + 1#16 ∧ t.busy = none))

/-- R132: a sample of 1 holds WACK up with the clock high and the line released, and `PC`, the results, the fault registers and, unless
it is lost (U5, R81; under an oracle: notes/assumptions/20), the device kept; that a step ends there is the model's choice (notes/assumptions/1). -/
def Obligations.WackHoldsOnAOne : Prop :=
  ∀ (s : State), s.phase = .active →
    (s.attached = false ∧ s.answers.head? = some true)
      ∨ (s.attached = true ∧ s.device.mode ≠ .free ∧ s.device.mode ≠ .readOn ∧ s.device.dack = false) →
    ∃ t j, exec .wack s = .next t ∧ t.busy = some j ∧ j.len = 1 ∧ t.pins = ⟨true, .input, s.pins.sda⟩
      ∧ t.phase = .active ∧ t.pc = s.pc ∧ SameResults s t ∧ SameFault s t ∧ SameRun s t
      ∧ (s.device.mode ≠ .free → s.device.mode ≠ .readOn → t.device = s.device ∧ t.drawn = s.drawn)
      ∧ (s.device.mode = .free ∨ s.device.mode = .readOn → t.device.mode = .free)
      ∧ t.answers = (if s.attached then s.answers else s.answers.tail)

/-- R132: with the answers 1, ..., 1, 0 (k ones) the wait takes k + 1 samples, one a step (the model's choice, notes/assumptions/1),
and then ends. -/
def Obligations.WaitTakesEverySample : Prop :=
  ∀ (k : Nat) (s : State) (more : List Byte) (rest : List Bit), s.AtBoundary → s.phase = .active → s.attached = false →
    decode (s.stream.drop s.pc.toNat) = .ok (.wack, more) → s.answers = List.replicate k true ++ false :: rest →
    ∃ t, Host.Core.run core (k + 1) s = .next t ∧ t.busy = none ∧ t.pc = s.pc + 1#16 ∧ t.answers = rest
      ∧ t.pins = ⟨false, .input, s.pins.sda⟩ ∧ SameResults s t ∧ SameFault s t

/-- R74, R235: a device that never acknowledges hangs the run for ever. The reference device with `DACK = 0`: no step changes
anything. An oracle that answers n ones: n steps change nothing but its answers. A step is one more sample
(notes/assumptions/1). -/
def Obligations.HangIsForever : Prop :=
  ∀ (s : State) (j : Job), s.Ready → s.err = false → s.busy = some j → s.pins.dir = .input →
    (s.attached = true → s.device.mode ≠ .free → s.device.mode ≠ .readOn → s.device.dack = false →
        ∀ n, Host.Core.run core n s = .next s)
      ∧ (s.attached = false → ∀ n rest, s.answers = List.replicate n true ++ rest →
          Host.Core.run core n s = .next { s with answers := rest })

/-- R277, with spec/95_test_vectors.md V3 "Absent device": every command that needs an idle bus, START apart, is held in its first
wait if the first sample is 1, after `start(0xD0)` and with no result written. That a step ends there is the model's choice
(notes/assumptions/1). -/
def Obligations.AbsentDeviceHangsInTheFirstWait : Prop :=
  ∀ (i : Instr) (s : State) (rest : List Bit), i.WellFormed → phaseNeeded i = some .idle → (∀ a, i ≠ .start a) →
    s.phase = .idle → s.attached = false → s.answers = true :: rest →
    ∃ t j, exec i s = .next t ∧ t.busy = some j ∧ t.pins = ⟨true, .input, false⟩ ∧ t.phase = .active ∧ t.pc = s.pc
      ∧ SameResults s t ∧ SameFault s t ∧ t.answers = rest
      ∧ t.trace.calls = [called .waitForAck, called (.start 0xD0#8)] ++ s.trace.calls

/-- R62: bytes travel most significant bit first, in both directions: what WBYTE and START put on the data line at the clock's
rising edges, and where RBYTE puts what it samples. -/
def Obligations.MostSignificantBitFirst : Prop :=
  (∀ (v : Byte) (s t : State), s.phase = .active → s.pins.scl = false → s.trace.pins.head? = some s.pins →
      exec (.wbyte v) s = .next t →
      bitsOnWire t.trace.pins = bitsOnWire s.trace.pins ++ [v.getLsbD 7, v.getLsbD 6, v.getLsbD 5, v.getLsbD 4,
        v.getLsbD 3, v.getLsbD 2, v.getLsbD 1, v.getLsbD 0])
    ∧ (∀ (a : Byte) (s t : State), s.phase = .idle → s.pins = ⟨true, .input, true⟩ → s.trace.pins.head? = some s.pins →
      exec (.start a) s = .next t →
      bitsOnWire t.trace.pins = bitsOnWire s.trace.pins ++ [a.getLsbD 7, a.getLsbD 6, a.getLsbD 5, a.getLsbD 4,
        a.getLsbD 3, a.getLsbD 2, a.getLsbD 1, a.getLsbD 0])
    ∧ (∀ (v : Byte) (s t : State) (rest : List Bit), s.phase = .active → s.attached = false →
      s.answers = [v.getLsbD 7, v.getLsbD 6, v.getLsbD 5, v.getLsbD 4, v.getLsbD 3, v.getLsbD 2, v.getLsbD 1,
        v.getLsbD 0] ++ rest → exec .rbyte s = .next t → t.res = Byte.zext16 v)

/-! ### The sequences of primitive calls, in any environment -/

/-- R150, R151: the ten calls of a register read and the seven of a register write, in any environment in which the command
completes, however late it acknowledges (`Completes`). -/
def Obligations.SingleRegisterCallSequences : Prop :=
  ∀ (off : BitVec 6) (s t : State), s.phase = .idle →
    (Completes (.rdreg off) s t → CompletedIdle 2 s t ∧ ∃ v : Byte, t.res = Byte.zext16 v ∧ t.buf = s.buf
        ∧ t.bufn = s.bufn ∧ t.snap = s.snap ∧ t.trace.results = .res t.res :: s.trace.results ∧ t.trace.calls =
        [called .stop, called .sendNack, ⟨.readByte, some v⟩, called .waitForAck, called (.start 0xD1#8), called .stop,
          called .waitForAck, called (.writeByte (off.setWidth 8)), called .waitForAck, called (.start 0xD0#8)]
          ++ s.trace.calls)
      ∧ (∀ v, Completes (.wrreg off v) s t → CompletedIdle 3 s t ∧ SameResults s t
        ∧ t.trace.results = s.trace.results ∧ t.trace.calls =
        [called .stop, called .waitForAck, called (.writeByte v), called .waitForAck,
          called (.writeByte (off.setWidth 8)), called .waitForAck, called (.start 0xD0#8)] ++ s.trace.calls)

/-- R152, R153: the calls of a burst read (every byte acknowledged but the last) and of a burst write, in any environment in which
the command completes, however late it acknowledges. -/
def Obligations.BurstCallSequences : Prop :=
  ∀ (off : BitVec 6) (s t : State), s.phase = .idle →
    (∀ n, 1 ≤ n → n ≤ 56 → Completes (.brd off n) s t → CompletedIdle 3 s t
        ∧ ∃ d : List Byte, d.length = n ∧ t.buf = d ++ s.buf.drop n ∧ t.bufn.toNat = n ∧ t.res = s.res
          ∧ t.snap = s.snap ∧ t.trace.results = .buf d :: s.trace.results
          ∧ t.trace.calls = (burstReadCalls (off.setWidth 8) d).reverse ++ s.trace.calls)
      ∧ (∀ d : List Byte, 1 ≤ d.length → d.length ≤ 56 → Completes (.bwr off d) s t → CompletedIdle (3 + d.length) s t
        ∧ SameResults s t ∧ t.trace.results = s.trace.results
        ∧ t.trace.calls = (burstWriteCalls (off.setWidth 8) d).reverse ++ s.trace.calls)

/-- R195: a read-modify-write reads the register and writes back the byte read with the bits of its mask replaced, in any
environment in which the command completes, however late it acknowledges, and writes no result register. -/
def Obligations.ReadModifyWriteCallSequences : Prop :=
  ∀ (s t : State) (i : Instr) (off : Byte) (w : Byte → Byte), s.phase = .idle → Completes i s t →
    ((∃ f : Bit, i = .sethalt f ∧ off = 0#8 ∧ w = fun v => (v &&& 0x7F#8) ||| (if f then 0x80#8 else 0#8))
      ∨ (∃ f : Bit, i = .setout f ∧ off = 7#8 ∧ w = fun v => (v &&& 0x7F#8) ||| (if f then 0x80#8 else 0#8))
      ∨ (∃ f : Bit, i = .setsqwe f ∧ off = 7#8 ∧ w = fun v => (v &&& 0xEF#8) ||| (if f then 0x10#8 else 0#8))
      ∨ (∃ r : BitVec 2, i = .setrate r ∧ off = 7#8 ∧ w = fun v => (v &&& 0xFC#8) ||| r.setWidth 8)) →
    ∃ v : Byte, CompletedIdle 2 s t ∧ SameResults s t ∧ t.trace.results = s.trace.results
      ∧ t.trace.calls = (burstReadCalls off [v] ++ burstWriteCalls off [w v]).reverse ++ s.trace.calls

/-- R192, R193, R194: WRTIME writes hours, minutes, seconds; WRDATE year, month, day; WRDOW its byte raw: each a register write,
in that order, in any environment in which the command completes, however late it acknowledges. The year byte of 2100..2999 is the
free `enc_ext` (R176, notes/assumptions/4). -/
def Obligations.ClockWriteCallSequences : Prop :=
  ∀ (s t : State), s.phase = .idle →
    (∀ h m x : Byte, h.toNat < 24 → m.toNat < 60 → x.toNat < 60 → Completes (.wrtime h m x) s t →
        CompletedIdle 4 s t ∧ SameResults s t ∧ t.trace.results = s.trace.results
        ∧ t.trace.calls = (burstWriteCalls 2#8 [BitVec.ofNat 8 (16 * (h.toNat / 10) + h.toNat % 10)]
          ++ burstWriteCalls 1#8 [BitVec.ofNat 8 (16 * (m.toNat / 10) + m.toNat % 10)]
          ++ burstWriteCalls 0#8 [BitVec.ofNat 8 (16 * (x.toNat / 10) + x.toNat % 10)]).reverse ++ s.trace.calls)
      ∧ (∀ (d m : Byte) (y : Half), 1 ≤ d.toNat → d.toNat ≤ 31 → 1 ≤ m.toNat → m.toNat ≤ 12 → 2000 ≤ y.toNat →
          y.toNat < 3000 → Completes (.wrdate d m y) s t →
        CompletedIdle 5 s t ∧ SameResults s t ∧ t.trace.results = s.trace.results
        ∧ t.trace.calls = (burstWriteCalls 6#8 [if y.toNat ≤ 2099 then
              BitVec.ofNat 8 (16 * ((y.toNat - 2000) / 10) + (y.toNat - 2000) % 10) else Config.encExt (y.toNat - 2000)]
          ++ burstWriteCalls 5#8 [BitVec.ofNat 8 (16 * (m.toNat / 10) + m.toNat % 10)]
          ++ burstWriteCalls 4#8 [BitVec.ofNat 8 (16 * (d.toNat / 10) + d.toNat % 10)]).reverse ++ s.trace.calls)
      ∧ (∀ a : Byte, 1 ≤ a.toNat → a.toNat ≤ 7 → Completes (.wrdow a) s t →
        CompletedIdle 2 s t ∧ SameResults s t ∧ t.trace.results = s.trace.results
        ∧ t.trace.calls = (burstWriteCalls 3#8 [a]).reverse ++ s.trace.calls)

/-! ### Commands against an oracle whose answers stand in the state (R73)

The register trace is that of the reference device on the primitive trace (R13 (c), R75); that it follows a run in which the oracle
answers, and that an `rd` then has the byte that the block read, is the model's choice (notes/assumptions/20). -/

/-- A burst read from any environment that ends its three waits at once: the buffer is what it answered (R152, R158), and the
register trace has the accesses. -/
def Obligations.BurstReadFromTheOracle : Prop :=
  ∀ (off : BitVec 6) (d : List Byte) (rest : List Bit) (s : State), 1 ≤ d.length → d.length ≤ 56 →
    s.phase = .idle → s.attached = false →
    s.answers = [false, false, false] ++ d.flatMap msbBits ++ rest →
    ∃ t, exec (.brd off d.length) s = .next t ∧ CompletedIdle 3 s t ∧ t.buf = d ++ s.buf.drop d.length
      ∧ t.bufn.toNat = d.length ∧ t.res = s.res ∧ t.snap = s.snap ∧ t.answers = rest ∧ t.drawn = s.drawn
      ∧ t.device = { s.device with ptr := off + BitVec.ofNat 6 d.length, mode := .idle, dack := false }
      ∧ t.trace.regs = ((List.range d.length).map fun i =>
          RegEvent.rd (off + BitVec.ofNat 6 i) (d.getD i 0#8)).reverse ++ s.trace.regs
      ∧ t.trace.results = .buf d :: s.trace.results

/-- A burst write to any environment that ends its 2 + n waits at once (R153, R159): the register trace has the accesses, and the
reference device's registers the bytes. -/
def Obligations.BurstWriteToTheOracle : Prop :=
  ∀ (off : BitVec 6) (d : List Byte) (rest : List Bit) (s : State), 1 ≤ d.length → d.length ≤ 56 →
    s.phase = .idle → s.attached = false → s.answers = List.replicate (2 + d.length) false ++ rest →
    ∃ t, exec (.bwr off d) s = .next t ∧ CompletedIdle (3 + d.length) s t ∧ SameResults s t ∧ t.answers = rest
      ∧ t.drawn = s.drawn
      ∧ (Memory.wf s.device.regs = true → ∀ i (h : i < d.length), t.dev (off + BitVec.ofNat 6 i).toNat = d[i])
      ∧ (∀ a, (∀ i < d.length, (off + BitVec.ofNat 6 i).toNat ≠ a) → t.dev a = s.dev a)
      ∧ t.device.ptr = off + BitVec.ofNat 6 d.length ∧ t.device.mode = .idle ∧ t.device.dack = false
      ∧ t.trace.regs = ((List.range d.length).map fun i =>
          RegEvent.wr (off + BitVec.ofNat 6 i) (d.getD i 0#8)).reverse ++ s.trace.regs
      ∧ t.trace.results = s.trace.results

/-- R201: WRTIME held up in the first wait of its second transfer has made its first: `wr(2)` stands in the register trace and no
other access, the other device registers keep their values, and no result is written (spec/95 V5 "Partial completion"). -/
def Obligations.WrtimePartialCompletion : Prop :=
  ∀ (h m x : Byte) (rest : List Bit) (s : State), h.toNat < 24 → m.toNat < 60 → x.toNat < 60 → s.phase = .idle →
    s.attached = false → s.answers = [false, false, false, true] ++ rest →
    ∃ t j, exec (.wrtime h m x) s = .next t ∧ t.busy = some j ∧ t.pins = ⟨true, .input, false⟩ ∧ t.phase = .active
      ∧ t.pc = s.pc ∧ SameResults s t ∧ SameFault s t ∧ t.answers = rest
      ∧ t.trace.regs = .wr 2#6 (BitVec.ofNat 8 (16 * (h.toNat / 10) + h.toNat % 10)) :: s.trace.regs
      ∧ (Memory.wf s.device.regs = true → t.dev 2 = BitVec.ofNat 8 (16 * (h.toNat / 10) + h.toNat % 10))
      ∧ (∀ a, a ≠ 2 → t.dev a = s.dev a)
      ∧ t.trace.calls = ((burstWriteCalls 2#8 [BitVec.ofNat 8 (16 * (h.toNat / 10) + h.toNat % 10)])
          ++ [called (.start 0xD0#8), called .waitForAck]).reverse ++ s.trace.calls

/-! ### Commands against the reference device (R83, the spec's own derivation from R75 to R79 and R150 to R153) -/

/-- R156 on the bench: RDREG. -/
def Obligations.RdregOnTheBench : Prop :=
  ∀ (off : BitVec 6) (s : State), s.OnBench →
    ∃ t, exec (.rdreg off) s = .next t ∧ t.res = Byte.zext16 (s.dev off.toNat) ∧ t.buf = s.buf ∧ t.bufn = s.bufn
      ∧ t.snap = s.snap ∧ CompletedIdle 2 s t
      ∧ t.device = { s.device with ptr := off + 1#6, mode := .idle, dack := false }
      ∧ t.answers = s.answers ∧ t.drawn = s.drawn ∧ t.trace.regs = .rd off (s.dev off.toNat) :: s.trace.regs
      ∧ t.trace.results = .res t.res :: s.trace.results

/-- R157 on the bench: WRREG. -/
def Obligations.WrregOnTheBench : Prop :=
  ∀ (off : BitVec 6) (v : Byte) (s : State), s.OnBench →
    ∃ t, exec (.wrreg off v) s = .next t ∧ CompletedIdle 3 s t ∧ SameResults s t ∧ EnvironmentKept s t
      ∧ (∀ a, t.dev a = if a = off.toNat then v else s.dev a) ∧ t.device.ptr = off + 1#6
      ∧ t.trace.regs = .wr off v :: s.trace.regs ∧ t.trace.results = s.trace.results

/-- R158 on the bench: BRD, the offsets taken modulo 64. -/
def Obligations.BrdOnTheBench : Prop :=
  ∀ (off : BitVec 6) (n : Nat) (d : List Byte) (s : State), 1 ≤ n → n ≤ 56 → s.OnBench →
    d = ((List.range n).map fun i => s.dev (off + BitVec.ofNat 6 i).toNat) →
    ∃ t, exec (.brd off n) s = .next t ∧ t.buf = d ++ s.buf.drop n ∧ t.bufn.toNat = n ∧ t.res = s.res
      ∧ t.snap = s.snap ∧ CompletedIdle 3 s t
      ∧ t.device = { s.device with ptr := off + BitVec.ofNat 6 n, mode := .idle, dack := false }
      ∧ t.answers = s.answers ∧ t.drawn = s.drawn
      ∧ t.trace.regs = ((List.range n).map fun i =>
          RegEvent.rd (off + BitVec.ofNat 6 i) (s.dev (off + BitVec.ofNat 6 i).toNat)).reverse ++ s.trace.regs
      ∧ t.trace.results = .buf d :: s.trace.results

/-- R159 on the bench: BWR, the offsets taken modulo 64. -/
def Obligations.BwrOnTheBench : Prop :=
  ∀ (off : BitVec 6) (d : List Byte) (s : State), 1 ≤ d.length → d.length ≤ 56 → s.OnBench →
    ∃ t, exec (.bwr off d) s = .next t ∧ CompletedIdle (3 + d.length) s t ∧ SameResults s t ∧ EnvironmentKept s t
      ∧ (∀ i (h : i < d.length), t.dev (off + BitVec.ofNat 6 i).toNat = d[i])
      ∧ (∀ a, (∀ i < d.length, (off + BitVec.ofNat 6 i).toNat ≠ a) → t.dev a = s.dev a)
      ∧ t.device.ptr = off + BitVec.ofNat 6 d.length
      ∧ t.trace.regs = ((List.range d.length).map fun i =>
          RegEvent.wr (off + BitVec.ofNat 6 i) (d.getD i 0#8)).reverse ++ s.trace.regs
      ∧ t.trace.results = s.trace.results

/-- R191 on the bench: RDSNAP decodes registers 0..6. -/
def Obligations.RdsnapOnTheBench : Prop :=
  ∀ (s : State), s.OnBench →
    ∃ t, exec .rdsnap s = .next t
      ∧ t.snap.second.toNat = (s.dev 0).toNat % 16 + 10 * ((s.dev 0).toNat / 16 % 8)
      ∧ t.snap.minute.toNat = (s.dev 1).toNat % 16 + 10 * ((s.dev 1).toNat / 16 % 8)
      ∧ t.snap.hour.toNat = (if 128 ≤ (s.dev 2).toNat then (s.dev 2).toNat % 16 + 12 * ((s.dev 2).toNat / 32 % 2)
          else (s.dev 2).toNat % 16 + 10 * ((s.dev 2).toNat / 16 % 4))
      ∧ t.snap.dow = s.dev 3
      ∧ t.snap.date.toNat = (s.dev 4).toNat % 16 + 10 * ((s.dev 4).toNat / 16 % 8)
      ∧ t.snap.month.toNat = (s.dev 5).toNat % 16 + 10 * ((s.dev 5).toNat / 16 % 8)
      ∧ t.snap.year.toNat = 2000 + ((s.dev 6).toNat % 16 + 10 * ((s.dev 6).toNat / 16))
      ∧ t.res = s.res ∧ t.buf = s.buf ∧ t.bufn = s.bufn ∧ CompletedIdle 1 s t
      ∧ t.device = { s.device with ptr := 8#6, mode := .idle, dack := false }
      ∧ t.answers = s.answers ∧ t.drawn = s.drawn ∧ t.trace.results = .snap t.snap :: s.trace.results

/-- R192 on the bench: WRTIME; the halt flag and the 12-hour bit come out 0 (R279). -/
def Obligations.WrtimeOnTheBench : Prop :=
  ∀ (h m x : Byte) (s : State), h.toNat < 24 → m.toNat < 60 → x.toNat < 60 → s.OnBench →
    ∃ t, exec (.wrtime h m x) s = .next t ∧ CompletedIdle 4 s t ∧ SameResults s t ∧ EnvironmentKept s t
      ∧ (t.dev 2).toNat = 16 * (h.toNat / 10) + h.toNat % 10 ∧ (t.dev 1).toNat = 16 * (m.toNat / 10) + m.toNat % 10
      ∧ (t.dev 0).toNat = 16 * (x.toNat / 10) + x.toNat % 10
      ∧ (t.dev 0).getLsbD 7 = false ∧ (t.dev 2).getLsbD 7 = false
      ∧ (∀ a, a ≠ 0 → a ≠ 1 → a ≠ 2 → t.dev a = s.dev a) ∧ t.device.ptr = 1#6
      ∧ t.trace.regs = [.wr 0#6 (t.dev 0), .wr 1#6 (t.dev 1), .wr 2#6 (t.dev 2)] ++ s.trace.regs
      ∧ t.trace.results = s.trace.results

/-- R193 on the bench: WRDATE; the year byte of 2100..2999 is the free `enc_ext` (R176, notes/assumptions/4). -/
def Obligations.WrdateOnTheBench : Prop :=
  ∀ (d m : Byte) (y : Half) (s : State), 1 ≤ d.toNat → d.toNat ≤ 31 → 1 ≤ m.toNat → m.toNat ≤ 12 →
    2000 ≤ y.toNat → y.toNat < 3000 → s.OnBench →
    ∃ t, exec (.wrdate d m y) s = .next t ∧ CompletedIdle 5 s t ∧ SameResults s t ∧ EnvironmentKept s t
      ∧ (y.toNat ≤ 2099 → (t.dev 6).toNat = 16 * ((y.toNat - 2000) / 10) + (y.toNat - 2000) % 10)
      ∧ (2100 ≤ y.toNat → t.dev 6 = Config.encExt (y.toNat - 2000))
      ∧ (t.dev 5).toNat = 16 * (m.toNat / 10) + m.toNat % 10 ∧ (t.dev 4).toNat = 16 * (d.toNat / 10) + d.toNat % 10
      ∧ (∀ a, a ≠ 4 → a ≠ 5 → a ≠ 6 → t.dev a = s.dev a) ∧ t.device.ptr = 5#6
      ∧ t.trace.regs = [.wr 4#6 (t.dev 4), .wr 5#6 (t.dev 5), .wr 6#6 (t.dev 6)] ++ s.trace.regs
      ∧ t.trace.results = s.trace.results

/-- R194 on the bench: WRDOW. -/
def Obligations.WrdowOnTheBench : Prop :=
  ∀ (a : Byte) (s : State), 1 ≤ a.toNat → a.toNat ≤ 7 → s.OnBench →
    ∃ t, exec (.wrdow a) s = .next t ∧ CompletedIdle 2 s t ∧ SameResults s t ∧ EnvironmentKept s t
      ∧ (∀ k, t.dev k = if k = 3 then a else s.dev k) ∧ t.device.ptr = 4#6
      ∧ t.trace.regs = .wr 3#6 a :: s.trace.regs ∧ t.trace.results = s.trace.results

/-- R196 to R199 on the bench: each control command changes its own bits of its own register and no other bit. -/
def Obligations.ControlCommandsOnTheBench : Prop :=
  ∀ (s : State), s.OnBench →
    (∀ f : Bit, ModifiesRegister (.sethalt f) 0#6 (fun v => (v &&& 0x7F#8) ||| (if f then 0x80#8 else 0#8)) s)
      ∧ (∀ f : Bit, ModifiesRegister (.setout f) 7#6 (fun v => (v &&& 0x7F#8) ||| (if f then 0x80#8 else 0#8)) s)
      ∧ (∀ f : Bit, ModifiesRegister (.setsqwe f) 7#6 (fun v => (v &&& 0xEF#8) ||| (if f then 0x10#8 else 0#8)) s)
      ∧ (∀ r : BitVec 2, ModifiesRegister (.setrate r) 7#6 (fun v => (v &&& 0xFC#8) ||| r.setWidth 8) s)

/-- R210 on the bench: RDSCR of a scratch address 0..55 reads the register at 8 plus the address. -/
def Obligations.RdscrOnTheBench : Prop :=
  ∀ (a : Byte) (s : State), a.toNat ≤ 55 → s.OnBench →
    ∃ t, exec (.rdscr a) s = .next t ∧ t.res = Byte.zext16 (s.dev (8 + a.toNat)) ∧ t.buf = s.buf ∧ t.bufn = s.bufn
      ∧ t.snap = s.snap ∧ CompletedIdle 2 s t
      ∧ t.device = { s.device with ptr := BitVec.ofNat 6 (9 + a.toNat), mode := .idle, dack := false }
      ∧ t.answers = s.answers ∧ t.drawn = s.drawn
      ∧ t.trace.regs = .rd (BitVec.ofNat 6 (8 + a.toNat)) (s.dev (8 + a.toNat)) :: s.trace.regs
      ∧ t.trace.results = .res t.res :: s.trace.results

/-- R211 on the bench: WRSCR. -/
def Obligations.WrscrOnTheBench : Prop :=
  ∀ (a v : Byte) (s : State), a.toNat ≤ 55 → s.OnBench →
    ∃ t, exec (.wrscr a v) s = .next t ∧ CompletedIdle 3 s t ∧ SameResults s t ∧ EnvironmentKept s t
      ∧ (∀ k, t.dev k = if k = 8 + a.toNat then v else s.dev k) ∧ t.device.ptr = BitVec.ofNat 6 (9 + a.toNat)
      ∧ t.trace.regs = .wr (BitVec.ofNat 6 (8 + a.toNat)) v :: s.trace.regs ∧ t.trace.results = s.trace.results

/-- R212, R213 on the bench: the whole scratch region, read and written. -/
def Obligations.ScratchRegionOnTheBench : Prop :=
  ∀ (s : State), s.OnBench →
    (∃ t, exec .rdscrall s = .next t ∧ t.buf = (List.range 56).map (fun i => s.dev (8 + i)) ++ s.buf.drop 56
        ∧ t.bufn = 56#6 ∧ t.res = s.res ∧ t.snap = s.snap ∧ CompletedIdle 1 s t
        ∧ t.device = { s.device with ptr := 0#6, mode := .idle, dack := false }
        ∧ t.answers = s.answers ∧ t.drawn = s.drawn)
      ∧ (∀ d : List Byte, d.length = 56 →
        ∃ t, exec (.wrscrall d) s = .next t ∧ CompletedIdle 57 s t ∧ SameResults s t ∧ EnvironmentKept s t
          ∧ (∀ a, t.dev a = if 8 ≤ a ∧ a < 64 then d.getD (a - 8) 0#8 else s.dev a) ∧ t.device.ptr = 0#6
          ∧ t.trace.results = s.trace.results)

/-- R191, R31 (the spec's own derivation, "The decode rules can produce"): what a completed RDSNAP leaves in `SNAP`, in any
environment, however late it acknowledges: the decode of the eight bytes it read, and so its ranges. -/
def Obligations.SnapshotRanges : Prop :=
  ∀ (s t : State), s.phase = .idle → Completes .rdsnap s t →
    (CompletedIdle 1 s t ∧ t.res = s.res ∧ t.buf = s.buf ∧ t.bufn = s.bufn
        ∧ t.trace.results = .snap t.snap :: s.trace.results)
      ∧ (∃ second minute hour dow date month year control : Byte,
        t.trace.calls = (burstReadCalls 0#8 [second, minute, hour, dow, date, month, year, control]).reverse
            ++ s.trace.calls
          ∧ t.snap.second.toNat = second.toNat % 16 + 10 * (second.toNat / 16 % 8)
          ∧ t.snap.minute.toNat = minute.toNat % 16 + 10 * (minute.toNat / 16 % 8)
          ∧ t.snap.hour.toNat = (if 128 ≤ hour.toNat then hour.toNat % 16 + 12 * (hour.toNat / 32 % 2)
              else hour.toNat % 16 + 10 * (hour.toNat / 16 % 4))
          ∧ t.snap.dow = dow ∧ t.snap.date.toNat = date.toNat % 16 + 10 * (date.toNat / 16 % 8)
          ∧ t.snap.month.toNat = month.toNat % 16 + 10 * (month.toNat / 16 % 8)
          ∧ t.snap.year.toNat = 2000 + (year.toNat % 16 + 10 * (year.toNat / 16)))
      ∧ t.snap.hour.toNat ≤ 45 ∧ t.snap.minute.toNat ≤ 85 ∧ t.snap.second.toNat ≤ 85 ∧ t.snap.date.toNat ≤ 85
      ∧ t.snap.month.toNat ≤ 85 ∧ 2000 ≤ t.snap.year.toNat ∧ t.snap.year.toNat ≤ 2165

/-! ### Commands against one another -/

/-- R69: on the bench a read that follows a write of the same register gives the value written. -/
def Obligations.ReadAfterWrite : Prop :=
  ∀ (off : BitVec 6) (v : Byte) (s : State), s.OnBench →
    ∃ t, execAll [.wrreg off v, .rdreg off] s = .next t ∧ t.res = Byte.zext16 v ∧ t.pc = s.pc + 5#16 ∧ t.err = s.err

/-- R150 with spec/95_test_vectors.md P4: the ten primitive commands of a register read and the one command RDREG come to the same
state, `PC` apart, in any environment in which RDREG completes, however late it acknowledges. -/
def Obligations.PrimitivesBuildARegisterRead : Prop :=
  ∀ (off : BitVec 6) (s u : State), s.phase = .idle → Completes (.rdreg off) s u →
    CompleteAll [.start 0xD0#8, .wack, .wbyte (off.setWidth 8), .wack, .stop, .start 0xD1#8, .wack, .rbyte, .snack, .stop] s
      { u with pc := s.pc + 13#16 }

/-- R210, R211 for 0..55, R212 "It is `BRD 8, 56`", R213 "It is `BWR 8, 56, d`", R154: the same state, `PC` apart, in any
environment in which the command completes, however late it acknowledges. -/
def Obligations.ScratchCommandsAreBursts : Prop :=
  ∀ (s t : State), s.phase = .idle →
    (∀ a : Byte, a.toNat ≤ 55 →
        (Completes (.rdreg (BitVec.ofNat 6 (8 + a.toNat))) s t → Completes (.rdscr a) s t)
          ∧ (∀ v, Completes (.wrreg (BitVec.ofNat 6 (8 + a.toNat)) v) s t → Completes (.wrscr a v) s t))
      ∧ (Completes (.brd 8#6 56) s t → Completes .rdscrall s { t with pc := s.pc + 1#16 })
      ∧ (∀ d : List Byte, d.length = 56 → Completes (.bwr 8#6 d) s t →
          Completes (.wrscrall d) s { t with pc := s.pc + 57#16 })

/-- The source's round trip (spec/95_test_vectors.md S4) for every instant: WRTIME, WRDATE, WRDOW, then RDSNAP, on the bench,
reproduce the snapshot for all valid operands with a year of 2000..2099. -/
def Obligations.ClockRoundTrip : Prop :=
  ∀ (h m x d mo dow : Byte) (y : Half) (s : State), h.toNat < 24 → m.toNat < 60 → x.toNat < 60 →
    1 ≤ d.toNat → d.toNat ≤ 31 → 1 ≤ mo.toNat → mo.toNat ≤ 12 → 2000 ≤ y.toNat → y.toNat ≤ 2099 →
    1 ≤ dow.toNat → dow.toNat ≤ 7 → s.OnBench →
    ∃ t, execAll [.wrtime h m x, .wrdate d mo y, .wrdow dow, .rdsnap] s = .next t
      ∧ t.snap = { hour := h, minute := m, second := x, date := d, month := mo, year := y, dow := dow }
      ∧ t.snap.ok = true ∧ t.err = s.err
end

