-- ==== Sys2Proof/Laws/State.lean ====
section
/-! SUPPORT. What each update of the state leaves in each field: one lemma per field per update, so that no later proof
unfolds a record update. -/

namespace Sys2Proof.Machine

variable (s : State)

/-! ### `setPins` -/

@[simp] theorem setPins_pins (p : Pins) : (setPins p s).pins = p := rfl
@[simp] theorem setPins_pc (p : Pins) : (setPins p s).pc = s.pc := rfl
@[simp] theorem setPins_res (p : Pins) : (setPins p s).res = s.res := rfl
@[simp] theorem setPins_buf (p : Pins) : (setPins p s).buf = s.buf := rfl
@[simp] theorem setPins_bufn (p : Pins) : (setPins p s).bufn = s.bufn := rfl
@[simp] theorem setPins_snap (p : Pins) : (setPins p s).snap = s.snap := rfl
@[simp] theorem setPins_phase (p : Pins) : (setPins p s).phase = s.phase := rfl
@[simp] theorem setPins_err (p : Pins) : (setPins p s).err = s.err := rfl
@[simp] theorem setPins_errcode (p : Pins) : (setPins p s).errcode = s.errcode := rfl
@[simp] theorem setPins_errpc (p : Pins) : (setPins p s).errpc = s.errpc := rfl
@[simp] theorem setPins_busy (p : Pins) : (setPins p s).busy = s.busy := rfl
@[simp] theorem setPins_handle (p : Pins) : (setPins p s).handle = s.handle := rfl
@[simp] theorem setPins_stream (p : Pins) : (setPins p s).stream = s.stream := rfl
@[simp] theorem setPins_resetReq (p : Pins) : (setPins p s).resetReq = s.resetReq := rfl
@[simp] theorem setPins_resetAfter (p : Pins) : (setPins p s).resetAfter = s.resetAfter := rfl
@[simp] theorem setPins_answers (p : Pins) : (setPins p s).answers = s.answers := rfl
@[simp] theorem setPins_drawn (p : Pins) : (setPins p s).drawn = s.drawn := rfl
@[simp] theorem setPins_attached (p : Pins) : (setPins p s).attached = s.attached := rfl
@[simp] theorem setPins_device (p : Pins) : (setPins p s).device = s.device := rfl
@[simp] theorem setPins_trace (p : Pins) : (setPins p s).trace = s.trace.recordPins p := rfl

/-! ### `driveSDA` -/

@[simp] theorem driveSDA_pins (b : Bit) : (driveSDA b s).pins = { s.pins with dir := .output, sda := b } := rfl
@[simp] theorem driveSDA_pc (b : Bit) : (driveSDA b s).pc = s.pc := rfl
@[simp] theorem driveSDA_res (b : Bit) : (driveSDA b s).res = s.res := rfl
@[simp] theorem driveSDA_buf (b : Bit) : (driveSDA b s).buf = s.buf := rfl
@[simp] theorem driveSDA_bufn (b : Bit) : (driveSDA b s).bufn = s.bufn := rfl
@[simp] theorem driveSDA_snap (b : Bit) : (driveSDA b s).snap = s.snap := rfl
@[simp] theorem driveSDA_phase (b : Bit) : (driveSDA b s).phase = s.phase := rfl
@[simp] theorem driveSDA_err (b : Bit) : (driveSDA b s).err = s.err := rfl
@[simp] theorem driveSDA_errcode (b : Bit) : (driveSDA b s).errcode = s.errcode := rfl
@[simp] theorem driveSDA_errpc (b : Bit) : (driveSDA b s).errpc = s.errpc := rfl
@[simp] theorem driveSDA_busy (b : Bit) : (driveSDA b s).busy = s.busy := rfl
@[simp] theorem driveSDA_handle (b : Bit) : (driveSDA b s).handle = s.handle := rfl
@[simp] theorem driveSDA_stream (b : Bit) : (driveSDA b s).stream = s.stream := rfl
@[simp] theorem driveSDA_resetReq (b : Bit) : (driveSDA b s).resetReq = s.resetReq := rfl
@[simp] theorem driveSDA_resetAfter (b : Bit) : (driveSDA b s).resetAfter = s.resetAfter := rfl
@[simp] theorem driveSDA_answers (b : Bit) : (driveSDA b s).answers = s.answers := rfl
@[simp] theorem driveSDA_drawn (b : Bit) : (driveSDA b s).drawn = s.drawn := rfl
@[simp] theorem driveSDA_attached (b : Bit) : (driveSDA b s).attached = s.attached := rfl
@[simp] theorem driveSDA_device (b : Bit) : (driveSDA b s).device = s.device := rfl
@[simp] theorem driveSDA_trace (b : Bit) :
    (driveSDA b s).trace = s.trace.recordPins { s.pins with dir := .output, sda := b } := rfl

/-! ### `releaseSDA` -/

@[simp] theorem releaseSDA_pins : (releaseSDA s).pins = { s.pins with dir := .input } := rfl
@[simp] theorem releaseSDA_pc : (releaseSDA s).pc = s.pc := rfl
@[simp] theorem releaseSDA_res : (releaseSDA s).res = s.res := rfl
@[simp] theorem releaseSDA_buf : (releaseSDA s).buf = s.buf := rfl
@[simp] theorem releaseSDA_bufn : (releaseSDA s).bufn = s.bufn := rfl
@[simp] theorem releaseSDA_snap : (releaseSDA s).snap = s.snap := rfl
@[simp] theorem releaseSDA_phase : (releaseSDA s).phase = s.phase := rfl
@[simp] theorem releaseSDA_err : (releaseSDA s).err = s.err := rfl
@[simp] theorem releaseSDA_errcode : (releaseSDA s).errcode = s.errcode := rfl
@[simp] theorem releaseSDA_errpc : (releaseSDA s).errpc = s.errpc := rfl
@[simp] theorem releaseSDA_busy : (releaseSDA s).busy = s.busy := rfl
@[simp] theorem releaseSDA_handle : (releaseSDA s).handle = s.handle := rfl
@[simp] theorem releaseSDA_stream : (releaseSDA s).stream = s.stream := rfl
@[simp] theorem releaseSDA_resetReq : (releaseSDA s).resetReq = s.resetReq := rfl
@[simp] theorem releaseSDA_resetAfter : (releaseSDA s).resetAfter = s.resetAfter := rfl
@[simp] theorem releaseSDA_answers : (releaseSDA s).answers = s.answers := rfl
@[simp] theorem releaseSDA_drawn : (releaseSDA s).drawn = s.drawn := rfl
@[simp] theorem releaseSDA_attached : (releaseSDA s).attached = s.attached := rfl
@[simp] theorem releaseSDA_device : (releaseSDA s).device = s.device := rfl
@[simp] theorem releaseSDA_trace : (releaseSDA s).trace = s.trace.recordPins { s.pins with dir := .input } := rfl

/-! ### `setSCL` -/

@[simp] theorem setSCL_pins (b : Bit) : (setSCL b s).pins = { s.pins with scl := b } := rfl
@[simp] theorem setSCL_pc (b : Bit) : (setSCL b s).pc = s.pc := rfl
@[simp] theorem setSCL_res (b : Bit) : (setSCL b s).res = s.res := rfl
@[simp] theorem setSCL_buf (b : Bit) : (setSCL b s).buf = s.buf := rfl
@[simp] theorem setSCL_bufn (b : Bit) : (setSCL b s).bufn = s.bufn := rfl
@[simp] theorem setSCL_snap (b : Bit) : (setSCL b s).snap = s.snap := rfl
@[simp] theorem setSCL_phase (b : Bit) : (setSCL b s).phase = s.phase := rfl
@[simp] theorem setSCL_err (b : Bit) : (setSCL b s).err = s.err := rfl
@[simp] theorem setSCL_errcode (b : Bit) : (setSCL b s).errcode = s.errcode := rfl
@[simp] theorem setSCL_errpc (b : Bit) : (setSCL b s).errpc = s.errpc := rfl
@[simp] theorem setSCL_busy (b : Bit) : (setSCL b s).busy = s.busy := rfl
@[simp] theorem setSCL_handle (b : Bit) : (setSCL b s).handle = s.handle := rfl
@[simp] theorem setSCL_stream (b : Bit) : (setSCL b s).stream = s.stream := rfl
@[simp] theorem setSCL_resetReq (b : Bit) : (setSCL b s).resetReq = s.resetReq := rfl
@[simp] theorem setSCL_resetAfter (b : Bit) : (setSCL b s).resetAfter = s.resetAfter := rfl
@[simp] theorem setSCL_answers (b : Bit) : (setSCL b s).answers = s.answers := rfl
@[simp] theorem setSCL_drawn (b : Bit) : (setSCL b s).drawn = s.drawn := rfl
@[simp] theorem setSCL_attached (b : Bit) : (setSCL b s).attached = s.attached := rfl
@[simp] theorem setSCL_device (b : Bit) : (setSCL b s).device = s.device := rfl
@[simp] theorem setSCL_trace (b : Bit) : (setSCL b s).trace = s.trace.recordPins { s.pins with scl := b } := rfl

/-! ### `setPhase` -/

@[simp] theorem setPhase_pins (p : Phase) : (setPhase p s).pins = s.pins := rfl
@[simp] theorem setPhase_pc (p : Phase) : (setPhase p s).pc = s.pc := rfl
@[simp] theorem setPhase_res (p : Phase) : (setPhase p s).res = s.res := rfl
@[simp] theorem setPhase_buf (p : Phase) : (setPhase p s).buf = s.buf := rfl
@[simp] theorem setPhase_bufn (p : Phase) : (setPhase p s).bufn = s.bufn := rfl
@[simp] theorem setPhase_snap (p : Phase) : (setPhase p s).snap = s.snap := rfl
@[simp] theorem setPhase_phase (p : Phase) : (setPhase p s).phase = p := rfl
@[simp] theorem setPhase_err (p : Phase) : (setPhase p s).err = s.err := rfl
@[simp] theorem setPhase_errcode (p : Phase) : (setPhase p s).errcode = s.errcode := rfl
@[simp] theorem setPhase_errpc (p : Phase) : (setPhase p s).errpc = s.errpc := rfl
@[simp] theorem setPhase_busy (p : Phase) : (setPhase p s).busy = s.busy := rfl
@[simp] theorem setPhase_handle (p : Phase) : (setPhase p s).handle = s.handle := rfl
@[simp] theorem setPhase_stream (p : Phase) : (setPhase p s).stream = s.stream := rfl
@[simp] theorem setPhase_resetReq (p : Phase) : (setPhase p s).resetReq = s.resetReq := rfl
@[simp] theorem setPhase_resetAfter (p : Phase) : (setPhase p s).resetAfter = s.resetAfter := rfl
@[simp] theorem setPhase_answers (p : Phase) : (setPhase p s).answers = s.answers := rfl
@[simp] theorem setPhase_drawn (p : Phase) : (setPhase p s).drawn = s.drawn := rfl
@[simp] theorem setPhase_attached (p : Phase) : (setPhase p s).attached = s.attached := rfl
@[simp] theorem setPhase_device (p : Phase) : (setPhase p s).device = s.device := rfl
@[simp] theorem setPhase_trace (p : Phase) : (setPhase p s).trace = s.trace := rfl

/-! ### `advance` -/

@[simp] theorem advance_pins (n : Nat) : (advance n s).pins = s.pins := rfl
@[simp] theorem advance_pc (n : Nat) : (advance n s).pc = s.pc + BitVec.ofNat 16 n := rfl
@[simp] theorem advance_res (n : Nat) : (advance n s).res = s.res := rfl
@[simp] theorem advance_buf (n : Nat) : (advance n s).buf = s.buf := rfl
@[simp] theorem advance_bufn (n : Nat) : (advance n s).bufn = s.bufn := rfl
@[simp] theorem advance_snap (n : Nat) : (advance n s).snap = s.snap := rfl
@[simp] theorem advance_phase (n : Nat) : (advance n s).phase = s.phase := rfl
@[simp] theorem advance_err (n : Nat) : (advance n s).err = s.err := rfl
@[simp] theorem advance_errcode (n : Nat) : (advance n s).errcode = s.errcode := rfl
@[simp] theorem advance_errpc (n : Nat) : (advance n s).errpc = s.errpc := rfl
@[simp] theorem advance_busy (n : Nat) : (advance n s).busy = s.busy := rfl
@[simp] theorem advance_handle (n : Nat) : (advance n s).handle = s.handle := rfl
@[simp] theorem advance_stream (n : Nat) : (advance n s).stream = s.stream := rfl
@[simp] theorem advance_resetReq (n : Nat) : (advance n s).resetReq = s.resetReq := rfl
@[simp] theorem advance_resetAfter (n : Nat) : (advance n s).resetAfter = s.resetAfter := rfl
@[simp] theorem advance_answers (n : Nat) : (advance n s).answers = s.answers := rfl
@[simp] theorem advance_drawn (n : Nat) : (advance n s).drawn = s.drawn := rfl
@[simp] theorem advance_attached (n : Nat) : (advance n s).attached = s.attached := rfl
@[simp] theorem advance_device (n : Nat) : (advance n s).device = s.device := rfl
@[simp] theorem advance_trace (n : Nat) : (advance n s).trace = s.trace := rfl

/-! ### `logResult` -/

@[simp] theorem logResult_pins (e : ResultEvent) : (logResult e s).pins = s.pins := rfl
@[simp] theorem logResult_pc (e : ResultEvent) : (logResult e s).pc = s.pc := rfl
@[simp] theorem logResult_res (e : ResultEvent) : (logResult e s).res = s.res := rfl
@[simp] theorem logResult_buf (e : ResultEvent) : (logResult e s).buf = s.buf := rfl
@[simp] theorem logResult_bufn (e : ResultEvent) : (logResult e s).bufn = s.bufn := rfl
@[simp] theorem logResult_snap (e : ResultEvent) : (logResult e s).snap = s.snap := rfl
@[simp] theorem logResult_phase (e : ResultEvent) : (logResult e s).phase = s.phase := rfl
@[simp] theorem logResult_err (e : ResultEvent) : (logResult e s).err = s.err := rfl
@[simp] theorem logResult_errcode (e : ResultEvent) : (logResult e s).errcode = s.errcode := rfl
@[simp] theorem logResult_errpc (e : ResultEvent) : (logResult e s).errpc = s.errpc := rfl
@[simp] theorem logResult_busy (e : ResultEvent) : (logResult e s).busy = s.busy := rfl
@[simp] theorem logResult_handle (e : ResultEvent) : (logResult e s).handle = s.handle := rfl
@[simp] theorem logResult_stream (e : ResultEvent) : (logResult e s).stream = s.stream := rfl
@[simp] theorem logResult_resetReq (e : ResultEvent) : (logResult e s).resetReq = s.resetReq := rfl
@[simp] theorem logResult_resetAfter (e : ResultEvent) : (logResult e s).resetAfter = s.resetAfter := rfl
@[simp] theorem logResult_answers (e : ResultEvent) : (logResult e s).answers = s.answers := rfl
@[simp] theorem logResult_drawn (e : ResultEvent) : (logResult e s).drawn = s.drawn := rfl
@[simp] theorem logResult_attached (e : ResultEvent) : (logResult e s).attached = s.attached := rfl
@[simp] theorem logResult_device (e : ResultEvent) : (logResult e s).device = s.device := rfl
@[simp] theorem logResult_trace (e : ResultEvent) :
    (logResult e s).trace = { s.trace with results := e :: s.trace.results } := rfl

/-! ### `logCall` -/

@[simp] theorem logCall_pins (p : Prim) (r : Option Byte) : (logCall p r s).pins = s.pins := rfl
@[simp] theorem logCall_pc (p : Prim) (r : Option Byte) : (logCall p r s).pc = s.pc := rfl
@[simp] theorem logCall_res (p : Prim) (r : Option Byte) : (logCall p r s).res = s.res := rfl
@[simp] theorem logCall_buf (p : Prim) (r : Option Byte) : (logCall p r s).buf = s.buf := rfl
@[simp] theorem logCall_bufn (p : Prim) (r : Option Byte) : (logCall p r s).bufn = s.bufn := rfl
@[simp] theorem logCall_snap (p : Prim) (r : Option Byte) : (logCall p r s).snap = s.snap := rfl
@[simp] theorem logCall_phase (p : Prim) (r : Option Byte) : (logCall p r s).phase = s.phase := rfl
@[simp] theorem logCall_err (p : Prim) (r : Option Byte) : (logCall p r s).err = s.err := rfl
@[simp] theorem logCall_errcode (p : Prim) (r : Option Byte) : (logCall p r s).errcode = s.errcode := rfl
@[simp] theorem logCall_errpc (p : Prim) (r : Option Byte) : (logCall p r s).errpc = s.errpc := rfl
@[simp] theorem logCall_busy (p : Prim) (r : Option Byte) : (logCall p r s).busy = s.busy := rfl
@[simp] theorem logCall_handle (p : Prim) (r : Option Byte) : (logCall p r s).handle = s.handle := rfl
@[simp] theorem logCall_stream (p : Prim) (r : Option Byte) : (logCall p r s).stream = s.stream := rfl
@[simp] theorem logCall_resetReq (p : Prim) (r : Option Byte) : (logCall p r s).resetReq = s.resetReq := rfl
@[simp] theorem logCall_resetAfter (p : Prim) (r : Option Byte) : (logCall p r s).resetAfter = s.resetAfter := rfl
@[simp] theorem logCall_answers (p : Prim) (r : Option Byte) : (logCall p r s).answers = s.answers := rfl
@[simp] theorem logCall_drawn (p : Prim) (r : Option Byte) : (logCall p r s).drawn = s.drawn := rfl
@[simp] theorem logCall_attached (p : Prim) (r : Option Byte) : (logCall p r s).attached = s.attached := rfl
@[simp] theorem logCall_device (p : Prim) (r : Option Byte) : (logCall p r s).device = s.device := rfl
@[simp] theorem logCall_trace (p : Prim) (r : Option Byte) :
    (logCall p r s).trace = { s.trace with calls := ⟨p, r⟩ :: s.trace.calls } := rfl

/-! ### `logRegs` -/

@[simp] theorem logRegs_pins (es : List RegEvent) : (logRegs es s).pins = s.pins := rfl
@[simp] theorem logRegs_pc (es : List RegEvent) : (logRegs es s).pc = s.pc := rfl
@[simp] theorem logRegs_res (es : List RegEvent) : (logRegs es s).res = s.res := rfl
@[simp] theorem logRegs_buf (es : List RegEvent) : (logRegs es s).buf = s.buf := rfl
@[simp] theorem logRegs_bufn (es : List RegEvent) : (logRegs es s).bufn = s.bufn := rfl
@[simp] theorem logRegs_snap (es : List RegEvent) : (logRegs es s).snap = s.snap := rfl
@[simp] theorem logRegs_phase (es : List RegEvent) : (logRegs es s).phase = s.phase := rfl
@[simp] theorem logRegs_err (es : List RegEvent) : (logRegs es s).err = s.err := rfl
@[simp] theorem logRegs_errcode (es : List RegEvent) : (logRegs es s).errcode = s.errcode := rfl
@[simp] theorem logRegs_errpc (es : List RegEvent) : (logRegs es s).errpc = s.errpc := rfl
@[simp] theorem logRegs_busy (es : List RegEvent) : (logRegs es s).busy = s.busy := rfl
@[simp] theorem logRegs_handle (es : List RegEvent) : (logRegs es s).handle = s.handle := rfl
@[simp] theorem logRegs_stream (es : List RegEvent) : (logRegs es s).stream = s.stream := rfl
@[simp] theorem logRegs_resetReq (es : List RegEvent) : (logRegs es s).resetReq = s.resetReq := rfl
@[simp] theorem logRegs_resetAfter (es : List RegEvent) : (logRegs es s).resetAfter = s.resetAfter := rfl
@[simp] theorem logRegs_answers (es : List RegEvent) : (logRegs es s).answers = s.answers := rfl
@[simp] theorem logRegs_drawn (es : List RegEvent) : (logRegs es s).drawn = s.drawn := rfl
@[simp] theorem logRegs_attached (es : List RegEvent) : (logRegs es s).attached = s.attached := rfl
@[simp] theorem logRegs_device (es : List RegEvent) : (logRegs es s).device = s.device := rfl
@[simp] theorem logRegs_trace (es : List RegEvent) :
    (logRegs es s).trace = { s.trace with regs := es ++ s.trace.regs } := rfl

/-! ### `setRes` -/

@[simp] theorem setRes_pins (v : Half) : (setRes v s).pins = s.pins := rfl
@[simp] theorem setRes_pc (v : Half) : (setRes v s).pc = s.pc := rfl
@[simp] theorem setRes_res (v : Half) : (setRes v s).res = v := rfl
@[simp] theorem setRes_buf (v : Half) : (setRes v s).buf = s.buf := rfl
@[simp] theorem setRes_bufn (v : Half) : (setRes v s).bufn = s.bufn := rfl
@[simp] theorem setRes_snap (v : Half) : (setRes v s).snap = s.snap := rfl
@[simp] theorem setRes_phase (v : Half) : (setRes v s).phase = s.phase := rfl
@[simp] theorem setRes_err (v : Half) : (setRes v s).err = s.err := rfl
@[simp] theorem setRes_errcode (v : Half) : (setRes v s).errcode = s.errcode := rfl
@[simp] theorem setRes_errpc (v : Half) : (setRes v s).errpc = s.errpc := rfl
@[simp] theorem setRes_busy (v : Half) : (setRes v s).busy = s.busy := rfl
@[simp] theorem setRes_handle (v : Half) : (setRes v s).handle = s.handle := rfl
@[simp] theorem setRes_stream (v : Half) : (setRes v s).stream = s.stream := rfl
@[simp] theorem setRes_resetReq (v : Half) : (setRes v s).resetReq = s.resetReq := rfl
@[simp] theorem setRes_resetAfter (v : Half) : (setRes v s).resetAfter = s.resetAfter := rfl
@[simp] theorem setRes_answers (v : Half) : (setRes v s).answers = s.answers := rfl
@[simp] theorem setRes_drawn (v : Half) : (setRes v s).drawn = s.drawn := rfl
@[simp] theorem setRes_attached (v : Half) : (setRes v s).attached = s.attached := rfl
@[simp] theorem setRes_device (v : Half) : (setRes v s).device = s.device := rfl
@[simp] theorem setRes_trace (v : Half) :
    (setRes v s).trace = { s.trace with results := .res v :: s.trace.results } := rfl

/-! ### `setBuf` -/

@[simp] theorem setBuf_pins (d : List Byte) : (setBuf d s).pins = s.pins := rfl
@[simp] theorem setBuf_pc (d : List Byte) : (setBuf d s).pc = s.pc := rfl
@[simp] theorem setBuf_res (d : List Byte) : (setBuf d s).res = s.res := rfl
@[simp] theorem setBuf_buf (d : List Byte) : (setBuf d s).buf = d ++ s.buf.drop d.length := rfl
@[simp] theorem setBuf_bufn (d : List Byte) : (setBuf d s).bufn = BitVec.ofNat 6 d.length := rfl
@[simp] theorem setBuf_snap (d : List Byte) : (setBuf d s).snap = s.snap := rfl
@[simp] theorem setBuf_phase (d : List Byte) : (setBuf d s).phase = s.phase := rfl
@[simp] theorem setBuf_err (d : List Byte) : (setBuf d s).err = s.err := rfl
@[simp] theorem setBuf_errcode (d : List Byte) : (setBuf d s).errcode = s.errcode := rfl
@[simp] theorem setBuf_errpc (d : List Byte) : (setBuf d s).errpc = s.errpc := rfl
@[simp] theorem setBuf_busy (d : List Byte) : (setBuf d s).busy = s.busy := rfl
@[simp] theorem setBuf_handle (d : List Byte) : (setBuf d s).handle = s.handle := rfl
@[simp] theorem setBuf_stream (d : List Byte) : (setBuf d s).stream = s.stream := rfl
@[simp] theorem setBuf_resetReq (d : List Byte) : (setBuf d s).resetReq = s.resetReq := rfl
@[simp] theorem setBuf_resetAfter (d : List Byte) : (setBuf d s).resetAfter = s.resetAfter := rfl
@[simp] theorem setBuf_answers (d : List Byte) : (setBuf d s).answers = s.answers := rfl
@[simp] theorem setBuf_drawn (d : List Byte) : (setBuf d s).drawn = s.drawn := rfl
@[simp] theorem setBuf_attached (d : List Byte) : (setBuf d s).attached = s.attached := rfl
@[simp] theorem setBuf_device (d : List Byte) : (setBuf d s).device = s.device := rfl
@[simp] theorem setBuf_trace (d : List Byte) :
    (setBuf d s).trace = { s.trace with results := .buf d :: s.trace.results } := rfl

/-! ### `setSnap` -/

@[simp] theorem setSnap_pins (v : Snapshot) : (setSnap v s).pins = s.pins := rfl
@[simp] theorem setSnap_pc (v : Snapshot) : (setSnap v s).pc = s.pc := rfl
@[simp] theorem setSnap_res (v : Snapshot) : (setSnap v s).res = s.res := rfl
@[simp] theorem setSnap_buf (v : Snapshot) : (setSnap v s).buf = s.buf := rfl
@[simp] theorem setSnap_bufn (v : Snapshot) : (setSnap v s).bufn = s.bufn := rfl
@[simp] theorem setSnap_snap (v : Snapshot) : (setSnap v s).snap = v := rfl
@[simp] theorem setSnap_phase (v : Snapshot) : (setSnap v s).phase = s.phase := rfl
@[simp] theorem setSnap_err (v : Snapshot) : (setSnap v s).err = s.err := rfl
@[simp] theorem setSnap_errcode (v : Snapshot) : (setSnap v s).errcode = s.errcode := rfl
@[simp] theorem setSnap_errpc (v : Snapshot) : (setSnap v s).errpc = s.errpc := rfl
@[simp] theorem setSnap_busy (v : Snapshot) : (setSnap v s).busy = s.busy := rfl
@[simp] theorem setSnap_handle (v : Snapshot) : (setSnap v s).handle = s.handle := rfl
@[simp] theorem setSnap_stream (v : Snapshot) : (setSnap v s).stream = s.stream := rfl
@[simp] theorem setSnap_resetReq (v : Snapshot) : (setSnap v s).resetReq = s.resetReq := rfl
@[simp] theorem setSnap_resetAfter (v : Snapshot) : (setSnap v s).resetAfter = s.resetAfter := rfl
@[simp] theorem setSnap_answers (v : Snapshot) : (setSnap v s).answers = s.answers := rfl
@[simp] theorem setSnap_drawn (v : Snapshot) : (setSnap v s).drawn = s.drawn := rfl
@[simp] theorem setSnap_attached (v : Snapshot) : (setSnap v s).attached = s.attached := rfl
@[simp] theorem setSnap_device (v : Snapshot) : (setSnap v s).device = s.device := rfl
@[simp] theorem setSnap_trace (v : Snapshot) :
    (setSnap v s).trace = { s.trace with results := .snap v :: s.trace.results } := rfl

/-! ### `raise` -/

@[simp] theorem raise_pins (c : FaultCode) : (raise c s).pins = s.pins := rfl
@[simp] theorem raise_pc (c : FaultCode) : (raise c s).pc = s.pc := rfl
@[simp] theorem raise_res (c : FaultCode) : (raise c s).res = s.res := rfl
@[simp] theorem raise_buf (c : FaultCode) : (raise c s).buf = s.buf := rfl
@[simp] theorem raise_bufn (c : FaultCode) : (raise c s).bufn = s.bufn := rfl
@[simp] theorem raise_snap (c : FaultCode) : (raise c s).snap = s.snap := rfl
@[simp] theorem raise_phase (c : FaultCode) : (raise c s).phase = s.phase := rfl
@[simp] theorem raise_err (c : FaultCode) : (raise c s).err = true := rfl
@[simp] theorem raise_errcode (c : FaultCode) : (raise c s).errcode = c.number := rfl
@[simp] theorem raise_errpc (c : FaultCode) : (raise c s).errpc = s.pc := rfl
@[simp] theorem raise_busy (c : FaultCode) : (raise c s).busy = s.busy := rfl
@[simp] theorem raise_handle (c : FaultCode) : (raise c s).handle = s.handle := rfl
@[simp] theorem raise_stream (c : FaultCode) : (raise c s).stream = s.stream := rfl
@[simp] theorem raise_resetReq (c : FaultCode) : (raise c s).resetReq = s.resetReq := rfl
@[simp] theorem raise_resetAfter (c : FaultCode) : (raise c s).resetAfter = s.resetAfter := rfl
@[simp] theorem raise_answers (c : FaultCode) : (raise c s).answers = s.answers := rfl
@[simp] theorem raise_drawn (c : FaultCode) : (raise c s).drawn = s.drawn := rfl
@[simp] theorem raise_attached (c : FaultCode) : (raise c s).attached = s.attached := rfl
@[simp] theorem raise_device (c : FaultCode) : (raise c s).device = s.device := rfl
@[simp] theorem raise_trace (c : FaultCode) : (raise c s).trace = s.trace := rfl

/-! ### `Trace.recordPins` -/

@[simp] theorem recordPins_calls (p : Pins) (t : Trace) : (t.recordPins p).calls = t.calls := by
  unfold Trace.recordPins; split <;> rfl
@[simp] theorem recordPins_regs (p : Pins) (t : Trace) : (t.recordPins p).regs = t.regs := by
  unfold Trace.recordPins; split <;> rfl
@[simp] theorem recordPins_results (p : Pins) (t : Trace) : (t.recordPins p).results = t.results := by
  unfold Trace.recordPins; split <;> rfl
theorem recordPins_pins (p : Pins) (t : Trace) :
    (t.recordPins p).pins = if t.pins.head? = some p then t.pins else p :: t.pins := by
  unfold Trace.recordPins; split <;> rfl
/-- After any micro-operation the newest entry of the pin trace is the pins. -/
@[simp] theorem recordPins_pins_head (p : Pins) (t : Trace) : (t.recordPins p).pins.head? = some p := by
  rw [recordPins_pins]; split <;> simp_all

end Sys2Proof.Machine
end

