-- ==== Sys2Proof/Laws/Line.lean ====
section
/-! SUPPORT. What the line procedures do: where they leave the pins, and that they touch nothing but the pins, the pin trace and
the environment's answers. -/

namespace Sys2Proof.Machine

/-- `t` differs from `s` at most in the pins, the pin trace, the answers still to come and the count of free values. -/
structure LineFrame (s t : State) : Prop where
  pc : t.pc = s.pc
  res : t.res = s.res
  buf : t.buf = s.buf
  bufn : t.bufn = s.bufn
  snap : t.snap = s.snap
  phase : t.phase = s.phase
  err : t.err = s.err
  errcode : t.errcode = s.errcode
  errpc : t.errpc = s.errpc
  busy : t.busy = s.busy
  handle : t.handle = s.handle
  stream : t.stream = s.stream
  resetReq : t.resetReq = s.resetReq
  resetAfter : t.resetAfter = s.resetAfter
  attached : t.attached = s.attached
  device : t.device = s.device
  calls : t.trace.calls = s.trace.calls
  regs : t.trace.regs = s.trace.regs
  results : t.trace.results = s.trace.results

theorem LineFrame.refl (s : State) : LineFrame s s := by constructor <;> rfl

theorem LineFrame.trans {s t u : State} (h : LineFrame s t) (k : LineFrame t u) : LineFrame s u := by
  constructor
  · exact k.pc.trans h.pc
  · exact k.res.trans h.res
  · exact k.buf.trans h.buf
  · exact k.bufn.trans h.bufn
  · exact k.snap.trans h.snap
  · exact k.phase.trans h.phase
  · exact k.err.trans h.err
  · exact k.errcode.trans h.errcode
  · exact k.errpc.trans h.errpc
  · exact k.busy.trans h.busy
  · exact k.handle.trans h.handle
  · exact k.stream.trans h.stream
  · exact k.resetReq.trans h.resetReq
  · exact k.resetAfter.trans h.resetAfter
  · exact k.attached.trans h.attached
  · exact k.device.trans h.device
  · exact k.calls.trans h.calls
  · exact k.regs.trans h.regs
  · exact k.results.trans h.results

theorem setPins_frame (p : Pins) (s : State) : LineFrame s (setPins p s) := by
  constructor <;> simp

theorem driveSDA_frame (b : Bit) (s : State) : LineFrame s (driveSDA b s) := setPins_frame _ s
theorem releaseSDA_frame (s : State) : LineFrame s (releaseSDA s) := setPins_frame _ s
theorem setSCL_frame (b : Bit) (s : State) : LineFrame s (setSCL b s) := setPins_frame _ s

/-! ### Samples -/

theorem freeSample_frame (s : State) : LineFrame s (freeSample s).2 := by
  unfold freeSample; split <;> constructor <;> rfl

@[simp] theorem freeSample_pins (s : State) : (freeSample s).2.pins = s.pins := by
  unfold freeSample; split <;> rfl

@[simp] theorem freeSample_trace (s : State) : (freeSample s).2.trace = s.trace := by
  unfold freeSample; split <;> rfl

/-- Where an answer stands in the state, it is the sample. -/
theorem freeSample_cons {s : State} {b : Bit} {rest : List Bit} (h : s.answers = b :: rest) :
    freeSample s = (b, { s with answers := rest }) := by
  unfold freeSample; rw [h]

theorem sampleSDA_frame (x : Option Bit) (s : State) : LineFrame s (sampleSDA x s).2 := by
  unfold sampleSDA
  split
  · exact .refl s
  · split
    · exact .refl s
    · exact freeSample_frame s

@[simp] theorem sampleSDA_pins (x : Option Bit) (s : State) : (sampleSDA x s).2.pins = s.pins := by
  unfold sampleSDA; split <;> [rfl; (split <;> simp)]

@[simp] theorem sampleSDA_trace (x : Option Bit) (s : State) : (sampleSDA x s).2.trace = s.trace := by
  unfold sampleSDA; split <;> [rfl; (split <;> simp)]

/-- With the line released, a sample the reference device fixes is its answer and changes nothing. -/
theorem sampleSDA_fixed {s : State} (b : Bit) (h : s.pins.dir = .input) : sampleSDA (some b) s = (b, s) := by
  unfold sampleSDA; rw [h]

/-- With the line released and nothing fixed, a sample is the environment's. -/
theorem sampleSDA_free {s : State} (h : s.pins.dir = .input) : sampleSDA none s = freeSample s := by
  unfold sampleSDA; rw [h]

/-! ### Bits and bytes -/

theorem lineWriteBit_frame (b : Bit) (s : State) : LineFrame s (lineWriteBit b s) :=
  (driveSDA_frame b s).trans ((setSCL_frame true _).trans (setSCL_frame false _))

@[simp] theorem lineWriteBit_pins (b : Bit) (s : State) : (lineWriteBit b s).pins = ⟨false, .output, b⟩ := rfl

@[simp] theorem lineWriteBit_answers (b : Bit) (s : State) : (lineWriteBit b s).answers = s.answers := rfl

@[simp] theorem lineWriteBit_drawn (b : Bit) (s : State) : (lineWriteBit b s).drawn = s.drawn := rfl

theorem lineWriteBits_frame (v : Byte) (is : List Nat) (s : State) : LineFrame s (lineWriteBits v is s) := by
  induction is generalizing s with
  | nil => exact .refl s
  | cons i is ih => exact (lineWriteBit_frame _ s).trans (ih _)

theorem lineWriteByte_frame (v : Byte) (s : State) : LineFrame s (lineWriteByte v s) := lineWriteBits_frame v _ s

/-- After `WriteByte(v)` the block drives the data line at `v[0]` with the clock low (R128). -/
@[simp] theorem lineWriteByte_pins (v : Byte) (s : State) :
    (lineWriteByte v s).pins = ⟨false, .output, v.getLsbD 0⟩ := rfl

@[simp] theorem lineWriteByte_answers (v : Byte) (s : State) : (lineWriteByte v s).answers = s.answers := rfl

@[simp] theorem lineWriteByte_drawn (v : Byte) (s : State) : (lineWriteByte v s).drawn = s.drawn := rfl

theorem lineReadBit_frame (x : Option Bit) (s : State) : LineFrame s (lineReadBit x s).2 :=
  (releaseSDA_frame s).trans ((setSCL_frame true _).trans ((sampleSDA_frame x _).trans (setSCL_frame false _)))

/-- `ReadBit()` ends with the clock low and the line released (R127). -/
@[simp] theorem lineReadBit_pins (x : Option Bit) (s : State) :
    (lineReadBit x s).2.pins = ⟨false, .input, s.pins.sda⟩ := by
  simp [lineReadBit]

/-- A read of a bit the reference device fixes gives that bit and draws nothing. -/
theorem lineReadBit_fixed (b : Bit) (s : State) :
    lineReadBit (some b) s = (b, setSCL false (setSCL true (releaseSDA s))) := by
  simp only [lineReadBit, sampleSDA_fixed b (show (setSCL true (releaseSDA s)).pins.dir = .input from rfl)]

/-- A read of a free bit takes the environment's next answer. -/
theorem lineReadBit_answer {s : State} {b : Bit} {rest : List Bit} (h : s.answers = b :: rest) :
    lineReadBit none s = (b, setSCL false { setSCL true (releaseSDA s) with answers := rest }) := by
  simp only [lineReadBit, sampleSDA_free (show (setSCL true (releaseSDA s)).pins.dir = .input from rfl),
    freeSample_cons (show (setSCL true (releaseSDA s)).answers = b :: rest from h)]

theorem lineReadBits_frame (x : Option Byte) (is : List Nat) (acc : Byte) (s : State) :
    LineFrame s (lineReadBits x is acc s).2 := by
  induction is generalizing acc s with
  | nil => exact .refl s
  | cons i is ih => exact (lineReadBit_frame _ s).trans (ih _ _)

theorem lineReadByte_frame (x : Option Byte) (s : State) : LineFrame s (lineReadByte x s).2 :=
  lineReadBits_frame x _ _ s

/-- `ReadByte()` ends with the clock low and the line released (R129). -/
@[simp] theorem lineReadByte_pins (x : Option Byte) (s : State) :
    (lineReadByte x s).2.pins = ⟨false, .input, s.pins.sda⟩ := by
  simp [lineReadByte, msbFirst, lineReadBits]

/-- The eight bits of a byte, put back where they came from, are the byte. -/
theorem byte_of_bits (v : Byte) :
    0#8 ||| (Byte.ofBit (v.getLsbD 7) <<< 7) ||| (Byte.ofBit (v.getLsbD 6) <<< 6)
      ||| (Byte.ofBit (v.getLsbD 5) <<< 5) ||| (Byte.ofBit (v.getLsbD 4) <<< 4)
      ||| (Byte.ofBit (v.getLsbD 3) <<< 3) ||| (Byte.ofBit (v.getLsbD 2) <<< 2)
      ||| (Byte.ofBit (v.getLsbD 1) <<< 1) ||| (Byte.ofBit (v.getLsbD 0) <<< 0) = v := by
  revert v; decide +kernel

/-- A read of a byte the reference device sends gives that byte. -/
theorem lineReadByte_fixed_value (v : Byte) (s : State) : (lineReadByte (some v) s).1 = v := by
  simp only [lineReadByte, msbFirst, lineReadBits, Option.map_some, lineReadBit_fixed]
  exact byte_of_bits v

theorem lineReadBits_fixed_env (v : Byte) (is : List Nat) (acc : Byte) (s : State) :
    (lineReadBits (some v) is acc s).2.answers = s.answers ∧
      (lineReadBits (some v) is acc s).2.drawn = s.drawn := by
  induction is generalizing acc s with
  | nil => exact ⟨rfl, rfl⟩
  | cons i is ih =>
    simp only [lineReadBits, Option.map_some, lineReadBit_fixed]
    exact ih _ _

/-- A read of a byte the reference device sends draws nothing from the environment. -/
theorem lineReadByte_fixed_env (v : Byte) (s : State) :
    (lineReadByte (some v) s).2.answers = s.answers ∧ (lineReadByte (some v) s).2.drawn = s.drawn :=
  lineReadBits_fixed_env v _ _ s

theorem lineReadBits_answers (v : Byte) (is : List Nat) (acc : Byte) (s : State) (rest : List Bit)
    (h : s.answers = is.map (fun i => v.getLsbD i) ++ rest) :
    (lineReadBits none is acc s).1 = is.foldl (fun a i => a ||| (Byte.ofBit (v.getLsbD i) <<< i)) acc
      ∧ (lineReadBits none is acc s).2.answers = rest ∧ (lineReadBits none is acc s).2.drawn = s.drawn := by
  induction is generalizing acc s with
  | nil => exact ⟨rfl, h, rfl⟩
  | cons i is ih =>
    simp only [lineReadBits, Option.map_none, lineReadBit_answer h, List.foldl_cons]
    obtain ⟨h1, h2, h3⟩ := ih _ (setSCL false { setSCL true (releaseSDA s) with
      answers := is.map (fun i => v.getLsbD i) ++ rest }) rfl
    exact ⟨h1, h2, h3⟩

/-- A read of a free byte takes eight answers, the most significant bit first (R62, R129). -/
theorem lineReadByte_answers (v : Byte) (s : State) (rest : List Bit) (h : s.answers = msbBits v ++ rest) :
    (lineReadByte none s).1 = v ∧ (lineReadByte none s).2.answers = rest
      ∧ (lineReadByte none s).2.drawn = s.drawn := by
  obtain ⟨h1, h2, h3⟩ := lineReadBits_answers v msbFirst 0#8 s rest h
  exact ⟨h1.trans (byte_of_bits v), h2, h3⟩

/-! ### Framing -/

/-- `Start(a)` leaves the clock low and the data line driven at `a[0]` (R124, R136). -/
@[simp] theorem lineStart_pins (a : Byte) (s : State) : (lineStart a s).pins = ⟨false, .output, a.getLsbD 0⟩ := rfl
@[simp] theorem lineStart_phase (a : Byte) (s : State) : (lineStart a s).phase = .active := rfl
@[simp] theorem lineStart_answers (a : Byte) (s : State) : (lineStart a s).answers = s.answers := rfl
@[simp] theorem lineStart_drawn (a : Byte) (s : State) : (lineStart a s).drawn = s.drawn := rfl

/-- `Stop()` leaves the pins idle (R125). -/
@[simp] theorem lineStop_pins (s : State) : (lineStop s).pins = Pins.idle := rfl
@[simp] theorem lineStop_phase (s : State) : (lineStop s).phase = .idle := rfl
@[simp] theorem lineStop_answers (s : State) : (lineStop s).answers = s.answers := rfl
@[simp] theorem lineStop_drawn (s : State) : (lineStop s).drawn = s.drawn := rfl

/-- `SendAck()` and `SendNack()` leave the clock low and the line released (R130, R131). -/
@[simp] theorem lineAcknowledge_pins (b : Bit) (s : State) : (lineAcknowledge b s).pins = ⟨false, .input, b⟩ := rfl
@[simp] theorem lineAcknowledge_answers (b : Bit) (s : State) : (lineAcknowledge b s).answers = s.answers := rfl
@[simp] theorem lineAcknowledge_drawn (b : Bit) (s : State) : (lineAcknowledge b s).drawn = s.drawn := rfl

theorem lineAcknowledge_frame (b : Bit) (s : State) : LineFrame s (lineAcknowledge b s) :=
  (driveSDA_frame b s).trans ((setSCL_frame true _).trans ((setSCL_frame false _).trans (releaseSDA_frame _)))

/-- A wait spins with the clock high and the line released (R132). -/
@[simp] theorem lineWaitBegin_pins (s : State) : (lineWaitBegin s).pins = ⟨true, .input, s.pins.sda⟩ := rfl
@[simp] theorem lineWaitBegin_answers (s : State) : (lineWaitBegin s).answers = s.answers := rfl
@[simp] theorem lineWaitBegin_drawn (s : State) : (lineWaitBegin s).drawn = s.drawn := rfl

theorem lineWaitBegin_frame (s : State) : LineFrame s (lineWaitBegin s) :=
  (releaseSDA_frame s).trans (setSCL_frame true _)

/-! ### The procedures one micro-operation at a time -/

theorem micro_frame (m : Micro) (s : State) : LineFrame s (m.run s) := by
  cases m with
  | drive b => exact driveSDA_frame b s
  | release => exact releaseSDA_frame s
  | scl b => exact setSCL_frame b s
  | sample x => exact sampleSDA_frame x s

theorem runMicros_frame (ms : List Micro) (s : State) : LineFrame s (runMicros ms s) := by
  induction ms generalizing s with
  | nil => exact .refl s
  | cons m ms ih => exact (micro_frame m s).trans (ih _)

/-- All the micro-operations of a primitive come to its procedure; `PHASE` is written after the last of them. -/
theorem runMicros_line (x : Option Byte) (p : Prim) (s : State) :
    runMicros (p.micros x) s =
      match p with
      | .start a => setPhase s.phase (lineStart a s)
      | .stop => setPhase s.phase (lineStop s)
      | .writeBit b => lineWriteBit b s
      | .readBit => (lineReadBit none s).2
      | .writeByte v => lineWriteByte v s
      | .readByte => (lineReadByte x s).2
      | .sendAck => lineAcknowledge false s
      | .sendNack => lineAcknowledge true s
      | .waitForAck => lineWaitBegin s := by
  cases p with
  | start a =>
    have e : runMicros (Prim.micros x (.start a)) s
        = lineWriteByte a (setSCL false (driveSDA false (setSCL true (driveSDA true s)))) := rfl
    rw [e]; rfl
  | _ => rfl

/-- How many micro-operations each primitive is. -/
theorem microCount_eq (p : Prim) :
    p.microCount =
      match p with
      | .start _ => 28
      | .stop => 4
      | .writeBit _ => 3
      | .readBit => 4
      | .writeByte _ => 24
      | .readByte => 32
      | .sendAck => 4
      | .sendNack => 4
      | .waitForAck => 2 := by cases p <;> rfl

end Sys2Proof.Machine
end

