-- ==== Sys2Proof/Laws/Memory.lean ====
section
/-! SUPPORT. The device register space: every operation keeps the canonical form, a read gives the last write. -/

namespace Sys2Proof.Machine

theorem wfFrom_cons (lo a : Nat) (v : Byte) (m : List Host.Cell) :
    Memory.wfFrom lo ((a, v) :: m) = true ↔
      lo ≤ a ∧ a < 64 ∧ v ≠ Memory.blank ∧ Memory.wfFrom (a + 1) m = true := by
  simp only [Memory.wfFrom, Bool.and_eq_true, decide_eq_true_eq, and_assoc]
  exact Iff.rfl

theorem wfFrom_mono {lo lo' : Nat} {m : List Host.Cell} (h : lo ≤ lo') (hm : Memory.wfFrom lo' m = true) :
    Memory.wfFrom lo m = true := by
  cases m with
  | nil => rfl
  | cons c m =>
    obtain ⟨a, v⟩ := c
    rw [wfFrom_cons] at hm ⊢
    exact ⟨h.trans hm.1, hm.2⟩

/-- Nothing is listed below the offset a canonical list starts at. -/
theorem read_below {lo a : Nat} {m : List Host.Cell} (hm : Memory.wfFrom lo m = true) (h : a < lo) :
    Memory.read m a = Memory.blank := by
  induction m generalizing lo with
  | nil => rfl
  | cons c m ih =>
    obtain ⟨b, v⟩ := c
    rw [wfFrom_cons] at hm
    have hb : b ≠ a := by omega
    simpa [Memory.read, hb] using ih hm.2.2.2 (by omega)

theorem write_wfFrom {lo a : Nat} {v : Byte} {m : List Host.Cell} (hm : Memory.wfFrom lo m = true)
    (hlo : lo ≤ a) (ha : a < 64) : Memory.wfFrom lo (Memory.write m a v) = true := by
  induction m generalizing lo with
  | nil =>
    by_cases hv : v = Memory.blank
    · simp [Memory.write, hv, Memory.wfFrom]
    · simp [Memory.write, hv, Memory.wfFrom, hlo, ha, Config.regCount]
  | cons c m ih =>
    obtain ⟨b, u⟩ := c
    have hc := (wfFrom_cons lo b u m).mp hm
    unfold Memory.write
    split_ifs with h1 hv h2 hv
    · exact hm
    · exact (wfFrom_cons ..).mpr ⟨hlo, ha, hv, (wfFrom_cons ..).mpr ⟨by omega, hc.2⟩⟩
    · exact wfFrom_mono (by omega) hc.2.2.2
    · exact (wfFrom_cons ..).mpr ⟨hlo, ha, hv, wfFrom_mono (by omega) hc.2.2.2⟩
    · exact (wfFrom_cons ..).mpr ⟨hc.1, hc.2.1, hc.2.2.1, ih hc.2.2.2 (by omega)⟩

/-- A write of a register keeps the canonical form. -/
theorem write_wf {a : Nat} {v : Byte} {m : List Host.Cell} (hm : Memory.wf m = true) (ha : a < 64) :
    Memory.wf (Memory.write m a v) = true := write_wfFrom hm (Nat.zero_le a) ha

/-- A read of the register written gives the value written. -/
theorem read_write_same {lo a : Nat} {v : Byte} {m : List Host.Cell} (hm : Memory.wfFrom lo m = true) :
    Memory.read (Memory.write m a v) a = v := by
  induction m generalizing lo with
  | nil => by_cases hv : v = Memory.blank <;> simp [Memory.write, Memory.read, hv]
  | cons c m ih =>
    obtain ⟨b, u⟩ := c
    have hc := (wfFrom_cons lo b u m).mp hm
    unfold Memory.write
    split_ifs with h1 hv h2 hv
    · have hb : b ≠ a := by omega
      simp [Memory.read, hb, hv, read_below hc.2.2.2 (show a < b + 1 by omega)]
    · simp [Memory.read]
    · rw [hv]; exact read_below hc.2.2.2 (by omega)
    · simp [Memory.read]
    · have hb : b ≠ a := by omega
      simpa [Memory.read, hb] using ih hc.2.2.2

/-- A read of any other register gives what it gave before. -/
theorem read_write_other {a b : Nat} {v : Byte} {m : List Host.Cell} (h : b ≠ a) :
    Memory.read (Memory.write m a v) b = Memory.read m b := by
  induction m with
  | nil =>
    have : a ≠ b := h.symm
    by_cases hv : v = Memory.blank <;> simp [Memory.write, Memory.read, hv, this]
  | cons c m ih =>
    obtain ⟨k, u⟩ := c
    have : a ≠ b := h.symm
    unfold Memory.write
    split_ifs with h1 hv h2 hv <;> simp_all [Memory.read]

theorem foldl_write_wf (f : Nat → Byte) (as : List Nat) (has : ∀ a ∈ as, a < 64) (m : List Host.Cell)
    (hm : Memory.wf m = true) : Memory.wf (as.foldl (fun m a => Memory.write m a (f a)) m) = true := by
  induction as generalizing m with
  | nil => exact hm
  | cons a as ih => exact ih (fun b hb => has b (by simp [hb])) _ (write_wf hm (has a (by simp)))

/-- The registers at the values of any function are in canonical form. -/
theorem ofFn_wf (f : Nat → Byte) : Memory.wf (Memory.ofFn f) = true := by
  unfold Memory.ofFn
  exact foldl_write_wf f _ (fun _ ha => List.mem_range.mp ha) _ rfl

theorem reset_memory_wf : Memory.wf State.reset.device.regs = true := rfl

/-! ### The device's events -/

theorem store_wf {v : Byte} {d : Device} (h : Memory.wf d.regs = true) : Memory.wf (d.store v).regs = true :=
  write_wf h d.ptr.isLt

theorem lose_wf (k : Nat) (d : Device) : Memory.wf (d.lose k).regs = true := ofFn_wf _

/-- Every event the reference device models keeps its registers in canonical form. -/
theorem event_wf {p : Prim} {d d' : Device} {es : List RegEvent} (h : Memory.wf d.regs = true)
    (he : d.event p = some (d', es)) : Memory.wf d'.regs = true := by
  cases p with
  | start a =>
    simp only [Device.event, Option.some.injEq, Prod.mk.injEq] at he
    rw [← he.1]
    unfold Device.onStart
    split_ifs <;> exact h
  | stop =>
    simp only [Device.event, Option.some.injEq, Prod.mk.injEq] at he
    rw [← he.1]; exact h
  | writeByte v =>
    simp only [Device.event, Device.onWriteByte] at he
    split at he
    · split_ifs at he; cases he; exact h
    · cases he; exact store_wf h
    · cases he
  | readByte | sendAck | sendNack | waitForAck =>
    simp only [Device.event, Device.onReadByte, Device.onSendAck, Device.onSendNack, Device.onWaitForAck] at he
    split at he <;> first | (cases he; done) | (cases he; exact h)
  | writeBit _ | readBit => cases he

end Sys2Proof.Machine
end

