-- ==== Sys2Proof/Laws/Ops.lean ====
section
/-! SUPPORT. What the shared operations do, said once each: a primitive, the run of a sequence, its end, a resumed wait, a bus
command, a fault, a reset. -/

namespace Sys2Proof.Machine

/-! ### What no primitive touches -/

/-- `t` differs from `s` at most in the pins, the phase, the environment and the pin, primitive and register traces. -/
structure BusFrame (s t : State) : Prop where
  pc : t.pc = s.pc
  res : t.res = s.res
  buf : t.buf = s.buf
  bufn : t.bufn = s.bufn
  snap : t.snap = s.snap
  err : t.err = s.err
  errcode : t.errcode = s.errcode
  errpc : t.errpc = s.errpc
  busy : t.busy = s.busy
  handle : t.handle = s.handle
  stream : t.stream = s.stream
  resetReq : t.resetReq = s.resetReq
  resetAfter : t.resetAfter = s.resetAfter
  attached : t.attached = s.attached
  results : t.trace.results = s.trace.results

theorem BusFrame.refl (s : State) : BusFrame s s := by constructor <;> rfl

theorem BusFrame.trans {s t u : State} (h : BusFrame s t) (k : BusFrame t u) : BusFrame s u := by
  constructor
  · exact k.pc.trans h.pc
  · exact k.res.trans h.res
  · exact k.buf.trans h.buf
  · exact k.bufn.trans h.bufn
  · exact k.snap.trans h.snap
  · exact k.err.trans h.err
  · exact k.errcode.trans h.errcode
  · exact k.errpc.trans h.errpc
  · exact k.busy.trans h.busy
  · exact k.handle.trans h.handle
  · exact k.stream.trans h.stream
  · exact k.resetReq.trans h.resetReq
  · exact k.resetAfter.trans h.resetAfter
  · exact k.attached.trans h.attached
  · exact k.results.trans h.results

theorem LineFrame.bus {s t : State} (h : LineFrame s t) : BusFrame s t :=
  ⟨h.pc, h.res, h.buf, h.bufn, h.snap, h.err, h.errcode, h.errpc, h.busy, h.handle, h.stream, h.resetReq, h.resetAfter,
    h.attached, h.results⟩

theorem setPhase_frame (p : Phase) (s : State) : BusFrame s (setPhase p s) := by constructor <;> rfl

theorem lineStart_frame (a : Byte) (s : State) : BusFrame s (lineStart a s) :=
  (((driveSDA_frame true s).trans ((setSCL_frame true _).trans ((driveSDA_frame false _).trans
    ((setSCL_frame false _).trans (lineWriteByte_frame a _))))).bus).trans (setPhase_frame _ _)

theorem lineStop_frame (s : State) : BusFrame s (lineStop s) :=
  (((driveSDA_frame false s).trans ((setSCL_frame true _).trans ((driveSDA_frame true _).trans
    (releaseSDA_frame _)))).bus).trans (setPhase_frame _ _)

theorem loseDevice_frame (s : State) : BusFrame s (loseDevice s) := by
  constructor <;> rfl

theorem logRegs_frame (es : List RegEvent) (s : State) : BusFrame s (logRegs es s) := by constructor <;> rfl

theorem deviceEvent_frame (p : Prim) (s : State) : BusFrame s (deviceEvent p s) := by
  unfold deviceEvent
  split
  · constructor <;> rfl
  · exact loseDevice_frame s

theorem logCall_frame (p : Prim) (r : Option Byte) (s : State) : BusFrame s (logCall p r s) := by
  constructor <;> rfl

/-- A primitive touches nothing but the bus. -/
theorem runPrim_frame (p : Prim) (s : State) : BusFrame s (runPrim p s).2 := by
  cases p with
  | start a => exact (deviceEvent_frame _ s).trans ((lineStart_frame a _).trans (logCall_frame _ _ _))
  | stop => exact (deviceEvent_frame _ s).trans ((lineStop_frame _).trans (logCall_frame _ _ _))
  | writeBit b => exact (deviceEvent_frame _ s).trans ((lineWriteBit_frame b _).bus.trans (logCall_frame _ _ _))
  | readBit => exact (deviceEvent_frame _ s).trans ((lineReadBit_frame none _).bus.trans (logCall_frame _ _ _))
  | writeByte v => exact (deviceEvent_frame _ s).trans ((lineWriteByte_frame v _).bus.trans (logCall_frame _ _ _))
  | readByte =>
    exact (deviceEvent_frame _ s).trans ((lineReadByte_frame _ _).bus.trans ((logCall_frame _ _ _).trans (logRegs_frame _ _)))
  | sendAck | sendNack =>
    exact (deviceEvent_frame _ s).trans ((lineAcknowledge_frame _ _).bus.trans (logCall_frame _ _ _))
  | waitForAck => exact (deviceEvent_frame _ s).trans ((lineWaitBegin_frame _).bus.trans (logCall_frame _ _ _))

theorem sampleAck_frame (s : State) : LineFrame s (sampleAck s).2 := sampleSDA_frame _ s

@[simp] theorem sampleAck_pins (s : State) : (sampleAck s).2.pins = s.pins := sampleSDA_pins _ s

@[simp] theorem sampleAck_trace (s : State) : (sampleAck s).2.trace = s.trace := sampleSDA_trace _ s

/-! ### The environment's part of a primitive -/

@[simp] theorem loseDevice_pins (s : State) : (loseDevice s).pins = s.pins := rfl

@[simp] theorem loseDevice_phase (s : State) : (loseDevice s).phase = s.phase := rfl

@[simp] theorem loseDevice_answers (s : State) : (loseDevice s).answers = s.answers := rfl

@[simp] theorem loseDevice_trace (s : State) : (loseDevice s).trace = s.trace := rfl

/-- A lost device promises nothing (R81). -/
@[simp] theorem loseDevice_mode (s : State) : (loseDevice s).device.mode = .free := rfl

@[simp] theorem deviceEvent_pins (p : Prim) (s : State) : (deviceEvent p s).pins = s.pins := by
  unfold deviceEvent; split <;> rfl

@[simp] theorem deviceEvent_phase (p : Prim) (s : State) : (deviceEvent p s).phase = s.phase := by
  unfold deviceEvent; split <;> rfl

@[simp] theorem deviceEvent_answers (p : Prim) (s : State) : (deviceEvent p s).answers = s.answers := by
  unfold deviceEvent; split <;> rfl

@[simp] theorem deviceEvent_tracePins (p : Prim) (s : State) : (deviceEvent p s).trace.pins = s.trace.pins := by
  unfold deviceEvent; split <;> rfl

@[simp] theorem deviceEvent_traceCalls (p : Prim) (s : State) :
    (deviceEvent p s).trace.calls = s.trace.calls := by
  unfold deviceEvent; split <;> rfl

/-- An event the reference device models. -/
theorem deviceEvent_some {s : State} {p : Prim} {d : Device} {es : List RegEvent} (he : s.device.event p = some (d, es)) :
    deviceEvent p s = logRegs es { s with device := d } := by
  unfold deviceEvent; rw [he]

/-- An event for which the reference device promises nothing. -/
theorem deviceEvent_none {s : State} {p : Prim} (he : s.device.event p = none) : deviceEvent p s = loseDevice s := by
  unfold deviceEvent; rw [he]

theorem loseDevice_wf (s : State) : Memory.wf (loseDevice s).device.regs = true := lose_wf _ _

/-- Whatever the event, the reference device's registers stay in canonical form. -/
theorem deviceEvent_wf {s : State} (p : Prim) (h : Memory.wf s.device.regs = true) :
    Memory.wf (deviceEvent p s).device.regs = true := by
  unfold deviceEvent
  split
  · next he => exact event_wf h he
  · exact loseDevice_wf s

/-- A primitive changes the reference device by its one event, if at all. -/
theorem runPrim_device (p : Prim) (s : State) : (runPrim p s).2.device = (deviceEvent p s).device := by
  cases p with
  | start a | stop | writeBit b | writeByte v | sendAck | sendNack | waitForAck => rfl
  | readBit => exact (lineReadBit_frame none _).device
  | readByte => exact (lineReadByte_frame _ _).device

/-- A primitive that reads no byte adds to the register trace what its one event adds. -/
theorem runPrim_regs {p : Prim} (hp : p ≠ .readByte) (s : State) :
    (runPrim p s).2.trace.regs = (deviceEvent p s).trace.regs := by
  cases p with
  | start a =>
    have h1 := (driveSDA_frame true (deviceEvent (.start a) s)).trans ((setSCL_frame true _).trans
      ((driveSDA_frame false _).trans ((setSCL_frame false _).trans (lineWriteByte_frame a _))))
    exact h1.regs
  | stop =>
    have h1 := (driveSDA_frame false (deviceEvent .stop s)).trans ((setSCL_frame true _).trans
      ((driveSDA_frame true _).trans (releaseSDA_frame _)))
    exact h1.regs
  | writeBit b => exact (lineWriteBit_frame b _).regs
  | writeByte v => exact (lineWriteByte_frame v _).regs
  | sendAck | sendNack => exact (lineAcknowledge_frame _ _).regs
  | waitForAck => exact (lineWaitBegin_frame _).regs
  | readBit => exact (lineReadBit_frame none _).regs
  | readByte => exact absurd rfl hp

/-- A byte read adds the access of the reference device, with the byte that the block read. -/
theorem runPrim_readByte_regs {s : State} {v : Byte} (hv : (runPrim .readByte s).1 = some v) :
    (runPrim .readByte s).2.trace.regs = s.device.readTrace v ++ (deviceEvent .readByte s).trace.regs := by
  have e : (lineReadByte (byteAnswer s) (deviceEvent .readByte s)).1 = v := Option.some.inj hv
  show s.device.readTrace (lineReadByte (byteAnswer s) (deviceEvent .readByte s)).1
      ++ (lineReadByte (byteAnswer s) (deviceEvent .readByte s)).2.trace.regs = _
  rw [e, (lineReadByte_frame _ _).regs]

/-- A primitive is one entry of the primitive trace, with the value it returned. -/
theorem runPrim_calls (p : Prim) (s : State) :
    (runPrim p s).2.trace.calls = ⟨p, (runPrim p s).1⟩ :: s.trace.calls := by
  cases p with
  | start a =>
    have h1 := (driveSDA_frame true (deviceEvent (.start a) s)).trans ((setSCL_frame true _).trans
      ((driveSDA_frame false _).trans ((setSCL_frame false _).trans (lineWriteByte_frame a _))))
    exact congrArg _ (h1.calls.trans (by simp))
  | stop =>
    have h1 := (driveSDA_frame false (deviceEvent .stop s)).trans ((setSCL_frame true _).trans
      ((driveSDA_frame true _).trans (releaseSDA_frame _)))
    exact congrArg _ (h1.calls.trans (by simp))
  | writeBit b => exact congrArg _ ((lineWriteBit_frame b _).calls.trans (by simp))
  | writeByte v => exact congrArg _ ((lineWriteByte_frame v _).calls.trans (by simp))
  | sendAck | sendNack => exact congrArg _ ((lineAcknowledge_frame _ _).calls.trans (by simp))
  | waitForAck => exact congrArg _ ((lineWaitBegin_frame _).calls.trans (by simp))
  | readBit => exact congrArg _ ((lineReadBit_frame none _).calls.trans (by simp))
  | readByte => exact congrArg _ ((lineReadByte_frame _ _).calls.trans (by simp))

/-- A primitive returns a value exactly when it reads. -/
theorem runPrim_reads (p : Prim) (s : State) :
    (runPrim p s).1.toList.length = (BusOp.prim p).reads := by
  cases p <;> rfl

/-! ### Where a primitive leaves the pins and the phase -/

/-- The pins after a primitive: the clock low, but for `Stop()` and for a wait (R133). -/
theorem runPrim_pins (p : Prim) (s : State) :
    (runPrim p s).2.pins =
      match p with
      | .start a => ⟨false, .output, a.getLsbD 0⟩
      | .stop => Pins.idle
      | .writeBit b => ⟨false, .output, b⟩
      | .readBit => ⟨false, .input, s.pins.sda⟩
      | .writeByte v => ⟨false, .output, v.getLsbD 0⟩
      | .readByte => ⟨false, .input, s.pins.sda⟩
      | .sendAck => ⟨false, .input, false⟩
      | .sendNack => ⟨false, .input, true⟩
      | .waitForAck => ⟨true, .input, s.pins.sda⟩ := by
  cases p <;> simp [runPrim]

/-- The phase after a primitive, whatever it was before. -/
@[simp] def Prim.endPhase : Prim → Phase → Phase
  | .start _, _ => .active
  | .stop, _ => .idle
  | _, ph => ph

/-- Only `Start` and `Stop` write `PHASE` (R26). -/
theorem runPrim_phase (p : Prim) (s : State) : (runPrim p s).2.phase = p.endPhase s.phase := by
  cases p with
  | start a | stop => rfl
  | writeBit b => exact (lineWriteBit_frame b _).phase.trans (deviceEvent_phase _ s)
  | writeByte v => exact (lineWriteByte_frame v _).phase.trans (deviceEvent_phase _ s)
  | sendAck => exact (lineAcknowledge_frame false _).phase.trans (deviceEvent_phase _ s)
  | sendNack => exact (lineAcknowledge_frame true _).phase.trans (deviceEvent_phase _ s)
  | waitForAck => exact (lineWaitBegin_frame _).phase.trans (deviceEvent_phase _ s)
  | readBit => exact (lineReadBit_frame none _).phase.trans (deviceEvent_phase _ s)
  | readByte => exact (lineReadByte_frame _ _).phase.trans (deviceEvent_phase _ s)

/-! ### The run of a sequence -/

theorem runOps_nil (rx : List Byte) (fin : Finish) (len : Nat) (s : State) :
    runOps [] rx fin len s = finish fin rx len s := rfl

/-- An entry that is no wait. -/
theorem runOps_prim {op : BusOp} {rx : List Byte} (h : op.resolve rx ≠ .waitForAck) (rest : List BusOp) (fin : Finish)
    (len : Nat) (s : State) :
    runOps (op :: rest) rx fin len s =
      runOps rest (rx ++ (runPrim (op.resolve rx) s).1.toList) fin len (runPrim (op.resolve rx) s).2 := by
  simp [runOps, h]

/-- A wait whose first sample is 0 lets the command go on. -/
theorem runOps_wait_go {s : State} (rest : List BusOp) (rx : List Byte) (fin : Finish) (len : Nat)
    (h : (sampleAck (runPrim .waitForAck s).2).1 = false) :
    runOps (.prim .waitForAck :: rest) rx fin len s =
      runOps rest rx fin len (setSCL false (sampleAck (runPrim .waitForAck s).2).2) := by
  have hn : (runPrim .waitForAck s).1 = none := rfl
  simp [runOps, BusOp.resolve, h, hn]

/-- A wait whose first sample is 1 holds the command up. -/
theorem runOps_wait_held {s : State} (rest : List BusOp) (rx : List Byte) (fin : Finish) (len : Nat)
    (h : (sampleAck (runPrim .waitForAck s).2).1 = true) :
    runOps (.prim .waitForAck :: rest) rx fin len s =
      { (sampleAck (runPrim .waitForAck s).2).2 with busy := some ⟨rest, rx, fin, len⟩ } := by
  have hn : (runPrim .waitForAck s).1 = none := rfl
  simp [runOps, BusOp.resolve, h, hn]

theorem resolve_eq_wait {op : BusOp} {rx : List Byte} (h : op.resolve rx = .waitForAck) : op = .prim .waitForAck := by
  cases op with
  | prim p => exact congrArg _ h
  | writeBack m b => cases h

/-- THE induction over a sequence: a property of what is still to run, of the bytes read and of the state, which every
primitive and every wait that ends keeps, holds where the sequence ends and where a wait holds it up. -/
theorem runOps_rule {fin : Finish} {len : Nat} (P : List BusOp → List Byte → State → Prop) (Q : State → Prop)
    (hprim : ∀ op rest rx s, P (op :: rest) rx s → op.resolve rx ≠ .waitForAck →
      P rest (rx ++ (runPrim (op.resolve rx) s).1.toList) (runPrim (op.resolve rx) s).2)
    (hgo : ∀ rest rx s, P (.prim .waitForAck :: rest) rx s → (sampleAck (runPrim .waitForAck s).2).1 = false →
      P rest rx (setSCL false (sampleAck (runPrim .waitForAck s).2).2))
    (hheld : ∀ rest rx s, P (.prim .waitForAck :: rest) rx s → (sampleAck (runPrim .waitForAck s).2).1 = true →
      Q { (sampleAck (runPrim .waitForAck s).2).2 with busy := some ⟨rest, rx, fin, len⟩ })
    (hend : ∀ rx s, P [] rx s → Q (finish fin rx len s))
    (ops : List BusOp) (rx : List Byte) (s : State) (h : P ops rx s) : Q (runOps ops rx fin len s) := by
  induction ops generalizing rx s with
  | nil => exact hend rx s h
  | cons op rest ih =>
    by_cases hw : op.resolve rx = .waitForAck
    · obtain rfl := resolve_eq_wait hw
      cases hs : (sampleAck (runPrim .waitForAck s).2).1 with
      | false => rw [runOps_wait_go rest rx fin len hs]; exact ih _ _ (hgo rest rx s h hs)
      | true => rw [runOps_wait_held rest rx fin len hs]; exact hheld rest rx s h hs
    · rw [runOps_prim hw]; exact ih _ _ (hprim op rest rx s h hw)

/-- EVERYTHING a run can come to: its end, with the results written from the bytes read and nothing else of the block changed
but the bus; or a wait that holds it up, with nothing changed but the bus (R201). -/
theorem runOps_cases (ops : List BusOp) (rx : List Byte) (fin : Finish) (len : Nat) (s : State) :
    (∃ u rx', BusFrame s u ∧ rx'.length = rx.length + readCount ops
        ∧ runOps ops rx fin len s = finish fin rx' len u) ∨
      (∃ u j, BusFrame s u ∧ j.fin = fin ∧ j.len = len ∧ j.rx.length + readCount j.todo = rx.length + readCount ops
        ∧ runOps ops rx fin len s = { u with busy := some j }) := by
  refine runOps_rule
    (P := fun todo rx' u => BusFrame s u ∧ rx'.length + readCount todo = rx.length + readCount ops)
    (Q := fun t => (∃ u rx', BusFrame s u ∧ rx'.length = rx.length + readCount ops ∧ t = finish fin rx' len u) ∨
      (∃ u j, BusFrame s u ∧ j.fin = fin ∧ j.len = len ∧ j.rx.length + readCount j.todo = rx.length + readCount ops
        ∧ t = { u with busy := some j }))
    ?_ ?_ ?_ ?_ ops rx s ⟨.refl s, rfl⟩
  · rintro op rest rx' u ⟨hf, hn⟩ _
    refine ⟨hf.trans (runPrim_frame _ _), ?_⟩
    rw [List.length_append, runPrim_reads]
    cases op <;> simp only [BusOp.resolve, readCount, BusOp.reads] at hn ⊢ <;> omega
  · rintro rest rx' u ⟨hf, hn⟩ _
    exact ⟨(hf.trans (runPrim_frame _ _)).trans ((sampleAck_frame _).trans (setSCL_frame _ _)).bus,
      by simpa [readCount, BusOp.reads] using hn⟩
  · rintro rest rx' u ⟨hf, hn⟩ _
    exact .inr ⟨_, _, (hf.trans (runPrim_frame _ _)).trans (sampleAck_frame _).bus, rfl, rfl,
      by simpa [readCount, BusOp.reads] using hn, rfl⟩
  · rintro rx' u ⟨hf, hn⟩
    exact .inl ⟨u, rx', hf, by simpa [readCount] using hn, rfl⟩

/-! ### A sequence that runs through -/

/-- The sequence `ops` runs through from `s` to `u`, every wait ended by its first sample, reading on from `rx` to `rx'`. -/
inductive Chain : List BusOp → List Byte → State → List Byte → State → Prop
  | nil (rx : List Byte) (s : State) : Chain [] rx s rx s
  | consPrim {op : BusOp} {rest : List BusOp} {rx rx' : List Byte} {s u : State} (h : op.resolve rx ≠ .waitForAck)
      (k : Chain rest (rx ++ (runPrim (op.resolve rx) s).1.toList) (runPrim (op.resolve rx) s).2 rx' u) :
      Chain (op :: rest) rx s rx' u
  | consWait {rest : List BusOp} {rx rx' : List Byte} {s u : State} (h : (sampleAck (runPrim .waitForAck s).2).1 = false)
      (k : Chain rest rx (setSCL false (sampleAck (runPrim .waitForAck s).2).2) rx' u) :
      Chain (.prim .waitForAck :: rest) rx s rx' u

theorem Chain.append {o₁ o₂ : List BusOp} {rx rx' rx'' : List Byte} {s t u : State} (h : Chain o₁ rx s rx' t)
    (k : Chain o₂ rx' t rx'' u) : Chain (o₁ ++ o₂) rx s rx'' u := by
  induction h with
  | nil => exact k
  | consPrim h _ ih => exact .consPrim h (ih k)
  | consWait h _ ih => exact .consWait h (ih k)

theorem Chain.prim {op : BusOp} {rx : List Byte} (h : op.resolve rx ≠ .waitForAck) (s : State) :
    Chain [op] rx s (rx ++ (runPrim (op.resolve rx) s).1.toList) (runPrim (op.resolve rx) s).2 := .consPrim h (.nil _ _)

theorem Chain.wait {s : State} (rx : List Byte) (h : (sampleAck (runPrim .waitForAck s).2).1 = false) :
    Chain [.prim .waitForAck] rx s rx (setSCL false (sampleAck (runPrim .waitForAck s).2).2) := .consWait h (.nil _ _)

/-- Whatever follows it, a sequence that runs through is run through. -/
theorem Chain.run {ops : List BusOp} {rx rx' : List Byte} {s u : State} (h : Chain ops rx s rx' u) (rest : List BusOp)
    (fin : Finish) (len : Nat) : runOps (ops ++ rest) rx fin len s = runOps rest rx' fin len u := by
  induction h with
  | nil => rfl
  | consPrim h _ ih => rw [List.cons_append, runOps_prim h, ih]
  | consWait h _ ih => rw [List.cons_append, runOps_wait_go _ _ _ _ h, ih]

/-- A sequence that runs through, to its end. -/
theorem Chain.finish {ops : List BusOp} {rx rx' : List Byte} {s u : State} (h : Chain ops rx s rx' u) (fin : Finish)
    (len : Nat) : runOps ops rx fin len s = Machine.finish fin rx' len u := by
  have := h.run [] fin len
  rwa [List.append_nil] at this

/-! ### A run up to a reset -/

theorem waitUntil_frame : ∀ (n : Nat) (s : State), LineFrame s (waitUntil n s).1
  | 0, s => .refl s
  | 1, s => sampleAck_frame s
  | n + 2, s => by
    simp only [waitUntil]
    split
    · exact (sampleAck_frame s).trans (waitUntil_frame (n + 1) _)
    · exact (sampleAck_frame s).trans (setSCL_frame _ _)

theorem abandon_frame (n : Nat) (p : Prim) (s : State) : BusFrame s (abandon n p s) := by
  have h : BusFrame s (logCall p none (runMicros ((p.micros (byteAnswer s)).take n) s)) :=
    (runMicros_frame _ s).bus.trans (logCall_frame p none _)
  unfold abandon
  split_ifs
  · exact .refl s
  · exact h.trans (loseDevice_frame _)
  · exact h

theorem runUntil_zero (ops : List BusOp) (rx : List Byte) (s : State) : runUntil ops rx 0 s = s := by
  cases ops with
  | nil => rfl
  | cons op rest =>
    have : 0 < (op.resolve rx).microCount := by rw [microCount_eq]; cases op.resolve rx <;> simp
    simp [runUntil, this, abandon]

/-- What is done before a reset touches nothing but the bus. -/
theorem runUntil_frame (ops : List BusOp) (rx : List Byte) (n : Nat) (s : State) : BusFrame s (runUntil ops rx n s) := by
  induction ops generalizing rx n s with
  | nil => exact .refl s
  | cons op rest ih =>
    have hp := runPrim_frame (op.resolve rx) s
    simp only [runUntil]
    split_ifs
    · exact abandon_frame _ _ _
    · have hw := (waitUntil_frame (n - (op.resolve rx).microCount) (runPrim (op.resolve rx) s).2).bus
      split
      · next e => rw [e] at hw; exact hp.trans hw
      · next e => rw [e] at hw; exact hp.trans (hw.trans (ih _ _ _))
    · exact hp.trans (ih _ _ _)

theorem resumeUntil_frame (j : Job) (n : Nat) (s : State) : BusFrame s (resumeUntil j n s) := by
  have hw := (waitUntil_frame n s).bus
  unfold resumeUntil
  split
  · next e => rw [e] at hw; exact hw
  · next e => rw [e] at hw; exact hw.trans (runUntil_frame _ _ _ _)

theorem abandon_wf (n : Nat) (p : Prim) {s : State} (h : Memory.wf s.device.regs = true) :
    Memory.wf (abandon n p s).device.regs = true := by
  have h' : Memory.wf (logCall p none (runMicros ((p.micros (byteAnswer s)).take n) s)).device.regs = true := by
    rw [logCall_device, (runMicros_frame _ s).device]; exact h
  unfold abandon
  split_ifs
  · exact h
  · exact loseDevice_wf _
  · exact h'

theorem runUntil_wf (ops : List BusOp) (rx : List Byte) (n : Nat) {s : State} (h : Memory.wf s.device.regs = true) :
    Memory.wf (runUntil ops rx n s).device.regs = true := by
  induction ops generalizing rx n s with
  | nil => exact h
  | cons op rest ih =>
    have hp : Memory.wf (runPrim (op.resolve rx) s).2.device.regs = true := by
      rw [runPrim_device]; exact deviceEvent_wf _ h
    simp only [runUntil]
    split_ifs
    · exact abandon_wf _ _ h
    · have hw := (waitUntil_frame (n - (op.resolve rx).microCount) (runPrim (op.resolve rx) s).2).device
      split
      · next e => rw [e] at hw; rw [hw]; exact hp
      · next e => rw [e] at hw; exact ih _ _ (by rw [hw]; exact hp)
    · exact ih _ _ hp

theorem resumeUntil_wf (j : Job) (n : Nat) {s : State} (h : Memory.wf s.device.regs = true) :
    Memory.wf (resumeUntil j n s).device.regs = true := by
  have hw := (waitUntil_frame n s).device
  unfold resumeUntil
  split
  · next e => rw [e] at hw; rw [hw]; exact h
  · next e => rw [e] at hw; exact runUntil_wf _ _ _ (by rw [hw]; exact h)

/-- How many micro-operations an entry is that runs through, a wait with its one sample and the fall of the clock. -/
def BusOp.microCount : BusOp → Nat
  | .prim .waitForAck => 4
  | .prim p => p.microCount
  | .writeBack _ _ => 24

/-- How many micro-operations a sequence is that runs through. -/
def microsOf (ops : List BusOp) : Nat := (ops.map BusOp.microCount).sum

theorem resolve_microCount {op : BusOp} {rx : List Byte} (h : op.resolve rx ≠ .waitForAck) :
    (op.resolve rx).microCount = op.microCount := by
  cases op with
  | prim p => cases p <;> first | rfl | exact absurd rfl h
  | writeBack m b => rfl

/-- A sequence that runs through, before a reset that lands `n` micro-operations after its end. -/
theorem Chain.until {ops : List BusOp} {rx rx' : List Byte} {s u : State} (h : Chain ops rx s rx' u) (rest : List BusOp)
    (n : Nat) : runUntil (ops ++ rest) rx (microsOf ops + n) s = runUntil rest rx' n u := by
  induction h with
  | nil => simp [microsOf]
  | @consPrim op ops rx rx' s u h _ ih =>
    have e : microsOf (op :: ops) + n = (op.resolve rx).microCount + (microsOf ops + n) := by
      simp [microsOf, resolve_microCount h, Nat.add_assoc]
    rw [List.cons_append, e, runUntil]
    simp only [Nat.not_lt.mpr (Nat.le_add_right _ _), if_false, h, Nat.add_sub_cancel_left]
    exact ih
  | @consWait ops rx rx' s u h _ ih =>
    have e : microsOf (.prim .waitForAck :: ops) + n = Prim.waitForAck.microCount + (microsOf ops + n + 2) := by
      simp only [microsOf, List.map_cons, List.sum_cons, BusOp.microCount]
      rw [show Prim.waitForAck.microCount = 2 from rfl]; omega
    have hn : (runPrim .waitForAck s).1 = none := rfl
    rw [List.cons_append, e, runUntil]
    simp only [BusOp.resolve, Nat.not_lt.mpr (Nat.le_add_right _ _), if_false, if_true, Nat.add_sub_cancel_left, waitUntil, h,
      Bool.false_eq_true, hn, Option.toList_none, List.append_nil]
    exact ih

/-! ### The end of a command, a resumed wait, a bus command -/

theorem finish_nothing (rx : List Byte) (len : Nat) (s : State) :
    finish .nothing rx len s = advance len { s with busy := none } := rfl

theorem finish_toRes (rx : List Byte) (len : Nat) (s : State) :
    finish .toRes rx len s = advance len (setRes (rx.getLastD 0#8).zext16 { s with busy := none }) := rfl

theorem finish_toBuf (rx : List Byte) (len : Nat) (s : State) :
    finish .toBuf rx len s = advance len (setBuf rx { s with busy := none }) := rfl

theorem finish_toSnap (rx : List Byte) (len : Nat) (s : State) :
    finish .toSnap rx len s = advance len (setSnap (snapshotOf rx) { s with busy := none }) := rfl

/-- The end of a command leaves the pins, the phase, the faults, the parameters and the environment alone. -/
theorem finish_rest (fin : Finish) (rx : List Byte) (len : Nat) (s : State) :
    (finish fin rx len s).pins = s.pins ∧ (finish fin rx len s).phase = s.phase ∧ (finish fin rx len s).busy = none
      ∧ (finish fin rx len s).pc = s.pc + BitVec.ofNat 16 len ∧ SameFault s (finish fin rx len s)
      ∧ SameRun s (finish fin rx len s) ∧ (finish fin rx len s).answers = s.answers
      ∧ (finish fin rx len s).drawn = s.drawn ∧ (finish fin rx len s).device = s.device
      ∧ (finish fin rx len s).trace.pins = s.trace.pins ∧ (finish fin rx len s).trace.calls = s.trace.calls
      ∧ (finish fin rx len s).trace.regs = s.trace.regs := by
  cases fin <;> simp [finish, writeResult, SameFault, SameRun]

/-- A wait that samples 1 stays where it is. -/
theorem resume_held {j : Job} {s : State} (h : (sampleAck s).1 = true) : resume j s = (sampleAck s).2 := by
  simp [resume, h]

/-- A wait that samples 0 lowers the clock and runs the rest of the command. -/
theorem resume_go {j : Job} {s : State} (h : (sampleAck s).1 = false) :
    resume j s = runOps j.todo j.rx j.fin j.len (setSCL false { (sampleAck s).2 with busy := none }) := by
  simp [resume, h]

/-- A bus command in the phase it needs. -/
theorem busCommand_run {need : Phase} {s : State} (h : s.phase = need) (ops : List BusOp) (fin : Finish) (len : Nat) :
    busCommand need ops fin len s = .next (runOps ops [] fin len s) := by
  simp [busCommand, h]

/-- A bus command in the other phase raises PROTOCOL (R135). -/
theorem busCommand_protocol {need : Phase} {s : State} (h : s.phase ≠ need) (ops : List BusOp) (fin : Finish)
    (len : Nat) : busCommand need ops fin len s = .next (raise .protocol s) := by
  simp [busCommand, h]

/-! ### The reset -/

/-- The reset leaves the parameters and the oracle's answers, and puts every register of the block to its reset value (R260). -/
theorem hostReset_block (s : State) :
    (hostReset s).pins = Pins.idle ∧ (hostReset s).pc = 0#16 ∧ (hostReset s).res = 0#16
      ∧ (hostReset s).buf = List.replicate 56 0#8 ∧ (hostReset s).bufn = 0#6 ∧ (hostReset s).snap = Snapshot.epoch
      ∧ (hostReset s).phase = .idle ∧ (hostReset s).err = false ∧ (hostReset s).busy = none
      ∧ (hostReset s).resetReq = false ∧ (hostReset s).resetAfter = 0
      ∧ (hostReset s).handle = s.handle ∧ (hostReset s).stream = s.stream
      ∧ (hostReset s).answers = s.answers ∧ (hostReset s).attached = s.attached :=
  ⟨rfl, rfl, rfl, rfl, rfl, rfl, rfl, rfl, rfl, rfl, rfl, rfl, rfl, rfl, rfl⟩

theorem hostReset_wf {s : State} (h : Memory.wf s.device.regs = true) :
    Memory.wf (hostReset s).device.regs = true := by
  show Memory.wf (if s.phase = .active then loseDevice s else s).device.regs = true
  split
  · exact loseDevice_wf s
  · exact h

end Sys2Proof.Machine
end

