-- ==== Sys2Proof/Laws/Bench.lean ====
section
/-! SUPPORT. Sequences that run through because their waits end at once: against the reference device (spec/20_memory.md R83), and
against an oracle whose answers stand in the state (R73). The reference device follows the primitive trace in both (R75). -/

namespace Sys2Proof.Machine

/-! ### A primitive with a known environment -/

/-- From `s` to `u` nothing of the block changed but the bus; the phase, the reference device, the new entries of the register
trace (newest first), the answers still to come are as given; no free value was drawn. -/
structure Ran (s : State) (ph : Phase) (d : Device) (es : List RegEvent) (answers : List Bit) (u : State) : Prop where
  frame : BusFrame s u
  phase : u.phase = ph
  device : u.device = d
  regs : u.trace.regs = es ++ s.trace.regs
  answers : u.answers = answers
  drawn : u.drawn = s.drawn

theorem Ran.trans {s t u : State} {ph ph' : Phase} {d d' : Device} {es es' : List RegEvent} {a a' : List Bit}
    (h : Ran s ph d es a t) (k : Ran t ph' d' es' a' u) : Ran s ph' d' (es' ++ es) a' u :=
  ⟨h.frame.trans k.frame, k.phase, k.device, by rw [k.regs, h.regs, List.append_assoc], k.answers,
    k.drawn.trans h.drawn⟩

/-- The answers an environment spends on `n` waits it ends at once: none where the reference device answers. -/
def acks (attached : Bool) (n : Nat) : List Bit := if attached then [] else List.replicate n false

/-- The answers an environment spends on sending the bytes `ds`. -/
def sent (attached : Bool) (ds : List Byte) : List Bit := if attached then [] else ds.flatMap msbBits

theorem acks_succ (a : Bool) (n : Nat) : acks a (n + 1) = acks a 1 ++ acks a n := by cases a <;> rfl

theorem acks_add (a : Bool) (m n : Nat) : acks a (m + n) = acks a m ++ acks a n := by
  cases a
  · exact List.replicate_append_replicate.symm
  · rfl

theorem sent_cons (a : Bool) (v : Byte) (vs : List Byte) : sent a (v :: vs) = sent a [v] ++ sent a vs := by
  cases a <;> simp [sent]

/-- The reference device models the event of `p`, and `p` reads no byte. -/
theorem runPrim_modelled {s : State} {p : Prim} {d : Device} {es : List RegEvent} (hp : p ≠ .readByte)
    (he : s.device.event p = some (d, es)) :
    Ran s (p.endPhase s.phase) d es s.answers (runPrim p s).2 := by
  refine ⟨runPrim_frame p s, runPrim_phase p s, ?_, ?_, ?_, ?_⟩
  · rw [runPrim_device, deviceEvent_some he]; rfl
  · rw [runPrim_regs hp, deviceEvent_some he]; rfl
  all_goals
    cases p with
    | start a | stop | writeBit b | writeByte v | sendAck | sendNack | waitForAck =>
      simp [runPrim, deviceEvent_some he]
    | readBit => cases he
    | readByte => exact absurd rfl hp

/-- A byte read from the reference device in `D_READ`: the byte is what it sends if it answers, or the oracle's next eight answers;
the pointer moves on and the access stands in the register trace either way (R79). -/
theorem runPrim_readByte {s : State} {a : Bool} {v : Byte} {rest : List Bit} (ha : s.attached = a)
    (hm : s.device.mode = .read ∨ s.device.mode = .readOn) (hv : a = true → v = s.device.cell)
    (h : s.answers = sent a [v] ++ rest) :
    (runPrim .readByte s).1 = some v
      ∧ Ran s s.phase { s.device with ptr := s.device.ptr + 1#6, mode := .readOn } [.rd s.device.ptr v] rest
          (runPrim .readByte s).2 := by
  have he : s.device.event .readByte = some ({ s.device with ptr := s.device.ptr + 1#6, mode := .readOn }, []) := by
    rcases hm with hm | hm <;> simp [Device.event, Device.onReadByte, hm]
  have ht : s.device.readTrace v = [.rd s.device.ptr v] := by rcases hm with hm | hm <;> simp [Device.readTrace, hm]
  have hd := deviceEvent_some he
  have key : (runPrim .readByte s).1 = some v ∧ (runPrim .readByte s).2.answers = rest
      ∧ (runPrim .readByte s).2.drawn = s.drawn := by
    cases a with
    | false =>
      have hb : byteAnswer s = none := by simp [byteAnswer, ha]
      have h' : (deviceEvent .readByte s).answers = msbBits v ++ rest := by simpa [sent] using h
      obtain ⟨h1, h2, h3⟩ := lineReadByte_answers v (deviceEvent .readByte s) rest h'
      refine ⟨by simp [runPrim, hb, h1], by simp [runPrim, hb, h2], ?_⟩
      have hd' : (deviceEvent .readByte s).drawn = s.drawn := by rw [hd]; rfl
      simp only [runPrim, hb, logRegs_drawn, logCall_drawn, h3, hd']
    | true =>
      have hb : byteAnswer s = some v := by
        rw [hv rfl]
        rcases hm with hm | hm <;> simp [byteAnswer, ha, Device.byteAnswer, hm]
      refine ⟨by simp [runPrim, hb, lineReadByte_fixed_value], ?_, ?_⟩
      · simpa [runPrim, hb, lineReadByte_fixed_env, sent] using h
      · simp [runPrim, hb, lineReadByte_fixed_env, hd]
  refine ⟨key.1, runPrim_frame _ s, runPrim_phase _ s, ?_, ?_, key.2.1, key.2.2⟩
  · rw [runPrim_device, hd]; rfl
  · rw [runPrim_readByte_regs key.1, ht, hd]; rfl

/-! ### Waits -/

/-- A wait that ends with its first sample: the reference device, if it answers, has `DACK = 1` and has read no byte out (R78); the
oracle's next answer is 0 (R132). -/
theorem chain_wait {s : State} {a : Bool} {rest : List Bit} (rx : List Byte) (ha : s.attached = a)
    (hm : s.device.mode ≠ .free) (hn : s.device.mode ≠ .readOn) (hk : s.device.dack = true)
    (h : s.answers = acks a 1 ++ rest) :
    ∃ u, Chain [.prim .waitForAck] rx s rx u ∧ Ran s s.phase s.device [] rest u := by
  have he : s.device.event .waitForAck = some (s.device, []) := by
    unfold Device.event Device.onWaitForAck
    split <;> simp_all
  have hr := runPrim_modelled (p := .waitForAck) (by simp) he
  have hpin : (runPrim .waitForAck s).2.pins.dir = .input := by rw [runPrim_pins]
  have hs : sampleAck (runPrim .waitForAck s).2 = (false, { (runPrim .waitForAck s).2 with answers := rest }) := by
    cases a with
    | false =>
      have hack : ackAnswer (runPrim .waitForAck s).2 = none := by simp [ackAnswer, hr.frame.attached, ha]
      unfold sampleAck
      rw [hack, sampleSDA_free hpin, freeSample_cons (hr.answers.trans h)]
      rfl
    | true =>
      have hack : ackAnswer (runPrim .waitForAck s).2 = some false := by
        simp only [ackAnswer, hr.frame.attached, ha, if_true, hr.device, Device.ackAnswer]
        cases hd : s.device.mode <;> simp_all
      have hans : (runPrim .waitForAck s).2.answers = rest := hr.answers.trans (by simpa [acks] using h)
      unfold sampleAck
      rw [hack, sampleSDA_fixed false hpin, ← hans]
  refine ⟨_, Chain.wait rx (by rw [hs]), ?_⟩
  rw [hs]
  exact ⟨hr.frame.trans (by constructor <;> simp), hr.phase, hr.device, by simpa using hr.regs, rfl, hr.drawn⟩

/-! ### The patterns -/

/-- An entry that is no wait, reads no byte, and whose event the reference device models. -/
theorem chain_modelled {s : State} {op : BusOp} {d : Device} {es : List RegEvent} (rx : List Byte)
    (hw : op.resolve rx ≠ .waitForAck) (hp : op.resolve rx ≠ .readByte)
    (he : s.device.event (op.resolve rx) = some (d, es)) :
    ∃ u, Chain [op] rx s rx u ∧ Ran s ((op.resolve rx).endPhase s.phase) d es s.answers u := by
  refine ⟨_, ?_, runPrim_modelled hp he⟩
  have h := Chain.prim hw s
  have hn : (runPrim (op.resolve rx) s).1.toList = [] := by
    cases e : op.resolve rx with
    | readByte => exact absurd e hp
    | readBit => rw [e] at he; cases he
    | _ => rfl
  rwa [hn, List.append_nil] at h

/-- A byte written in `D_WDATA` and acknowledged is stored (R78). -/
theorem chain_data {s : State} {a : Bool} {rest : List Bit} {op : BusOp} (v : Byte) (rx : List Byte) (ha : s.attached = a)
    (hm : s.device.mode = .wdata) (hop : op.resolve rx = .writeByte v) (h : s.answers = acks a 1 ++ rest) :
    ∃ u, Chain [op, .prim .waitForAck] rx s rx u
      ∧ Ran s s.phase (s.device.store v) [.wr s.device.ptr v] rest u := by
  have he : s.device.event (op.resolve rx) = some (s.device.store v, [.wr s.device.ptr v]) := by
    simp [hop, Device.event, Device.onWriteByte, hm]
  obtain ⟨t, h1, r1⟩ := chain_modelled rx (by simp [hop]) (by simp [hop]) he
  simp only [hop] at r1
  obtain ⟨u, h2, r2⟩ := chain_wait (s := t) rx (r1.frame.attached.trans ha)
    (by rw [r1.device]; simp [Device.store, hm]) (by rw [r1.device]; simp [Device.store, hm]) (by rw [r1.device]; rfl)
    (r1.answers.trans h)
  refine ⟨u, h1.append h2, ?_⟩
  simpa [r1.phase, r1.device] using r1.trans r2

/-- The device after the bytes of `ds` have been stored. -/
def Device.storeAll : List Byte → Device → Device
  | [], d => d
  | v :: vs, d => (d.store v).storeAll vs

/-- The entries of the register trace of storing `ds`, newest first. -/
def storeEvents : List Byte → BitVec 6 → List RegEvent
  | [], _ => []
  | v :: vs, p => storeEvents vs (p + 1#6) ++ [.wr p v]

theorem chain_writePhase {a : Bool} {rest : List Bit} (ds : List Byte) (rx : List Byte) (s : State) (ha : s.attached = a)
    (hm : s.device.mode = .wdata) (h : s.answers = acks a ds.length ++ rest) :
    ∃ u, Chain (writePhase ds) rx s rx u
      ∧ Ran s s.phase (s.device.storeAll ds) (storeEvents ds s.device.ptr) rest u := by
  induction ds generalizing s with
  | nil => exact ⟨s, Chain.nil rx s, ⟨.refl s, rfl, rfl, rfl, by cases a <;> simpa [acks] using h, rfl⟩⟩
  | cons v vs ih =>
    rw [List.length_cons, acks_succ, List.append_assoc] at h
    obtain ⟨t, h1, r1⟩ := chain_data (op := .prim (.writeByte v)) v rx ha hm rfl h
    obtain ⟨u, h2, r2⟩ := ih t (r1.frame.attached.trans ha) (by rw [r1.device]; exact hm) r1.answers
    refine ⟨u, h1.append h2, ?_⟩
    simpa [r1.phase, r1.device, Device.storeAll, storeEvents, Device.store] using r1.trans r2

/-- `Start(0xD0) WaitForAck WriteByte(off) WaitForAck`: the pointer is set (R77, R78). -/
theorem chain_addressing {s : State} {a : Bool} {rest : List Bit} (off : BitVec 6) (rx : List Byte) (ha : s.attached = a)
    (h : s.answers = acks a 2 ++ rest) :
    ∃ u, Chain (addressing (offsetByte off)) rx s rx u
      ∧ Ran s .active { s.device with ptr := off, mode := .wdata, dack := true } [] rest u := by
  rw [acks_succ, List.append_assoc] at h
  obtain ⟨t, h1, r1⟩ := chain_modelled (s := s) (op := .prim (.start Config.devW)) (es := []) rx
    (by simp [BusOp.resolve]) (by simp [BusOp.resolve]) rfl
  have hd1 : t.device = { s.device with mode := .offset, dack := true } := by
    rw [r1.device]; simp [Device.onStart]
  have ha1 := r1.frame.attached.trans ha
  obtain ⟨u, h2, r2⟩ := chain_wait (s := t) rx ha1 (by rw [hd1]; simp) (by rw [hd1]; simp) (by rw [hd1])
    (r1.answers.trans h)
  have ha2 := r2.frame.attached.trans ha1
  have hd2 : u.device = { s.device with mode := .offset, dack := true } := r2.device.trans hd1
  have he : u.device.event (.writeByte (offsetByte off)) =
      some ({ s.device with ptr := off, mode := .wdata, dack := true }, []) := by
    have hlt : (offsetByte off).toNat < 64 := by simp [offsetByte]; omega
    have hw : (offsetByte off).setWidth 6 = off := by simp [offsetByte]
    simp [Device.event, Device.onWriteByte, hd2, Config.regCount, hlt, hw]
  obtain ⟨v, h3, r3⟩ := chain_modelled (s := u) (op := .prim (.writeByte (offsetByte off))) rx
    (by simp [BusOp.resolve]) (by simp [BusOp.resolve]) he
  obtain ⟨w, h4, r4⟩ := chain_wait (s := v) rx (r3.frame.attached.trans ha2) (by rw [r3.device]; simp)
    (by rw [r3.device]; simp) (by rw [r3.device]) (r3.answers.trans r2.answers)
  refine ⟨w, ((h1.append h2).append h3).append h4, ?_⟩
  have := ((r1.trans r2).trans r3).trans r4
  simpa [r1.phase, r2.phase, r3.phase, r3.device, BusOp.resolve] using this

/-- `Stop()`: the device stands idle, its registers and its pointer stay (R77). -/
theorem chain_stop {s : State} (rx : List Byte) :
    ∃ u, Chain [.prim .stop] rx s rx u ∧ Ran s .idle { s.device with mode := .idle, dack := false } [] s.answers u :=
  chain_modelled (s := s) (op := .prim .stop) rx (by simp [BusOp.resolve]) (by simp [BusOp.resolve]) rfl

/-- A whole burst write (R83): the bytes are stored from the offset on. -/
theorem chain_burstWrite {s : State} {a : Bool} {rest : List Bit} (off : BitVec 6) (ds : List Byte) (rx : List Byte)
    (ha : s.attached = a) (h : s.answers = acks a (2 + ds.length) ++ rest) :
    ∃ u, Chain (burstWrite (offsetByte off) ds) rx s rx u
      ∧ Ran s .idle { Device.storeAll ds { s.device with ptr := off, mode := .wdata, dack := true } with
          mode := .idle, dack := false } (storeEvents ds off) rest u := by
  rw [acks_add, List.append_assoc] at h
  obtain ⟨t, h1, r1⟩ := chain_addressing (s := s) off rx ha h
  have ha1 := r1.frame.attached.trans ha
  obtain ⟨u, h2, r2⟩ := chain_writePhase ds rx t ha1 (by rw [r1.device]) r1.answers
  obtain ⟨v, h3, r3⟩ := chain_stop (s := u) rx
  refine ⟨v, (h1.append h2).append h3, ?_⟩
  have := (r1.trans r2).trans r3
  simpa [r1.device, r2.device, r2.answers] using this

/-- The bytes a burst read of `n` gets from a device that answers. -/
def Device.readAll : Nat → Device → List Byte
  | 0, _ => []
  | n + 1, d => d.cell :: Device.readAll n { d with ptr := d.ptr + 1#6 }

/-- The entries of the register trace of reading `ds`, newest first. -/
def readEvents : List Byte → BitVec 6 → List RegEvent
  | [], _ => []
  | v :: vs, p => readEvents vs (p + 1#6) ++ [.rd p v]

theorem chain_readByte {s : State} {a : Bool} {v : Byte} {rest : List Bit} (rx : List Byte) (ha : s.attached = a)
    (hm : s.device.mode = .read ∨ s.device.mode = .readOn) (hv : a = true → v = s.device.cell)
    (h : s.answers = sent a [v] ++ rest) :
    ∃ u, Chain [.prim .readByte] rx s (rx ++ [v]) u
      ∧ Ran s s.phase { s.device with ptr := s.device.ptr + 1#6, mode := .readOn } [.rd s.device.ptr v] rest u := by
  obtain ⟨h1, h2⟩ := runPrim_readByte ha hm hv h
  refine ⟨_, ?_, h2⟩
  have h := Chain.prim (op := .prim .readByte) (rx := rx) (by simp [BusOp.resolve]) s
  simp only [BusOp.resolve, h1] at h
  exact h

theorem chain_ack {s : State} (rx : List Byte) (hm : s.device.mode = .readOn) :
    ∃ u, Chain [.prim .sendAck] rx s rx u ∧ Ran s s.phase s.device [] s.answers u :=
  chain_modelled (s := s) (op := .prim .sendAck) rx (by simp [BusOp.resolve]) (by simp [BusOp.resolve])
    (by simp [BusOp.resolve, Device.event, Device.onSendAck, hm])

theorem chain_nack {s : State} (rx : List Byte) (hm : s.device.mode = .readOn) :
    ∃ u, Chain [.prim .sendNack] rx s rx u ∧ Ran s s.phase { s.device with mode := .free } [] s.answers u :=
  chain_modelled (s := s) (op := .prim .sendNack) rx (by simp [BusOp.resolve]) (by simp [BusOp.resolve])
    (by simp [BusOp.resolve, Device.event, Device.onSendNack, hm])

theorem readAll_eq (n : Nat) (d : Device) :
    d.readAll n = (List.range n).map fun i => Memory.read d.regs (d.ptr + BitVec.ofNat 6 i).toNat := by
  induction n generalizing d with
  | zero => rfl
  | succ n ih =>
    rw [Device.readAll, ih, List.range_succ_eq_map, List.map_cons, List.map_map]
    congr 1
    · simp [Device.cell]
    · apply List.map_congr_left
      intro i _
      show Memory.read d.regs (d.ptr + 1#6 + BitVec.ofNat 6 i).toNat = _
      have : d.ptr + 1#6 + BitVec.ofNat 6 i = d.ptr + BitVec.ofNat 6 (i + 1) := by
        rw [BitVec.add_assoc]; congr 1; apply BitVec.eq_of_toNat_eq; simp; omega
      rw [this]; rfl

@[simp] theorem readAll_length (n : Nat) (d : Device) : (d.readAll n).length = n := by simp [readAll_eq]

/-- What a burst read gets depends on the registers and the pointer alone. -/
theorem readAll_mode (n : Nat) (d : Device) (m : DevMode) : Device.readAll n { d with mode := m } = d.readAll n := by
  induction n generalizing d with
  | zero => rfl
  | succ n ih => exact congrArg (d.cell :: ·) (ih { d with ptr := d.ptr + 1#6 })

theorem chain_readPhase {a : Bool} {rest : List Bit} (v : Byte) (vs : List Byte) (rx : List Byte) (s : State)
    (ha : s.attached = a) (hm : s.device.mode = .read ∨ s.device.mode = .readOn)
    (hv : a = true → v :: vs = s.device.readAll (vs.length + 1)) (h : s.answers = sent a (v :: vs) ++ rest) :
    ∃ u, Chain (readPhase (vs.length + 1)) rx s (rx ++ v :: vs) u
      ∧ Ran s s.phase { s.device with ptr := s.device.ptr + BitVec.ofNat 6 (vs.length + 1), mode := .free }
          (readEvents (v :: vs) s.device.ptr) rest u := by
  induction vs generalizing v rx s with
  | nil =>
    obtain ⟨t, h1, r1⟩ := chain_readByte (s := s) rx ha hm (fun e => (List.cons.inj (hv e)).1) h
    obtain ⟨u, h2, r2⟩ := chain_nack (s := t) (rx ++ [v]) (by rw [r1.device])
    refine ⟨u, h1.append h2, ?_⟩
    simpa [r1.phase, r1.device, r1.answers, readEvents] using r1.trans r2
  | cons w ws ih =>
    rw [sent_cons, List.append_assoc] at h
    obtain ⟨t, h1, r1⟩ := chain_readByte (s := s) rx ha hm (fun e => (List.cons.inj (hv e)).1) h
    have hm1 : t.device.mode = .readOn := by rw [r1.device]
    obtain ⟨u, h2, r2⟩ := chain_ack (s := t) (rx ++ [v]) hm1
    have hd : u.device = { s.device with ptr := s.device.ptr + 1#6, mode := .readOn } := r2.device.trans r1.device
    have hall : u.device.readAll (ws.length + 1) =
        Device.readAll (ws.length + 1) { s.device with ptr := s.device.ptr + 1#6 } :=
      hd ▸ readAll_mode (ws.length + 1) { s.device with ptr := s.device.ptr + 1#6 } .readOn
    obtain ⟨x, h3, r3⟩ := ih w (rx ++ [v]) u (r2.frame.attached.trans (r1.frame.attached.trans ha))
      (.inr (by rw [hd])) (fun e => (List.cons.inj (hv e)).2.trans hall.symm) (r2.answers.trans r1.answers)
    have hp : s.device.ptr + 1#6 + BitVec.ofNat 6 (ws.length + 1) = s.device.ptr + BitVec.ofNat 6 (ws.length + 1 + 1) := by
      rw [BitVec.add_assoc]; congr 1; apply BitVec.eq_of_toNat_eq; simp; omega
    refine ⟨x, ?_, ?_⟩
    · have := (h1.append h2).append h3
      simpa [readPhase] using this
    · have := (r1.trans r2).trans r3
      rw [hd] at this
      simp only [hp] at this
      simpa [r1.phase, r2.phase, readEvents] using this

/-- A whole burst read of `v :: vs` (R83): from a device that answers these are the registers from the offset on, in order. -/
theorem chain_burstRead {s : State} {a : Bool} {rest : List Bit} (off : BitVec 6) (v : Byte) (vs : List Byte) (rx : List Byte)
    (ha : s.attached = a) (hv : a = true → v :: vs = Device.readAll (vs.length + 1) { s.device with ptr := off })
    (h : s.answers = acks a 3 ++ (sent a (v :: vs) ++ rest)) :
    ∃ u, Chain (burstRead (offsetByte off) (vs.length + 1)) rx s (rx ++ v :: vs) u
      ∧ Ran s .idle { s.device with ptr := off + BitVec.ofNat 6 (vs.length + 1), mode := .idle, dack := false }
          (readEvents (v :: vs) off) rest u := by
  rw [show (3 : Nat) = 2 + 1 from rfl, acks_add, List.append_assoc] at h
  obtain ⟨t, h1, r1⟩ := chain_addressing (s := s) off rx ha h
  have ha1 := r1.frame.attached.trans ha
  obtain ⟨u, h2, r2⟩ := chain_stop (s := t) rx
  have ha2 := r2.frame.attached.trans ha1
  obtain ⟨w, h3, r3⟩ := chain_modelled (s := u) (op := .prim (.start Config.devR)) (es := []) rx
    (by simp [BusOp.resolve]) (by simp [BusOp.resolve]) rfl
  have ha3 := r3.frame.attached.trans ha2
  have hd3 : w.device = { s.device with ptr := off, mode := .read, dack := true } := by
    rw [r3.device, r2.device, r1.device]; simp [Device.onStart, Config.devR, Config.devW]
  obtain ⟨x, h4, r4⟩ := chain_wait (s := w) rx ha3 (by rw [hd3]; simp) (by rw [hd3]; simp) (by rw [hd3])
    (r3.answers.trans (r2.answers.trans r1.answers))
  have ha4 := r4.frame.attached.trans ha3
  have hd4 := r4.device.trans hd3
  have hread : x.device.readAll (vs.length + 1) = Device.readAll (vs.length + 1) { s.device with ptr := off } := by
    rw [hd4, readAll_eq, readAll_eq]
  obtain ⟨y, h5, r5⟩ := chain_readPhase v vs rx x ha4 (.inl (by rw [hd4])) (fun e => (hv e).trans hread.symm) r4.answers
  obtain ⟨z, h6, r6⟩ := chain_stop (s := y) (rx ++ v :: vs)
  refine ⟨z, ((h1.append (h2.append (h3.append h4))).append h5).append h6, ?_⟩
  have := ((((r1.trans r2).trans r3).trans r4).trans r5).trans r6
  rw [hd4] at this
  simpa [r5.device, hd4, r5.answers] using this

/-! ### The patterns against the reference device -/

/-- A burst read of `n + 1` bytes where the reference device answers. -/
theorem chain_bench_burstRead {s : State} (off : BitVec 6) (n : Nat) (rx : List Byte) (ha : s.attached = true) :
    ∃ u, Chain (burstRead (offsetByte off) (n + 1)) rx s (rx ++ Device.readAll (n + 1) { s.device with ptr := off }) u
      ∧ Ran s .idle { s.device with ptr := off + BitVec.ofNat 6 (n + 1), mode := .idle, dack := false }
          (readEvents (Device.readAll (n + 1) { s.device with ptr := off }) off) s.answers u := by
  cases e : Device.readAll (n + 1) { s.device with ptr := off } with
  | nil => cases e
  | cons v vs =>
    have hl : vs.length = n := by have := congrArg List.length e; simpa using this.symm
    have := chain_burstRead (s := s) (rest := s.answers) off v vs rx ha (fun _ => by rw [hl, e]) rfl
    rwa [hl] at this

theorem chain_bench_burstWrite {s : State} (off : BitVec 6) (ds : List Byte) (rx : List Byte) (ha : s.attached = true) :
    ∃ u, Chain (burstWrite (offsetByte off) ds) rx s rx u
      ∧ Ran s .idle { Device.storeAll ds { s.device with ptr := off, mode := .wdata, dack := true } with
          mode := .idle, dack := false } (storeEvents ds off) s.answers u := chain_burstWrite off ds rx ha rfl

/-- A whole read-modify-write (R195): the byte read is written back with the bits of the mask replaced. -/
theorem chain_bench_regModify {s : State} (off : BitVec 6) (mask bits : Byte) (rx : List Byte) (ha : s.attached = true)
    {v w : Byte} (hv : v = Memory.read s.device.regs off.toNat) (hw : w = (v &&& ~~~mask) ||| bits) :
    ∃ u, Chain (regModify (offsetByte off) mask bits) rx s (rx ++ [v]) u
      ∧ Ran s .idle { s.device with
            regs := Memory.write s.device.regs off.toNat w, ptr := off + 1#6, mode := .idle, dack := false }
          [.wr off w, .rd off v] s.answers u := by
  obtain ⟨t, h1, r1⟩ := chain_bench_burstRead (s := s) off 0 rx ha
  have hread : Device.readAll 1 { s.device with ptr := off } = [v] := by simp [Device.readAll, Device.cell, hv]
  rw [hread] at h1 r1
  have ha1 := r1.frame.attached.trans ha
  obtain ⟨u, h2, r2⟩ := chain_addressing (s := t) (rest := t.answers) off (rx ++ [v]) ha1 rfl
  have ha2 := r2.frame.attached.trans ha1
  have hres : (BusOp.writeBack mask bits).resolve (rx ++ [v]) = .writeByte w := by
    simp [BusOp.resolve, List.getLastD_eq_getLast?, hw]
  obtain ⟨x, h3, r3⟩ := chain_data (s := u) (rest := u.answers) (op := .writeBack mask bits) w (rx ++ [v]) ha2
    (by rw [r2.device]) hres rfl
  obtain ⟨y, h4, r4⟩ := chain_stop (s := x) (rx ++ [v])
  refine ⟨y, ((h1.append h2).append (h3.append h4) :), ?_⟩
  have := ((r1.trans r2).trans r3).trans r4
  rw [r3.device, r2.device, r1.device] at this
  simpa [Device.store, readEvents, r1.answers, r2.answers, r3.answers] using this

/-! ### The patterns against an oracle whose answers stand in the state -/

/-- A burst write that an oracle acknowledges at once. -/
theorem chain_oracle_burstWrite {s : State} (off : BitVec 6) (ds : List Byte) (rest : List Bit) (rx : List Byte)
    (ha : s.attached = false) (h : s.answers = List.replicate (2 + ds.length) false ++ rest) :
    ∃ u, Chain (burstWrite (offsetByte off) ds) rx s rx u
      ∧ Ran s .idle { Device.storeAll ds { s.device with ptr := off, mode := .wdata, dack := true } with
          mode := .idle, dack := false } (storeEvents ds off) rest u := chain_burstWrite off ds rx ha h

/-- A burst read whose waits an oracle ends at once: the bytes are its answers. -/
theorem chain_oracle_burstRead {s : State} (off : BitVec 6) (v : Byte) (vs : List Byte) (rest : List Bit) (rx : List Byte)
    (ha : s.attached = false) (h : s.answers = [false, false, false] ++ (v :: vs).flatMap msbBits ++ rest) :
    ∃ u, Chain (burstRead (offsetByte off) (vs.length + 1)) rx s (rx ++ v :: vs) u
      ∧ Ran s .idle { s.device with ptr := off + BitVec.ofNat 6 (vs.length + 1), mode := .idle, dack := false }
          (readEvents (v :: vs) off) rest u :=
  chain_burstRead off v vs rx ha (fun e => by cases e) (by rw [h, List.append_assoc]; rfl)

/-! ### The registers after a burst -/

theorem storeAll_ptr (ds : List Byte) (d : Device) :
    (Device.storeAll ds d).ptr = d.ptr + BitVec.ofNat 6 ds.length := by
  induction ds generalizing d with
  | nil => simp [Device.storeAll]
  | cons v vs ih =>
    rw [Device.storeAll, ih]
    show d.ptr + 1#6 + BitVec.ofNat 6 vs.length = _
    rw [BitVec.add_assoc]; congr 1; apply BitVec.eq_of_toNat_eq; simp; omega

theorem storeAll_wf (ds : List Byte) (d : Device) (h : Memory.wf d.regs = true) :
    Memory.wf (Device.storeAll ds d).regs = true := by
  induction ds generalizing d with
  | nil => exact h
  | cons v vs ih => exact ih _ (store_wf h)

/-- A register the burst does not reach keeps its value. -/
theorem storeAll_other (ds : List Byte) (d : Device) (a : Nat)
    (h : ∀ i < ds.length, (d.ptr + BitVec.ofNat 6 i).toNat ≠ a) :
    Memory.read (Device.storeAll ds d).regs a = Memory.read d.regs a := by
  induction ds generalizing d with
  | nil => rfl
  | cons v vs ih =>
    rw [Device.storeAll, ih]
    · exact read_write_other (fun hc => h 0 (by simp) (by simpa using hc.symm))
    · intro i hi
      have := h (i + 1) (by simpa using hi)
      have he : (d.store v).ptr + BitVec.ofNat 6 i = d.ptr + BitVec.ofNat 6 (i + 1) := by
        show d.ptr + 1#6 + BitVec.ofNat 6 i = _
        rw [BitVec.add_assoc]; congr 1; apply BitVec.eq_of_toNat_eq; simp; omega
      rwa [he]

/-- The i-th byte of a burst of at most 64 lands i registers after the pointer. -/
theorem storeAll_stored (ds : List Byte) (d : Device) (hw : Memory.wf d.regs = true) (hn : ds.length ≤ 64) (i : Nat)
    (hi : i < ds.length) :
    Memory.read (Device.storeAll ds d).regs (d.ptr + BitVec.ofNat 6 i).toNat = ds[i] := by
  induction ds generalizing d i with
  | nil => simp at hi
  | cons v vs ih =>
    have hnext : ∀ j, (d.store v).ptr + BitVec.ofNat 6 j = d.ptr + BitVec.ofNat 6 (j + 1) := fun j => by
      show d.ptr + 1#6 + BitVec.ofNat 6 j = _
      rw [BitVec.add_assoc]; congr 1; apply BitVec.eq_of_toNat_eq; simp; omega
    cases i with
    | zero =>
      rw [Device.storeAll, storeAll_other]
      · simpa [Device.store] using read_write_same hw
      · intro j hj hc
        rw [hnext] at hc
        have hc' : d.ptr + BitVec.ofNat 6 (j + 1) = d.ptr + BitVec.ofNat 6 0 := BitVec.eq_of_toNat_eq hc
        have := (BitVec.add_right_inj d.ptr).mp hc'
        have h2 := congrArg BitVec.toNat this
        simp only [List.length_cons] at hn
        simp only [BitVec.toNat_ofNat] at h2
        omega
    | succ i =>
      rw [Device.storeAll, ← hnext]
      simpa using ih (d.store v) (store_wf hw) (by simp at hn; omega) i (by simpa using hi)

/-- The register-trace entries of a burst read (newest first), each written out. -/
theorem readEvents_eq (ds : List Byte) (p : BitVec 6) : readEvents ds p = ((List.range ds.length).map fun i =>
    RegEvent.rd (p + BitVec.ofNat 6 i) (ds.getD i 0#8)).reverse := by
  induction ds generalizing p with
  | nil => rfl
  | cons v vs ih =>
    have hnext : ∀ i, p + 1#6 + BitVec.ofNat 6 i = p + BitVec.ofNat 6 (i + 1) := fun i => by
      rw [BitVec.add_assoc]; congr 1; apply BitVec.eq_of_toNat_eq; simp; omega
    rw [readEvents, ih, List.length_cons, List.range_succ_eq_map, List.map_cons, List.map_map, List.reverse_cons]
    simp only [hnext]
    congr 1
    simp

/-- The same where the reference device answers: the entries have its registers. -/
theorem readEvents_readAll (n : Nat) (d : Device) : readEvents (d.readAll n) d.ptr = ((List.range n).map fun i =>
    RegEvent.rd (d.ptr + BitVec.ofNat 6 i) (Memory.read d.regs (d.ptr + BitVec.ofNat 6 i).toNat)).reverse := by
  rw [readEvents_eq, readAll_length]
  congr 1
  apply List.map_congr_left
  intro i hi
  simp [readAll_eq, List.mem_range.mp hi]

/-- The register-trace entries of a burst write (newest first), each written out. -/
theorem storeEvents_eq (ds : List Byte) (p : BitVec 6) : storeEvents ds p = ((List.range ds.length).map fun i =>
    RegEvent.wr (p + BitVec.ofNat 6 i) (ds.getD i 0#8)).reverse := by
  induction ds generalizing p with
  | nil => rfl
  | cons v vs ih =>
    have hnext : ∀ i, p + 1#6 + BitVec.ofNat 6 i = p + BitVec.ofNat 6 (i + 1) := fun i => by
      rw [BitVec.add_assoc]; congr 1; apply BitVec.eq_of_toNat_eq; simp; omega
    rw [storeEvents, ih, List.length_cons, List.range_succ_eq_map, List.map_cons, List.map_map, List.reverse_cons]
    simp only [hnext]
    congr 1
    simp

/-! ### Single writes in a row -/

theorem chain_bench_regWrite {s : State} (off : BitVec 6) (v : Byte) (rx : List Byte) (ha : s.attached = true) :
    ∃ u, Chain (regWrite (offsetByte off) v) rx s rx u
      ∧ Ran s .idle { s.device with
          regs := Memory.write s.device.regs off.toNat v, ptr := off + 1#6, mode := .idle, dack := false } [.wr off v] s.answers u :=
  chain_bench_burstWrite off [v] rx ha

theorem chain_bench_threeWrites {s : State} (o₁ o₂ o₃ : BitVec 6) (a b c : Byte) (ha : s.attached = true) :
    ∃ u, Chain (regWrite (offsetByte o₁) a ++ regWrite (offsetByte o₂) b ++ regWrite (offsetByte o₃) c) [] s [] u
      ∧ Ran s .idle { s.device with
          regs := Memory.write (Memory.write (Memory.write s.device.regs o₁.toNat a) o₂.toNat b) o₃.toNat c,
          ptr := o₃ + 1#6, mode := .idle, dack := false } [.wr o₃ c, .wr o₂ b, .wr o₁ a] s.answers u := by
  obtain ⟨u, c1, r1⟩ := chain_bench_regWrite (s := s) o₁ a [] ha
  obtain ⟨v, c2, r2⟩ := chain_bench_regWrite (s := u) o₂ b [] (r1.frame.attached.trans ha)
  obtain ⟨w, c3, r3⟩ := chain_bench_regWrite (s := v) o₃ c [] (r2.frame.attached.trans (r1.frame.attached.trans ha))
  refine ⟨w, (c1.append c2).append c3, ?_⟩
  simpa [r1.device, r2.device, r1.answers, r2.answers] using (r1.trans r2).trans r3

end Sys2Proof.Machine
end

