-- ==== Sys2Proof/Laws/Codec.lean ====
section
/-! SUPPORT. The codec's functions as plain arithmetic on numbers, each over its whole range (R171 to R175), and
their round trips (R177). -/

namespace Sys2Proof.Machine

theorem bcdEncode_eq : ∀ v : Nat, v ≤ 99 → bcdEncode v = BitVec.ofNat 8 (16 * (v / 10) + v % 10) := by decide +kernel

theorem bcdEncode_toNat (v : Nat) (h : v ≤ 99) : (bcdEncode v).toNat = 16 * (v / 10) + v % 10 := by
  rw [bcdEncode_eq v h]; simp; omega

theorem decodeGeneric_eq : ∀ b : Byte, decodeGeneric b = b.toNat % 16 + 10 * (b.toNat / 16 % 8) := by decide +kernel

theorem yearAbs_eq : ∀ b : Byte, yearAbs b = 2000 + (b.toNat % 16 + 10 * (b.toNat / 16)) := by decide +kernel

theorem decodeHour_eq : ∀ b : Byte, decodeHour b =
    if 128 ≤ b.toNat then b.toNat % 16 + 12 * (b.toNat / 32 % 2) else b.toNat % 16 + 10 * (b.toNat / 16 % 4) := by
  decide +kernel

/-! ### Round trips (R177) -/

theorem decodeYear_bcdEncode : ∀ v : Nat, v ≤ 99 → decodeYear (bcdEncode v) = v := by decide +kernel

theorem decodeGeneric_bcdEncode : ∀ v : Nat, v ≤ 99 → decodeGeneric (bcdEncode v) = if v ≤ 79 then v else v - 80 := by
  decide +kernel

theorem decodeHour_bcdEncode : ∀ h : Nat, h ≤ 23 → decodeHour (bcdEncode h) = h := by decide +kernel

theorem bcdEncode_decodeYear : ∀ b : Byte, bcdEncode (decodeYear b) = b ↔ b.toNat % 16 ≤ 9 ∧ b.toNat / 16 ≤ 9 := by
  decide +kernel

theorem decodeGeneric_bit7 : ∀ b : Byte,
    decodeGeneric (b ||| 0x80#8) = decodeGeneric b ∧ decodeGeneric (b &&& 0x7F#8) = decodeGeneric b := by decide +kernel

/-! ### Bytes and offsets that commands send -/

/-- The year byte of a year WRDATE accepts. -/
theorem yearByte_eq (y : Nat) (h : 2000 ≤ y) : yearByte (y - Config.centuryBase) =
    if y ≤ 2099 then BitVec.ofNat 8 (16 * ((y - 2000) / 10) + (y - 2000) % 10) else Config.encExt (y - 2000) := by
  unfold yearByte Config.centuryBase
  split_ifs
  · exact bcdEncode_eq _ (by omega)
  · omega
  · omega
  · rfl

/-- A scratch address as an offset operand, and the offset after it (R210). -/
theorem scratchOffset_eq (a : Byte) (h : a.toNat ≤ 55) :
    scratchOffset a = offsetByte (BitVec.ofNat 6 (8 + a.toNat)) ∧ (BitVec.ofNat 6 (8 + a.toNat)).toNat = 8 + a.toNat := by
  refine ⟨?_, by simp; omega⟩
  apply BitVec.eq_of_toNat_eq
  simp [scratchOffset, offsetByte, Config.scratchBase]
  omega

end Sys2Proof.Machine
end

