-- ==== Sys2Proof/Laws/Decode.lean ====
section
/-! SUPPORT. What each format accepts (spec/30_encoding.md R91): exactly the bytes the encoder writes for it. -/

namespace Sys2Proof

variable {i : Instr} {rest bs : List Byte}

theorem formatZ_ok {j : Instr} : formatZ j bs = .ok (i, rest) ↔ i = j ∧ bs = rest := by
  simp [formatZ, eq_comm]

theorem formatB_ok {mk : Byte → Instr} : formatB mk bs = .ok (i, rest) ↔ ∃ a, i = mk a ∧ bs = a :: rest := by
  cases bs <;> simp [formatB, eq_comm]

/-- A flag byte is legal when it is 0 or 1. -/
theorem flag_legal (b : Byte) : b &&& 0xFE#8 = 0#8 ↔ b = Byte.ofBit (b.getLsbD 0) := by
  revert b; decide +kernel

theorem ofBit_bit (f : Bit) : (Byte.ofBit f).getLsbD 0 = f := by cases f <;> rfl

theorem formatF_ok {mk : Bit → Instr} :
    formatF mk bs = .ok (i, rest) ↔ ∃ f, i = mk f ∧ bs = Byte.ofBit f :: rest := by
  cases bs with
  | nil => simp [formatF]
  | cons b bs =>
    simp only [formatF]
    split_ifs with h
    · rw [flag_legal] at h
      constructor
      · intro e; cases e; exact ⟨_, rfl, by rw [← h]⟩
      · rintro ⟨f, rfl, e⟩; cases e; rw [ofBit_bit]
    · rw [flag_legal] at h
      simp only [false_iff, not_exists, not_and]
      rintro f _ e; cases e; exact h (by rw [ofBit_bit])

/-- A rate byte is legal when it is 0..3. -/
theorem rate_legal (b : Byte) : b &&& 0xFC#8 = 0#8 ↔ b = (b.setWidth 2).setWidth 8 := by
  revert b; decide +kernel

theorem formatR_ok {mk : BitVec 2 → Instr} :
    formatR mk bs = .ok (i, rest) ↔ ∃ r, i = mk r ∧ bs = r.setWidth 8 :: rest := by
  cases bs with
  | nil => simp [formatR]
  | cons b bs =>
    simp only [formatR]
    split_ifs with h
    · rw [rate_legal] at h
      constructor
      · intro e; cases e; exact ⟨_, rfl, by rw [← h]⟩
      · rintro ⟨f, rfl, e⟩; cases e; simp
    · rw [rate_legal] at h
      simp only [false_iff, not_exists, not_and]
      rintro f _ e; cases e; exact h (by simp)

/-- An offset byte is legal when it is 0..63. -/
theorem offset_legal (b : Byte) : b &&& 0xC0#8 = 0#8 ↔ b = (b.setWidth 6).setWidth 8 := by
  revert b; decide +kernel

theorem offsetOperand_some {b : Byte} {off : BitVec 6} : offsetOperand b = some off ↔ b = off.setWidth 8 := by
  unfold offsetOperand
  split_ifs with h
  · rw [offset_legal] at h
    constructor
    · intro e; cases e; exact h
    · rintro rfl; simp
  · rw [offset_legal] at h
    simp only [false_iff]
    rintro rfl; exact h (by simp)

@[simp] theorem offsetOperand_encoded (off : BitVec 6) : offsetOperand (off.setWidth 8) = some off :=
  offsetOperand_some.mpr rfl

theorem formatO_ok {mk : BitVec 6 → Instr} :
    formatO mk bs = .ok (i, rest) ↔ ∃ off, i = mk off ∧ bs = off.setWidth 8 :: rest := by
  cases bs with
  | nil => simp [formatO]
  | cons b bs =>
    cases h : offsetOperand b with
    | none =>
      simp only [formatO, h, reduceCtorEq, false_iff, not_exists, not_and]
      rintro off _ e; cases e; simp at h
    | some off =>
      obtain rfl := offsetOperand_some.mp h
      simp only [formatO, h]
      constructor
      · intro e; cases e; exact ⟨off, rfl, rfl⟩
      · rintro ⟨o, rfl, e⟩
        obtain ⟨e1, rfl⟩ := List.cons.inj e
        have : off = o := by simpa using congrArg (fun b : Byte => b.setWidth 6) e1
        rw [this]

theorem formatOB_ok {mk : BitVec 6 → Byte → Instr} :
    formatOB mk bs = .ok (i, rest) ↔ ∃ off v, i = mk off v ∧ bs = off.setWidth 8 :: v :: rest := by
  match bs with
  | [] => simp [formatOB]
  | [b] => simp [formatOB]
  | b :: v :: bs =>
    cases h : offsetOperand b with
    | none =>
      simp only [formatOB, h, reduceCtorEq, false_iff, not_exists, not_and]
      rintro off v _ e; cases e; simp at h
    | some off =>
      obtain rfl := offsetOperand_some.mp h
      simp only [formatOB, h]
      constructor
      · intro e; cases e; exact ⟨off, v, rfl, rfl⟩
      · rintro ⟨o, w, rfl, e⟩
        obtain ⟨e1, e2⟩ := List.cons.inj e
        cases e2
        have : off = o := by simpa using congrArg (fun b : Byte => b.setWidth 6) e1
        rw [this]

theorem formatON_ok {mk : BitVec 6 → Nat → Instr} :
    formatON mk bs = .ok (i, rest) ↔
      ∃ off n, i = mk off n ∧ burstLengthOk n ∧ bs = off.setWidth 8 :: BitVec.ofNat 8 n :: rest := by
  match bs with
  | [] => simp [formatON]
  | [b] => simp [formatON]
  | b :: n :: bs =>
    cases h : offsetOperand b with
    | none =>
      simp only [formatON, h, reduceCtorEq, false_iff, not_exists, not_and]
      rintro off v _ _ e; cases e; simp at h
    | some off =>
      obtain rfl := offsetOperand_some.mp h
      simp only [formatON, h]
      split_ifs with hn
      · constructor
        · intro e; cases e; exact ⟨off, n.toNat, rfl, hn, by simp⟩
        · rintro ⟨o, k, rfl, hk, e⟩
          obtain ⟨e1, e2⟩ := List.cons.inj e
          obtain ⟨e3, rfl⟩ := List.cons.inj e2
          have : off = o := by simpa using congrArg (fun b : Byte => b.setWidth 6) e1
          have hk' : n.toNat = k := by
            rw [e3]; simp only [BitVec.toNat_ofNat]
            have := hk.2; simp only [Config.scratchLen] at this; omega
          rw [this, hk']
      · simp only [false_iff, not_exists, not_and]
        rintro o k _ hk e
        obtain ⟨e1, e2⟩ := List.cons.inj e
        obtain ⟨rfl, _⟩ := List.cons.inj e2
        have hk2 := hk.2
        simp only [Config.scratchLen] at hk2
        have : (BitVec.ofNat 8 k).toNat = k := by simp only [BitVec.toNat_ofNat]; omega
        exact hn (by rw [this]; exact hk)

theorem formatBB_ok {mk : Byte → Byte → Instr} :
    formatBB mk bs = .ok (i, rest) ↔ ∃ a v, i = mk a v ∧ bs = a :: v :: rest := by
  match bs with
  | [] => simp [formatBB]
  | [b] => simp [formatBB]
  | a :: v :: bs =>
    simp only [formatBB]
    constructor
    · intro e; cases e; exact ⟨_, _, rfl, rfl⟩
    · rintro ⟨a, v, rfl, e⟩; cases e; rfl

theorem formatT_ok {mk : Byte → Byte → Byte → Instr} :
    formatT mk bs = .ok (i, rest) ↔ ∃ a b c, i = mk a b c ∧ bs = a :: b :: c :: rest := by
  match bs with
  | [] => simp [formatT]
  | [_] => simp [formatT]
  | [_, _] => simp [formatT]
  | a :: b :: c :: bs =>
    simp only [formatT]
    constructor
    · intro e; cases e; exact ⟨_, _, _, rfl, rfl⟩
    · rintro ⟨a, b, c, rfl, e⟩; cases e; rfl

theorem yearOperand_bytes (y : Half) : yearOperand (y.extractLsb' 8 8) (y.extractLsb' 0 8) = y := by
  apply BitVec.eq_of_toNat_eq
  simp only [yearOperand, BitVec.extractLsb'_toNat, BitVec.toNat_ofNat, Nat.shiftRight_eq_div_pow]
  omega

theorem yearOperand_high (a b : Byte) : (yearOperand a b).extractLsb' 8 8 = a := by
  apply BitVec.eq_of_toNat_eq
  simp only [yearOperand, BitVec.extractLsb'_toNat, BitVec.toNat_ofNat, Nat.shiftRight_eq_div_pow]
  omega

theorem yearOperand_low (a b : Byte) : (yearOperand a b).extractLsb' 0 8 = b := by
  apply BitVec.eq_of_toNat_eq
  simp only [yearOperand, BitVec.extractLsb'_toNat, BitVec.toNat_ofNat, Nat.shiftRight_eq_div_pow]
  omega

theorem formatD_ok {mk : Byte → Byte → Half → Instr} :
    formatD mk bs = .ok (i, rest) ↔
      ∃ d m y, i = mk d m y ∧ bs = d :: m :: y.extractLsb' 8 8 :: y.extractLsb' 0 8 :: rest := by
  match bs with
  | [] => simp [formatD]
  | [_] => simp [formatD]
  | [_, _] => simp [formatD]
  | [_, _, _] => simp [formatD]
  | a :: b :: c :: d :: bs =>
    simp only [formatD]
    constructor
    · intro e; cases e; exact ⟨_, _, _, rfl, by rw [yearOperand_high, yearOperand_low]⟩
    · rintro ⟨x, y, z, rfl, e⟩; cases e; rw [yearOperand_bytes]

theorem formatV_ok {mk : BitVec 6 → List Byte → Instr} :
    formatV mk bs = .ok (i, rest) ↔
      ∃ off d, i = mk off d ∧ burstLengthOk d.length
        ∧ bs = off.setWidth 8 :: BitVec.ofNat 8 d.length :: (d ++ rest) := by
  match bs with
  | [] => simp [formatV]
  | [_] => simp [formatV]
  | b :: n :: bs =>
    have hcount : ∀ k, burstLengthOk k → (BitVec.ofNat 8 k).toNat = k := fun k hk => by
      have := hk.2; simp only [Config.scratchLen] at this
      simp only [BitVec.toNat_ofNat]; omega
    constructor
    · intro e
      simp only [formatV] at e
      split_ifs at e with hn hl
      cases h : offsetOperand b with
      | none => simp [h] at e
      | some off =>
        obtain rfl := offsetOperand_some.mp h
        simp only [h] at e
        cases e
        have hlen : (bs.take n.toNat).length = n.toNat := by simp [hl]
        exact ⟨off, _, rfl, by rw [hlen]; exact hn, by rw [hlen]; simp⟩
    · rintro ⟨off, d, rfl, hd, e⟩
      cases e
      simp [formatV, hcount _ hd, hd]

theorem formatS_ok {mk : List Byte → Instr} :
    formatS mk bs = .ok (i, rest) ↔ ∃ d, i = mk d ∧ d.length = Config.scratchLen ∧ bs = d ++ rest := by
  constructor
  · intro e
    unfold formatS at e
    split_ifs at e with h
    cases e
    exact ⟨_, rfl, by simp [h], by simp⟩
  · rintro ⟨d, rfl, hd, rfl⟩
    simp [formatS, ← hd]

end Sys2Proof
end

