-- ==== Sys2Proof/Laws/Commands.lean ====
section
/-! SUPPORT. What a command can do, said once: every sequence keeps the phase preconditions and reads at most 56 values
(R155 (c)), every `exec` is a bus command, an advance, or a fault, and what a step can come to. -/

namespace Sys2Proof.Machine

/-! ### The phase along a sequence -/

/-- The phase after a sequence, if every primitive of it meets its precondition. -/
def phaseAlong (ph : Phase) (ops : List BusOp) : Option Phase := ops.foldlM (fun p op => op.phaseAfter p) ph

theorem phaseAlong_append {p q r : Phase} {a b : List BusOp} (h : phaseAlong p a = some q) (k : phaseAlong q b = some r) :
    phaseAlong p (a ++ b) = some r := by
  unfold phaseAlong at h ⊢
  rw [List.foldlM_append, h]; exact k

theorem legalFrom_append {p q : Phase} {a : List BusOp} (h : phaseAlong p a = some q) (b : List BusOp) :
    legalFrom p (a ++ b) = legalFrom q b := by
  induction a generalizing p with
  | nil => cases h; rfl
  | cons op a ih =>
    simp only [phaseAlong, List.foldlM_cons] at h
    cases hp : op.phaseAfter p with
    | none => simp [hp] at h
    | some o =>
      rw [hp] at h
      simpa [legalFrom, hp] using ih (p := o) h

theorem legalFrom_of_phaseAlong {p q : Phase} {ops : List BusOp} (h : phaseAlong p ops = some q) :
    legalFrom p ops = true := by
  have := legalFrom_append h []
  rwa [List.append_nil] at this

theorem phaseAlong_writePhase (d : List Byte) : phaseAlong .active (writePhase d) = some .active := by
  induction d with
  | nil => rfl
  | cons v vs ih => simpa [phaseAlong, writePhase, BusOp.phaseAfter, Prim.phaseAfter] using ih

theorem phaseAlong_readPhase : ∀ n, phaseAlong .active (readPhase n) = some .active
  | 0 => rfl
  | 1 => rfl
  | n + 2 => by simpa [phaseAlong, readPhase, BusOp.phaseAfter, Prim.phaseAfter] using phaseAlong_readPhase (n + 1)

theorem phaseAlong_burstWrite (off : Byte) (d : List Byte) : phaseAlong .idle (burstWrite off d) = some .idle :=
  phaseAlong_append (phaseAlong_append (q := .active) rfl (phaseAlong_writePhase d)) rfl

theorem phaseAlong_burstRead (off : Byte) (n : Nat) : phaseAlong .idle (burstRead off n) = some .idle :=
  phaseAlong_append (phaseAlong_append (q := .active) rfl (phaseAlong_readPhase n)) rfl

theorem phaseAlong_regModify (off mask bits : Byte) : phaseAlong .idle (regModify off mask bits) = some .idle :=
  phaseAlong_append (phaseAlong_append (phaseAlong_burstRead _ _) rfl) rfl

/-! ### How many values a sequence reads -/

theorem readCount_append (a b : List BusOp) : readCount (a ++ b) = readCount a + readCount b := by
  induction a with
  | nil => simp [readCount]
  | cons o a ih => simp [readCount, ih]; omega

theorem readCount_writePhase (d : List Byte) : readCount (writePhase d) = 0 := by
  induction d with
  | nil => rfl
  | cons v vs ih => simp [writePhase, readCount, BusOp.reads, ih]

theorem readCount_readPhase : ∀ n, readCount (readPhase n) = n
  | 0 => rfl
  | 1 => rfl
  | n + 2 => by simp [readPhase, readCount, BusOp.reads, readCount_readPhase (n + 1)]; omega

theorem readCount_burstWrite (off : Byte) (d : List Byte) : readCount (burstWrite off d) = 0 := by
  simp [burstWrite, addressing, readCount_append, readCount, BusOp.reads, readCount_writePhase]

theorem readCount_burstRead (off : Byte) (n : Nat) : readCount (burstRead off n) = n := by
  simp [burstRead, addressing, readCount_append, readCount, BusOp.reads, readCount_readPhase]

theorem readCount_regModify (off mask bits : Byte) : readCount (regModify off mask bits) = 1 := by
  simp [regModify, regRead, readCount_burstRead, addressing, readCount_append, readCount, BusOp.reads]

/-! ### The shape of every command -/

/-- Three register writes in a row keep the preconditions. -/
theorem legalFrom_threeWrites (a b c u v w : Byte) :
    legalFrom .idle (regWrite a u ++ regWrite b v ++ regWrite c w) = true :=
  legalFrom_of_phaseAlong (phaseAlong_append
    (phaseAlong_append (phaseAlong_burstWrite _ _) (phaseAlong_burstWrite _ _)) (phaseAlong_burstWrite _ _))

theorem readCount_threeWrites (a b c u v w : Byte) :
    readCount (regWrite a u ++ regWrite b v ++ regWrite c w) ≤ 56 := by
  simp [regWrite, readCount_append, readCount_burstWrite]

/-- EVERYTHING a command can be: a bus command whose sequence keeps the preconditions; an advance, with `RES` written or not; an
operand fault; or no command at all. -/
theorem exec_shape (i : Instr) (s : State) :
    (∃ need ops fin, exec i s = busCommand need ops fin i.byteLength s ∧ phaseNeeded i = some need
        ∧ legalFrom need ops = true ∧ readCount ops ≤ 56)
      ∨ (∃ r, exec i s = .next (advance i.byteLength r) ∧ (r = s ∨ ∃ v, r = setRes v s) ∧ phaseNeeded i = none)
      ∨ (∃ a, i = .bcdenc a ∧ ¬ a.toNat ≤ 99 ∧ exec i s = .next (raise .operand s))
      ∨ (¬ i.WellFormed ∧ exec i s = illegal s) := by
  have W := fun off d => legalFrom_of_phaseAlong (phaseAlong_burstWrite off d)
  have R := fun off n => legalFrom_of_phaseAlong (phaseAlong_burstRead off n)
  have M := fun off m b => legalFrom_of_phaseAlong (phaseAlong_regModify off m b)
  cases i
  case start | stop | wbit | rbit | wbyte | rbyte | sack | snack | wack =>
    exact .inl ⟨_, _, _, rfl, rfl, rfl, by simp [readCount, BusOp.reads]⟩
  case rdreg => exact .inl ⟨_, _, _, rfl, rfl, R _ _, by rw [regRead, readCount_burstRead]; omega⟩
  case rdsnap => exact .inl ⟨_, _, _, rfl, rfl, R _ _, by rw [readCount_burstRead]; decide⟩
  case rdscrall => exact .inl ⟨_, _, _, rfl, rfl, R _ _, by rw [readCount_burstRead]; decide⟩
  case wrreg => exact .inl ⟨_, _, _, rfl, rfl, W _ _, by rw [regWrite, readCount_burstWrite]; decide⟩
  case sethalt | setout | setsqwe | setrate =>
    exact .inl ⟨_, _, _, rfl, rfl, M _ _ _, by rw [readCount_regModify]; decide⟩
  case brd off n =>
    by_cases h : burstLengthOk n
    · exact .inl ⟨_, _, _, if_pos h, rfl, R _ _, by rw [readCount_burstRead]; exact h.2⟩
    · exact .inr (.inr (.inr ⟨fun hc => h (of_decide_eq_true hc), if_neg h⟩))
  case bwr off d =>
    by_cases h : burstLengthOk d.length
    · exact .inl ⟨_, _, _, if_pos h, rfl, W _ _, by rw [readCount_burstWrite]; decide⟩
    · exact .inr (.inr (.inr ⟨fun hc => h (of_decide_eq_true hc), if_neg h⟩))
  case wrscrall d =>
    by_cases h : d.length = Config.scratchLen
    · exact .inl ⟨_, _, _, if_pos h, rfl, W _ _, by rw [readCount_burstWrite]; decide⟩
    · exact .inr (.inr (.inr ⟨fun hc => h (of_decide_eq_true hc), if_neg h⟩))
  case bcdenc a =>
    by_cases h : a.toNat ≤ 99
    · exact .inr (.inl ⟨_, by show Host.Outcome.next _ = _; rw [if_pos h]; rfl, .inr ⟨_, rfl⟩, rfl⟩)
    · exact .inr (.inr (.inl ⟨a, rfl, h, by show Host.Outcome.next _ = _; rw [if_neg h]⟩))
  case bcddec | bcdyear | bcdhour => exact .inr (.inl ⟨_, rfl, .inr ⟨_, rfl⟩, rfl⟩)
  case wrtime h m x =>
    by_cases hv : timeValid h m x = true
    · refine .inl ⟨.idle, _, _, if_pos hv, ?_, legalFrom_threeWrites _ _ _ _ _ _, readCount_threeWrites _ _ _ _ _ _⟩
      simp [timeValid] at hv; simp [phaseNeeded, hv]
    · refine .inr (.inl ⟨s, if_neg hv, .inl rfl, ?_⟩)
      simp [timeValid] at hv; simp [phaseNeeded]; omega
  case wrdate d m y =>
    by_cases hv : dateValid d m y = true
    · refine .inl ⟨.idle, _, _, if_pos hv, ?_, legalFrom_threeWrites _ _ _ _ _ _, readCount_threeWrites _ _ _ _ _ _⟩
      simp [dateValid] at hv; simp [phaseNeeded, hv]
    · refine .inr (.inl ⟨s, if_neg hv, .inl rfl, ?_⟩)
      simp [dateValid] at hv; simp [phaseNeeded]; omega
  case wrdow a =>
    by_cases hv : dowValid a = true
    · refine .inl ⟨.idle, _, _, if_pos hv, ?_, W _ _, by rw [regWrite, readCount_burstWrite]; decide⟩
      simp [dowValid] at hv; simp [phaseNeeded, hv]
    · refine .inr (.inl ⟨s, if_neg hv, .inl rfl, ?_⟩)
      simp [dowValid] at hv; simp [phaseNeeded]; omega
  case rdscr a =>
    have SV : scratchValid a = true ↔ a.toNat < 56 := decide_eq_true_iff
    by_cases hv : scratchValid a = true
    · refine .inl ⟨.idle, _, _, if_pos hv, ?_, R _ _, by rw [regRead, readCount_burstRead]; decide⟩
      rw [SV] at hv; simp [phaseNeeded]; omega
    · refine .inr (.inl ⟨_, if_neg hv, .inr ⟨_, rfl⟩, ?_⟩)
      rw [SV] at hv; simp [phaseNeeded]; omega
  case wrscr a v =>
    have SV : scratchValid a = true ↔ a.toNat < 56 := decide_eq_true_iff
    by_cases hv : scratchValid a = true
    · refine .inl ⟨.idle, _, _, if_pos hv, ?_, W _ _, by rw [regWrite, readCount_burstWrite]; decide⟩
      rw [SV] at hv; simp [phaseNeeded]; omega
    · refine .inr (.inl ⟨s, if_neg hv, .inl rfl, ?_⟩)
      rw [SV] at hv; simp [phaseNeeded]; omega

theorem phaseAlong_threeWrites (a b c u v w : Byte) :
    phaseAlong .idle (regWrite a u ++ regWrite b v ++ regWrite c w) = some .idle :=
  phaseAlong_append (phaseAlong_append (phaseAlong_burstWrite _ _) (phaseAlong_burstWrite _ _)) (phaseAlong_burstWrite _ _)

/-- Every command that needs an idle bus, START apart, opens with `Start(0xD0)` and a wait, and closes the transfer it opened
(R155 (a), (b)). -/
theorem exec_idle_shape (i : Instr) (s : State) (hw : i.WellFormed) (hn : phaseNeeded i = some .idle)
    (hs : ∀ a, i ≠ .start a) :
    ∃ ops, exec i s = busCommand .idle (.prim (.start 0xD0#8) :: .prim .waitForAck :: ops) (resultOf i) i.byteLength s
      ∧ phaseAlong .idle (.prim (.start 0xD0#8) :: .prim .waitForAck :: ops) = some .idle := by
  have W := phaseAlong_burstWrite
  have R := phaseAlong_burstRead
  have M := phaseAlong_regModify
  cases i
  case start a => exact absurd rfl (hs a)
  case stop | wbit | rbit | wbyte | rbyte | sack | snack | wack => cases hn
  case bcdenc | bcddec | bcdyear | bcdhour => cases hn
  case rdreg => exact ⟨_, rfl, R _ 1⟩
  case rdsnap => exact ⟨_, rfl, R _ 8⟩
  case rdscrall => exact ⟨_, rfl, R _ 56⟩
  case wrreg off v => exact ⟨_, rfl, W _ [v]⟩
  case sethalt | setout | setsqwe | setrate => exact ⟨_, rfl, M _ _ _⟩
  case brd off n => exact ⟨_, if_pos (of_decide_eq_true hw), R _ n⟩
  case bwr off d => exact ⟨_, if_pos (of_decide_eq_true hw), W _ d⟩
  case wrscrall d => exact ⟨_, if_pos (of_decide_eq_true hw), W _ d⟩
  case wrtime h m x =>
    simp [phaseNeeded] at hn
    exact ⟨_, if_pos (by simp [timeValid]; omega), phaseAlong_threeWrites _ _ _ _ _ _⟩
  case wrdate d m y =>
    simp [phaseNeeded] at hn
    exact ⟨_, if_pos (by simp only [dateValid, Bool.and_eq_true, decide_eq_true_eq]; omega), phaseAlong_threeWrites _ _ _ _ _ _⟩
  case wrdow a =>
    simp [phaseNeeded] at hn
    exact ⟨_, if_pos (by simp [dowValid]; omega), W _ [a]⟩
  case rdscr a =>
    simp [phaseNeeded] at hn
    exact ⟨_, if_pos (decide_eq_true (by show _ < 56; omega)), R _ 1⟩
  case wrscr a v =>
    simp [phaseNeeded] at hn
    exact ⟨_, if_pos (decide_eq_true (by show _ < 56; omega)), W _ [v]⟩

/-- The plan of a command is what the command runs. -/
theorem exec_plan {i : Instr} {need : Phase} {ops : List BusOp} (h : busPlan i = some (need, ops)) :
    ∃ fin, ∀ s, exec i s = busCommand need ops fin i.byteLength s := by
  cases i <;> simp only [busPlan] at h
  case bcdenc | bcddec | bcdyear | bcdhour => cases h
  case brd => split at h <;> cases h; next hc => exact ⟨.toBuf, fun s => if_pos hc⟩
  case rdscr => split at h <;> cases h; next hc => exact ⟨.toRes, fun s => if_pos hc⟩
  case bwr | wrtime | wrdate | wrdow | wrscr | wrscrall =>
    split at h <;> cases h; next hc => exact ⟨.nothing, fun s => if_pos hc⟩
  all_goals cases h; exact ⟨_, fun _ => rfl⟩

/-! ### What a reset does first -/

/-- A run of a sequence leaves the run's parameters alone. -/
theorem runOps_sameRun (ops : List BusOp) (rx : List Byte) (fin : Finish) (len : Nat) (s : State) :
    SameRun s (runOps ops rx fin len s) := by
  rcases runOps_cases ops rx fin len s with ⟨u, rx, g, _, e⟩ | ⟨u, k, g, _, _, _, e⟩ <;> rw [e]
  · have r := (finish_rest fin rx len u).2.2.2.2.2.1
    exact ⟨r.1.trans g.handle, r.2.1.trans g.stream, r.2.2.1.trans g.resetReq, r.2.2.2.1.trans g.resetAfter,
      r.2.2.2.2.trans g.attached⟩
  · exact ⟨g.handle, g.stream, g.resetReq, g.resetAfter, g.attached⟩

/-- So does one more sample of a command held up. -/
theorem resume_sameRun (j : Job) (s : State) : SameRun s (resume j s) := by
  have f := sampleAck_frame s
  cases hs : (sampleAck s).1
  · rw [resume_go hs]
    have r := runOps_sameRun j.todo j.rx j.fin j.len (setSCL false { (sampleAck s).2 with busy := none })
    exact ⟨r.1.trans f.handle, r.2.1.trans f.stream, r.2.2.1.trans f.resetReq, r.2.2.2.1.trans f.resetAfter,
      r.2.2.2.2.trans f.attached⟩
  · rw [resume_held hs]
    exact ⟨f.handle, f.stream, f.resetReq, f.resetAfter, f.attached⟩

/-- What a reset interrupts touches nothing but the bus. -/
theorem beforeReset_frame (s : State) : BusFrame s (beforeReset s) := by
  unfold beforeReset
  split
  · exact .refl s
  · split
    · exact resumeUntil_frame _ _ s
    · unfold runPart
      split
      · exact .refl s
      · split
        · exact .refl s
        · split
          · exact runUntil_frame _ _ _ s
          · exact .refl s

/-- No run of a sequence takes the reference device's registers out of their canonical form. -/
theorem runOps_wf (ops : List BusOp) (rx : List Byte) (fin : Finish) (len : Nat) {s : State}
    (h : Memory.wf s.device.regs = true) : Memory.wf (runOps ops rx fin len s).device.regs = true := by
  have step : ∀ (p : Prim) (u : State), Memory.wf u.device.regs = true → Memory.wf (runPrim p u).2.device.regs = true :=
    fun p u hu => by rw [runPrim_device]; exact deviceEvent_wf p hu
  refine runOps_rule (P := fun _ _ u => Memory.wf u.device.regs = true) (Q := fun t => Memory.wf t.device.regs = true)
    ?_ ?_ ?_ ?_ ops rx s h
  · exact fun op rest rx u hu _ => step _ u hu
  · intro rest rx u hu _
    rw [((sampleAck_frame _).trans (setSCL_frame _ _)).device]; exact step _ u hu
  · intro rest rx u hu _
    show Memory.wf (sampleAck (runPrim .waitForAck u).2).2.device.regs = true
    rw [(sampleAck_frame _).device]; exact step _ u hu
  · intro rx u hu
    rw [(finish_rest fin rx len u).2.2.2.2.2.2.2.2.1]; exact hu

theorem resume_wf (j : Job) {s : State} (h : Memory.wf s.device.regs = true) :
    Memory.wf (resume j s).device.regs = true := by
  cases hs : (sampleAck s).1
  · rw [resume_go hs]
    apply runOps_wf
    show Memory.wf (sampleAck s).2.device.regs = true
    rw [(sampleAck_frame s).device]; exact h
  · rw [resume_held hs, (sampleAck_frame s).device]; exact h

theorem beforeReset_wf {s : State} (h : Memory.wf s.device.regs = true) :
    Memory.wf (beforeReset s).device.regs = true := by
  unfold beforeReset
  split
  · exact h
  · split
    · exact resumeUntil_wf _ _ h
    · unfold runPart
      split
      · exact h
      · split
        · exact h
        · split
          · exact runUntil_wf _ _ _ h
          · exact h

/-- A reset that lands before anything else is done. -/
theorem beforeReset_zero {s : State} (h : s.resetAfter = 0) : beforeReset s = s := by
  unfold beforeReset
  split
  · rfl
  · split
    · rw [h]; rfl
    · unfold runPart
      rw [h]
      split
      · rfl
      · split
        · rfl
        · split
          · exact runUntil_zero _ _ _
          · rfl

end Sys2Proof.Machine
end

