-- ==== Sys2Proof/Laws/Completion.lean ====
section
/-! SUPPORT. A command that completes, however late each of its waits is acknowledged: what it has run through, and that it runs
through the same whatever the registers hold. -/

namespace Sys2Proof.Machine

/-! ### The bus does not see the registers -/

/-- The bus and the environment of `s` with the registers of `b`. -/
def overBus (s b : State) : State :=
  { b with
    pins := s.pins
    phase := s.phase
    answers := s.answers
    drawn := s.drawn
    device := s.device
    attached := s.attached
    trace := { s.trace with results := b.trace.results } }

theorem overBus_self (s : State) : overBus s s = s := rfl

/-- Nothing but the bus has changed from `s` to `t`: over the registers of `s`, with another `busy`, `t` is itself so. -/
theorem BusFrame.overBus {s t : State} (f : BusFrame s t) (b : Option Job) :
    overBus t { s with busy := b } = { t with busy := b } := by
  simp only [Machine.overBus, ← f.pc, ← f.res, ← f.buf, ← f.bufn, ← f.snap, ← f.err, ← f.errcode, ← f.errpc, ← f.handle,
    ← f.stream, ← f.resetReq, ← f.resetAfter, ← f.results]

theorem setPins_over (p : Pins) (s b : State) : setPins p (overBus s b) = overBus (setPins p s) b := by
  by_cases h : s.trace.pins.head? = some p <;> simp [setPins, overBus, Trace.recordPins, h]

theorem driveSDA_over (x : Bit) (s b : State) : driveSDA x (overBus s b) = overBus (driveSDA x s) b := setPins_over _ s b
theorem releaseSDA_over (s b : State) : releaseSDA (overBus s b) = overBus (releaseSDA s) b := setPins_over _ s b
theorem setSCL_over (x : Bit) (s b : State) : setSCL x (overBus s b) = overBus (setSCL x s) b := setPins_over _ s b

theorem freeSample_over (s b : State) : freeSample (overBus s b) = ((freeSample s).1, overBus (freeSample s).2 b) := by
  simp only [freeSample]; show (match s.answers with | _ => _) = _; cases h : s.answers <;> simp [overBus, h]

theorem sampleSDA_over (x : Option Bit) (s b : State) :
    sampleSDA x (overBus s b) = ((sampleSDA x s).1, overBus (sampleSDA x s).2 b) := by
  simp only [sampleSDA]
  rw [show (overBus s b).pins = s.pins from rfl]
  cases s.pins.dir
  · cases x
    · exact freeSample_over s b
    · rfl
  · rfl

theorem lineWriteBit_over (x : Bit) (s b : State) : lineWriteBit x (overBus s b) = overBus (lineWriteBit x s) b := by
  simp only [lineWriteBit, driveSDA_over, setSCL_over]

theorem lineWriteBits_over (v : Byte) (is : List Nat) (s b : State) :
    lineWriteBits v is (overBus s b) = overBus (lineWriteBits v is s) b := by
  induction is generalizing s with
  | nil => rfl
  | cons i is ih => simp only [lineWriteBits, lineWriteBit_over, ih]

theorem lineReadBit_over (x : Option Bit) (s b : State) :
    lineReadBit x (overBus s b) = ((lineReadBit x s).1, overBus (lineReadBit x s).2 b) := by
  simp only [lineReadBit, releaseSDA_over, setSCL_over, sampleSDA_over]

theorem lineReadBits_over (x : Option Byte) (is : List Nat) (acc : Byte) (s b : State) :
    lineReadBits x is acc (overBus s b) = ((lineReadBits x is acc s).1, overBus (lineReadBits x is acc s).2 b) := by
  induction is generalizing s acc with
  | nil => rfl
  | cons i is ih => simp only [lineReadBits, lineReadBit_over, ih]

theorem loseDevice_over (s b : State) : loseDevice (overBus s b) = overBus (loseDevice s) b := rfl

theorem logRegs_over (es : List RegEvent) (s b : State) : logRegs es (overBus s b) = overBus (logRegs es s) b := rfl

theorem deviceEvent_over (p : Prim) (s b : State) : deviceEvent p (overBus s b) = overBus (deviceEvent p s) b := by
  simp only [deviceEvent]
  rw [show (overBus s b).device = s.device from rfl]
  cases s.device.event p with
  | none => rfl
  | some q => rfl

theorem logCall_over (p : Prim) (r : Option Byte) (s b : State) :
    logCall p r (overBus s b) = overBus (logCall p r s) b := rfl

theorem setPhase_over (p : Phase) (s b : State) : setPhase p (overBus s b) = overBus (setPhase p s) b := rfl

/-- A primitive runs the same whatever the registers hold. -/
theorem runPrim_over (p : Prim) (s b : State) :
    runPrim p (overBus s b) = ((runPrim p s).1, overBus (runPrim p s).2 b) := by
  cases p <;> simp only [runPrim, deviceEvent_over, lineStart, lineStop, driveSDA_over, setSCL_over, releaseSDA_over,
    lineWriteByte, lineWriteBits_over, setPhase_over, logCall_over, lineReadBit_over, lineWriteBit_over, lineReadByte,
    lineAcknowledge, lineWaitBegin, lineReadBits_over]
  rw [show byteAnswer (overBus s b) = byteAnswer s from rfl]
  rfl

/-- So does a sample of a wait. -/
theorem sampleAck_over (s b : State) : sampleAck (overBus s b) = ((sampleAck s).1, overBus (sampleAck s).2 b) := by
  simp only [sampleAck, show ackAnswer (overBus s b) = ackAnswer s from rfl, sampleSDA_over]

/-- A sample does not see the command it holds up. -/
theorem sampleAck_busy (s : State) (b : Option Job) :
    sampleAck { s with busy := b } = ((sampleAck s).1, { (sampleAck s).2 with busy := b }) := by
  have h := sampleAck_over s { s with busy := b }
  rwa [(BusFrame.refl s).overBus, (sampleAck_frame s).bus.overBus] at h

/-! ### A sequence that completes -/

/-- The loop of a wait from `s` ends, after any number of samples of 1, in `v`, the clock low again (R132). -/
inductive Waited : State → State → Prop
  | now {s : State} (h : (sampleAck s).1 = false) : Waited s (setSCL false (sampleAck s).2)
  | later {s v : State} (h : (sampleAck s).1 = true) (k : Waited (sampleAck s).2 v) : Waited s v

/-- The sequence `ops` runs through from `s` to `u`, every wait ended after any number of samples, reading on from `rx` to
`rx'`. -/
inductive Went : List BusOp → List Byte → State → List Byte → State → Prop
  | nil (rx : List Byte) (s : State) : Went [] rx s rx s
  | prim {op : BusOp} {rest : List BusOp} {rx rx' : List Byte} {s u : State} (h : op.resolve rx ≠ .waitForAck)
      (k : Went rest (rx ++ (runPrim (op.resolve rx) s).1.toList) (runPrim (op.resolve rx) s).2 rx' u) :
      Went (op :: rest) rx s rx' u
  | wait {rest : List BusOp} {rx rx' : List Byte} {s v u : State} (h : Waited (runPrim .waitForAck s).2 v)
      (k : Went rest rx v rx' u) : Went (.prim .waitForAck :: rest) rx s rx' u

/-- A sequence whose waits end at once has run through. -/
theorem Chain.went {ops : List BusOp} {rx rx' : List Byte} {s u : State} (h : Chain ops rx s rx' u) : Went ops rx s rx' u := by
  induction h with
  | nil => exact .nil _ _
  | consPrim h _ ih => exact .prim h ih
  | consWait h _ ih => exact .wait (.now h) ih

theorem Waited.frame {s v : State} (h : Waited s v) : LineFrame s v := by
  induction h with
  | now _ => exact (sampleAck_frame _).trans (setSCL_frame _ _)
  | later _ _ ih => exact (sampleAck_frame _).trans ih

theorem Waited.pins {s v : State} (h : Waited s v) : v.pins = { s.pins with scl := false } := by
  induction h with
  | now _ => rw [setSCL_pins, sampleAck_pins]
  | later _ _ ih => rw [ih, sampleAck_pins]

theorem Waited.over {s v : State} (h : Waited s v) (b : State) : Waited (overBus s b) (overBus v b) := by
  induction h with
  | @now s h =>
    have k := Waited.now (s := overBus s b) (by rw [sampleAck_over]; exact h)
    rwa [sampleAck_over, setSCL_over] at k
  | @later s v h _ ih => exact .later (by rw [sampleAck_over]; exact h) (by rw [sampleAck_over]; exact ih)

theorem Went.frame {ops : List BusOp} {rx rx' : List Byte} {s u : State} (h : Went ops rx s rx' u) : BusFrame s u := by
  induction h with
  | nil => exact .refl _
  | prim _ _ ih => exact (runPrim_frame _ _).trans ih
  | wait h _ ih => exact (runPrim_frame _ _).trans (h.frame.bus.trans ih)

/-- A sequence runs through the same whatever the registers hold. -/
theorem Went.over {ops : List BusOp} {rx rx' : List Byte} {s u : State} (h : Went ops rx s rx' u) (b : State) :
    Went ops rx (overBus s b) rx' (overBus u b) := by
  induction h with
  | nil => exact .nil _ _
  | prim h _ ih => exact .prim h (by rw [runPrim_over]; exact ih)
  | wait h _ ih => exact .wait (by rw [runPrim_over]; exact h.over b) ih

theorem Went.append {o₁ o₂ : List BusOp} {rx rx' rx'' : List Byte} {s t u : State} (h : Went o₁ rx s rx' t)
    (k : Went o₂ rx' t rx'' u) : Went (o₁ ++ o₂) rx s rx'' u := by
  induction h with
  | nil => exact k
  | prim h _ ih => exact .prim h (ih k)
  | wait h _ ih => exact .wait h (ih k)

/-- A sequence that keeps the phase preconditions and closes the transfer leaves the bus idle (R133, R155 (b)). -/
theorem Went.idle {ops : List BusOp} {rx rx' : List Byte} {s u : State} (h : Went ops rx s rx' u)
    (hp : phaseAlong s.phase ops = some .idle) (hi : s.phase = .idle → s.pins = Pins.idle ∨ ops ≠ []) :
    u.phase = .idle ∧ u.pins = Pins.idle := by
  induction h with
  | nil rx s =>
    have hp : s.phase = .idle := Option.some.inj hp
    exact ⟨hp, (hi hp).resolve_right (by simp)⟩
  | @prim op rest rx rx' s u hw _ ih =>
    simp only [phaseAlong, List.foldlM_cons] at hp
    cases hq : op.phaseAfter s.phase with
    | none => rw [hq] at hp; cases hp
    | some q =>
      rw [hq] at hp
      have hq' : (op.resolve rx).phaseAfter s.phase = some q := by rw [← hq]; cases op <;> cases s.phase <;> rfl
      have e : (runPrim (op.resolve rx) s).2.phase = q := by
        rw [runPrim_phase]; revert hq'; cases op.resolve rx <;> cases s.phase <;> simp [Prim.phaseAfter]
      refine ih (by rw [e]; exact hp) fun hc => .inl ?_
      rw [e] at hc; subst hc
      rw [runPrim_pins]
      revert hq'; cases op.resolve rx <;> cases s.phase <;> simp [Prim.phaseAfter]
  | @wait rest rx rx' s v u hw _ ih =>
    have e : v.phase = s.phase := hw.frame.phase.trans (runPrim_phase .waitForAck s)
    have hs : s.phase = .active := by
      cases h : s.phase <;> simp_all [phaseAlong, BusOp.phaseAfter, Prim.phaseAfter]
    refine ih ?_ fun hc => by rw [e, hs] at hc; cases hc
    rw [e]; rw [hs] at hp ⊢
    exact hp

/-! ### Completing, one sample a step -/

theorem goOn_none {s : State} (h : s.busy = none) (n : Nat) : goOn n s = s := by
  cases n <;> simp [goOn, h]

theorem goOn_some {s : State} {j : Job} (h : s.busy = some j) (n : Nat) : goOn (n + 1) s = goOn n (resume j s) := by
  simp [goOn, h]

theorem finish_over (fin : Finish) (rx : List Byte) (len : Nat) {s u : State} (b : Option Job)
    (f : BusFrame { s with busy := b } u) : finish fin rx len (overBus u s) = finish fin rx len u := by
  have h : { overBus u s with busy := none } = ({ u with busy := none } : State) := f.overBus none
  simp only [finish, h]

/-- A command held up that completes has waited, and then run what was still to run. -/
theorem goOn_held : ∀ (n : Nat) (s : State) (j : Job) (t : State), goOn n { s with busy := some j } = t → t.busy = none →
    ∃ m v, Waited s v ∧ goOn m (runOps j.todo j.rx j.fin j.len { v with busy := none }) = t
  | 0, _, _, _, h, ht => by rw [← h] at ht; cases ht
  | n + 1, s, j, t, h, ht => by
    rw [goOn_some rfl] at h
    have hb := sampleAck_busy s (some j)
    cases hs : (sampleAck s).1 with
    | false =>
      rw [resume_go (by rw [hb]; exact hs), hb] at h
      exact ⟨n, _, .now hs, h⟩
    | true =>
      rw [resume_held (by rw [hb]; exact hs), hb] at h
      obtain ⟨m, v, w, k⟩ := goOn_held n _ j t h ht
      exact ⟨m, v, .later hs w, k⟩

/-- EVERYTHING a run of a sequence that completes has done, however late its waits were acknowledged. -/
theorem runOps_went {ops : List BusOp} {rx : List Byte} {fin : Finish} {len n : Nat} {s t : State}
    (h : goOn n (runOps ops rx fin len s) = t) (ht : t.busy = none) :
    ∃ u rx', Went ops rx s rx' u ∧ t = finish fin rx' len u := by
  induction ops generalizing rx s n with
  | nil =>
    rw [runOps_nil, goOn_none (finish_rest fin rx len s).2.2.1] at h
    exact ⟨s, rx, .nil rx s, h.symm⟩
  | cons op rest ih =>
    by_cases hw : op.resolve rx = .waitForAck
    · obtain rfl := resolve_eq_wait hw
      cases hs : (sampleAck (runPrim .waitForAck s).2).1 with
      | false =>
        rw [runOps_wait_go rest rx fin len hs] at h
        obtain ⟨u, rx', w, e⟩ := ih h
        exact ⟨u, rx', .wait (.now hs) w, e⟩
      | true =>
        rw [runOps_wait_held rest rx fin len hs] at h
        obtain ⟨m, v, w, k⟩ := goOn_held n _ _ t h ht
        obtain ⟨u, rx', g, e⟩ := ih k
        refine ⟨overBus u v, rx', .wait (.later hs w) ?_, ?_⟩
        · exact g.over v
        · rw [e, finish_over fin rx' len none g.frame]
    · rw [runOps_prim hw] at h
      obtain ⟨u, rx', w, e⟩ := ih h
      exact ⟨u, rx', .prim hw w, e⟩

/-- A command that has waited goes on from there. -/
theorem Waited.goOn {s v : State} (h : Waited s v) (j : Job) :
    ∃ n, ∀ m, Machine.goOn (n + m) { s with busy := some j } =
      Machine.goOn m (runOps j.todo j.rx j.fin j.len { v with busy := none }) := by
  induction h with
  | @now s h =>
    refine ⟨1, fun m => ?_⟩
    have hb := sampleAck_busy s (some j)
    rw [Nat.add_comm, goOn_some rfl, resume_go (by rw [hb]; exact h), hb]
    rfl
  | @later s v h _ ih =>
    obtain ⟨n, k⟩ := ih
    refine ⟨n + 1, fun m => ?_⟩
    have hb := sampleAck_busy s (some j)
    rw [show n + 1 + m = n + m + 1 by omega, goOn_some rfl, resume_held (by rw [hb]; exact h), hb]
    exact k m

/-- A sequence that can be run through, with its waits as late as they are, is completed by the run and its samples. -/
theorem Went.completes {ops : List BusOp} {rx rx' : List Byte} {s u : State} (h : Went ops rx s rx' u) (fin : Finish)
    (len : Nat) : ∃ n, goOn n (runOps ops rx fin len s) = finish fin rx' len u := by
  induction ops generalizing rx s u with
  | nil => cases h; exact ⟨0, rfl⟩
  | cons op rest ih =>
    cases h with
    | prim hw k => rw [runOps_prim hw]; exact ih k
    | @wait _ _ _ _ v _ hw k =>
      cases hw with
      | now hs => rw [runOps_wait_go rest rx fin len hs]; exact ih k
      | later hs hw =>
        rw [runOps_wait_held rest rx fin len hs]
        obtain ⟨n, g⟩ := hw.goOn ⟨rest, rx, fin, len⟩
        have k' := k.over { v with busy := none }
        rw [show overBus v { v with busy := none } = { v with busy := none } from (BusFrame.refl v).overBus none] at k'
        obtain ⟨m, e⟩ := ih k'
        refine ⟨n + m, (g m).trans (e.trans ?_)⟩
        have hf : finish fin rx' len (overBus (overBus u { v with busy := none }) v) =
            finish fin rx' len (overBus u { v with busy := none }) := finish_over fin rx' len none (by
          have := k'.frame
          exact this)
        rw [← hf]
        exact (finish_over fin rx' len v.busy k.frame)

/-! ### Commands that complete -/

/-- A bus command that completes has run through its sequence and written its result. -/
theorem Completes.went {i : Instr} {need : Phase} {ops : List BusOp} {fin : Finish} {len : Nat} {s t : State}
    (h : Completes i s t) (hp : s.phase = need) (he : exec i s = busCommand need ops fin len s) :
    ∃ u rx, Went ops [] s rx u ∧ t = finish fin rx len u := by
  obtain ⟨t₀, n, h1, h2, h3⟩ := h
  rw [he, busCommand_run hp] at h1; cases h1
  exact runOps_went h2 h3

theorem Went.command {i : Instr} {need : Phase} {ops : List BusOp} {fin : Finish} {len : Nat} {s u : State} {rx : List Byte}
    (h : Went ops [] s rx u) (hp : s.phase = need) (he : exec i s = busCommand need ops fin len s) :
    Completes i s (finish fin rx len u) := by
  obtain ⟨n, e⟩ := h.completes fin len
  exact ⟨_, n, he.trans (busCommand_run hp ops fin len), e, (finish_rest fin rx len u).2.2.1⟩

/-- A command that needs an idle bus, START apart, and completes: the bus is idle again and `PC` has advanced (R155 (b)). -/
theorem Completes.idle {i : Instr} {s t : State} (h : Completes i s t) (hw : i.WellFormed)
    (hn : phaseNeeded i = some .idle) (hs : ∀ a, i ≠ .start a) (hp : s.phase = .idle) : CompletedIdle i.byteLength s t := by
  obtain ⟨ops, he, ha⟩ := exec_idle_shape i s hw hn hs
  obtain ⟨u, rx, g, rfl⟩ := h.went hp he
  have f := g.frame
  obtain ⟨i1, i2⟩ := g.idle (by rw [hp]; exact ha) fun _ => .inr (by simp)
  obtain ⟨r1, r2, r3, r4, r5, r6, _⟩ := finish_rest (resultOf i) rx i.byteLength u
  refine ⟨r2.trans i1, r1.trans i2, r3, by rw [r4, f.pc], ?_, ?_⟩
  · exact ⟨r5.1.trans f.err, r5.2.1.trans f.errcode, r5.2.2.trans f.errpc⟩
  · exact ⟨r6.1.trans f.handle, r6.2.1.trans f.stream, r6.2.2.1.trans f.resetReq, r6.2.2.2.1.trans f.resetAfter,
      r6.2.2.2.2.trans f.attached⟩

end Sys2Proof.Machine
end

