-- ==== Sys2Proof/Laws/PerInstr.lean ====
section
/-! SUPPORT. The statement made for every command as data, one lemma per constructor: the encoding of a well-formed command has
the length R93 gives its format, at least one byte and at most 59, and its first byte is never 0x00 or 0xFF (R93, R100 (a)). -/

namespace Sys2Proof.Laws

/-- A well-formed command's encoding has the length of its format, between 1 and 59 bytes, and opens with an opcode that is
neither 0x00 nor 0xFF. -/
def Length.Statement (i : Instr) : Prop :=
  i.WellFormed → (encode i).length = i.byteLength ∧ 1 ≤ i.byteLength ∧ i.byteLength ≤ maxCommandBytes
    ∧ (encode i).head? ≠ some 0x00#8 ∧ (encode i).head? ≠ some 0xFF#8

theorem Length.start (a : Byte) : Length.Statement (.start a) := by
  intro _; simp [encode, Instr.byteLength, maxCommandBytes]

theorem Length.stop : Length.Statement (.stop) := by
  intro _; simp [encode, Instr.byteLength, maxCommandBytes]

theorem Length.wbit (f : Bit) : Length.Statement (.wbit f) := by
  intro _; simp [encode, Instr.byteLength, maxCommandBytes]

theorem Length.rbit : Length.Statement (.rbit) := by
  intro _; simp [encode, Instr.byteLength, maxCommandBytes]

theorem Length.wbyte (a : Byte) : Length.Statement (.wbyte a) := by
  intro _; simp [encode, Instr.byteLength, maxCommandBytes]

theorem Length.rbyte : Length.Statement (.rbyte) := by
  intro _; simp [encode, Instr.byteLength, maxCommandBytes]

theorem Length.sack : Length.Statement (.sack) := by
  intro _; simp [encode, Instr.byteLength, maxCommandBytes]

theorem Length.snack : Length.Statement (.snack) := by
  intro _; simp [encode, Instr.byteLength, maxCommandBytes]

theorem Length.wack : Length.Statement (.wack) := by
  intro _; simp [encode, Instr.byteLength, maxCommandBytes]

theorem Length.rdreg (off : BitVec 6) : Length.Statement (.rdreg off) := by
  intro _; simp [encode, Instr.byteLength, maxCommandBytes]

theorem Length.wrreg (off : BitVec 6) (v : Byte) : Length.Statement (.wrreg off v) := by
  intro _; simp [encode, Instr.byteLength, maxCommandBytes]

theorem Length.brd (off : BitVec 6) (n : Nat) : Length.Statement (.brd off n) := by
  intro _; simp [encode, Instr.byteLength, maxCommandBytes]

theorem Length.bwr (off : BitVec 6) (d : List Byte) : Length.Statement (.bwr off d) := by
  intro h
  have hd : 1 ≤ d.length ∧ d.length ≤ 56 := of_decide_eq_true h
  simp only [encode, Instr.byteLength, maxCommandBytes, List.length_cons, List.head?_cons]
  refine ⟨by omega, by omega, by omega, by decide, by decide⟩

theorem Length.bcdenc (a : Byte) : Length.Statement (.bcdenc a) := by
  intro _; simp [encode, Instr.byteLength, maxCommandBytes]

theorem Length.bcddec (a : Byte) : Length.Statement (.bcddec a) := by
  intro _; simp [encode, Instr.byteLength, maxCommandBytes]

theorem Length.bcdyear (a : Byte) : Length.Statement (.bcdyear a) := by
  intro _; simp [encode, Instr.byteLength, maxCommandBytes]

theorem Length.bcdhour (a : Byte) : Length.Statement (.bcdhour a) := by
  intro _; simp [encode, Instr.byteLength, maxCommandBytes]

theorem Length.rdsnap : Length.Statement (.rdsnap) := by
  intro _; simp [encode, Instr.byteLength, maxCommandBytes]

theorem Length.wrtime (hour : Byte) (minute : Byte) (second : Byte) : Length.Statement (.wrtime hour minute second) := by
  intro _; simp [encode, Instr.byteLength, maxCommandBytes]

theorem Length.wrdate (day : Byte) (month : Byte) (year : Half) : Length.Statement (.wrdate day month year) := by
  intro _; simp [encode, Instr.byteLength, maxCommandBytes]

theorem Length.wrdow (a : Byte) : Length.Statement (.wrdow a) := by
  intro _; simp [encode, Instr.byteLength, maxCommandBytes]

theorem Length.sethalt (f : Bit) : Length.Statement (.sethalt f) := by
  intro _; simp [encode, Instr.byteLength, maxCommandBytes]

theorem Length.setout (f : Bit) : Length.Statement (.setout f) := by
  intro _; simp [encode, Instr.byteLength, maxCommandBytes]

theorem Length.setsqwe (f : Bit) : Length.Statement (.setsqwe f) := by
  intro _; simp [encode, Instr.byteLength, maxCommandBytes]

theorem Length.setrate (r : BitVec 2) : Length.Statement (.setrate r) := by
  intro _; simp [encode, Instr.byteLength, maxCommandBytes]

theorem Length.rdscr (a : Byte) : Length.Statement (.rdscr a) := by
  intro _; simp [encode, Instr.byteLength, maxCommandBytes]

theorem Length.wrscr (a : Byte) (v : Byte) : Length.Statement (.wrscr a v) := by
  intro _; simp [encode, Instr.byteLength, maxCommandBytes]

theorem Length.rdscrall : Length.Statement (.rdscrall) := by
  intro _; simp [encode, Instr.byteLength, maxCommandBytes]

theorem Length.wrscrall (d : List Byte) : Length.Statement (.wrscrall d) := by
  intro h
  have hd : d.length = 56 := of_decide_eq_true h
  simp only [encode, Instr.byteLength, maxCommandBytes, List.length_cons, List.head?_cons]
  refine ⟨by omega, by omega, by omega, by decide, by decide⟩

/-- The statement holds of every command. -/
theorem Length.all (i : Instr) : Length.Statement i := by
  cases i with
  | start a => exact Length.start a
  | stop => exact Length.stop
  | wbit f => exact Length.wbit f
  | rbit => exact Length.rbit
  | wbyte a => exact Length.wbyte a
  | rbyte => exact Length.rbyte
  | sack => exact Length.sack
  | snack => exact Length.snack
  | wack => exact Length.wack
  | rdreg off => exact Length.rdreg off
  | wrreg off v => exact Length.wrreg off v
  | brd off n => exact Length.brd off n
  | bwr off d => exact Length.bwr off d
  | bcdenc a => exact Length.bcdenc a
  | bcddec a => exact Length.bcddec a
  | bcdyear a => exact Length.bcdyear a
  | bcdhour a => exact Length.bcdhour a
  | rdsnap => exact Length.rdsnap
  | wrtime hour minute second => exact Length.wrtime hour minute second
  | wrdate day month year => exact Length.wrdate day month year
  | wrdow a => exact Length.wrdow a
  | sethalt f => exact Length.sethalt f
  | setout f => exact Length.setout f
  | setsqwe f => exact Length.setsqwe f
  | setrate r => exact Length.setrate r
  | rdscr a => exact Length.rdscr a
  | wrscr a v => exact Length.wrscr a v
  | rdscrall => exact Length.rdscrall
  | wrscrall d => exact Length.wrscrall d

end Sys2Proof.Laws
end

