-- ==== Sys2Proof/Laws/Sequencer.lean ====
section
/-! SUPPORT. What one step can be, said once, and how runs compose. -/

namespace Sys2Proof.Machine

theorem step_reset {s : State} (h1 : s.handle.scl ≠ s.handle.sda) (h2 : s.stream.length ≤ Config.maxStream)
    (h3 : s.resetReq = true) : step s = .next (hostReset (beforeReset s)) := by
  unfold step nextAction; simp [h1, Nat.not_lt.mpr h2, h3]

theorem step_fault {s : State} (hr : s.Ready) (he : s.err = true) : step s = .next s := by
  obtain ⟨h1, h2, h3⟩ := hr
  unfold step nextAction; simp [h1, Nat.not_lt.mpr h2, h3, he]

theorem step_held {s : State} {j : Job} (hr : s.Ready) (he : s.err = false) (hb : s.busy = some j) :
    step s = .next (resume j s) := by
  obtain ⟨h1, h2, h3⟩ := hr
  unfold step nextAction; simp [h1, Nat.not_lt.mpr h2, h3, he, hb]

theorem step_done {s : State} (h : s.AtBoundary) (he : s.pc.toNat = s.stream.length) : step s = .next s := by
  obtain ⟨⟨h1, h2, h3⟩, h4, h5⟩ := h
  unfold step nextAction; simp [h1, Nat.not_lt.mpr h2, h3, h4, h5, fetch, he]

theorem step_fetch {s : State} (h : s.AtBoundary) (hl : s.pc.toNat < s.stream.length) :
    step s = match decode (s.stream.drop s.pc.toNat) with
      | .ok (i, _) => exec i s
      | .error _ => illegal s := by
  obtain ⟨⟨h1, h2, h3⟩, h4, h5⟩ := h
  unfold step nextAction
  simp only [h1, Nat.not_lt.mpr h2, h3, h4, h5, fetch, fetchBytes, hl, if_true, if_false]
  cases decode (s.stream.drop s.pc.toNat) <;> simp

/-- EVERYTHING a step that answers a next state can be. -/
theorem step_next {s t : State} (h : step s = .next t) :
    (s.handle.scl ≠ s.handle.sda ∧ s.stream.length ≤ Config.maxStream)
      ∧ ((s.resetReq = true ∧ t = hostReset (beforeReset s))
        ∨ (s.Ready ∧ s.err = true ∧ t = s)
        ∨ (s.Ready ∧ s.err = false ∧ ∃ j, s.busy = some j ∧ t = resume j s)
        ∨ (s.AtBoundary ∧ s.pc.toNat = s.stream.length ∧ t = s)
        ∨ (s.AtBoundary ∧ s.pc.toNat < s.stream.length
          ∧ ((t = raise .illegalCommand s) ∨ ∃ i rest, decode (s.stream.drop s.pc.toNat) = .ok (i, rest)
            ∧ exec i s = .next t))) := by
  by_cases h1 : s.handle.scl = s.handle.sda
  · unfold step nextAction at h; simp [h1] at h
  by_cases h2 : s.stream.length ≤ Config.maxStream
  swap
  · unfold step nextAction at h; simp [h1, Nat.not_le.mp h2] at h
  refine ⟨⟨h1, h2⟩, ?_⟩
  by_cases h3 : s.resetReq = true
  · rw [step_reset h1 h2 h3] at h; cases h; exact .inl ⟨h3, rfl⟩
  have hr : s.Ready := ⟨h1, h2, by simpa using h3⟩
  by_cases h4 : s.err = true
  · rw [step_fault hr h4] at h; cases h; exact .inr (.inl ⟨hr, h4, rfl⟩)
  have h4 : s.err = false := by simpa using h4
  cases h5 : s.busy with
  | some j => rw [step_held hr h4 h5] at h; cases h; exact .inr (.inr (.inl ⟨hr, h4, j, rfl, rfl⟩))
  | none =>
    have hb : s.AtBoundary := ⟨hr, h4, h5⟩
    rcases Nat.lt_trichotomy s.pc.toNat s.stream.length with hl | he | hg
    · refine .inr (.inr (.inr (.inr ⟨hb, hl, ?_⟩)))
      rw [step_fetch hb hl] at h
      cases hd : decode (s.stream.drop s.pc.toNat) with
      | error e => rw [hd] at h; cases h; exact .inl rfl
      | ok p => rw [hd] at h; exact .inr ⟨p.1, p.2, rfl, h⟩
    · rw [step_done hb he] at h; cases h; exact .inr (.inr (.inr (.inl ⟨hb, he, rfl⟩)))
    · unfold step nextAction at h
      simp [h1, Nat.not_lt.mpr h2, hr.2.2, h4, h5, fetch, Nat.not_lt.mpr hg.le, Nat.ne_of_gt hg] at h

theorem run_succ {s t : State} {n : Nat} (h : step s = .next t) :
    Host.Core.run core (n + 1) s = Host.Core.run core n t := by
  simp only [Host.Core.run]
  rw [show core.step s = .next t from h]

theorem run_add {m n : Nat} {s t : State} (h : Host.Core.run core m s = .next t) :
    Host.Core.run core (m + n) s = Host.Core.run core n t := by
  induction m generalizing s with
  | zero => simp only [Host.Core.run] at h; cases h; simp
  | succ m ih =>
    rw [show m + 1 + n = m + n + 1 by omega]
    cases hs : step s with
    | next u => rw [run_succ hs] at h ⊢; exact ih h
    | fault f => simp only [Host.Core.run, show core.step s = .fault f from hs] at h; cases h
    | refused r => simp only [Host.Core.run, show core.step s = .refused r from hs] at h; cases h

end Sys2Proof.Machine
end

