-- ==== Sys2Proof/Laws/Transcript.lean ====
section
/-! SUPPORT. What the calls of a completed sequence are: the transcript of each pattern, peeled from its front (R150 to R153,
R195). -/

namespace Sys2Proof.Machine

/-- The calls `cs` (oldest first) of a sequence run through, with the values they returned, reading on from `rx` to `rx'`. -/
inductive Transcript : List BusOp → List Byte → List Byte → List Call → Prop
  | nil (rx : List Byte) : Transcript [] rx rx []
  | cons {op : BusOp} {rest : List BusOp} {rx rx' : List Byte} {cs : List Call} (r : Option Byte)
      (hr : r.toList.length = (BusOp.prim (op.resolve rx)).reads) (h : Transcript rest (rx ++ r.toList) rx' cs) :
      Transcript (op :: rest) rx rx' (⟨op.resolve rx, r⟩ :: cs)

/-- A sequence run through, its waits ended after any number of samples, has made its calls, in order. -/
theorem Went.transcript {ops : List BusOp} {rx rx' : List Byte} {s u : State} (h : Went ops rx s rx' u) :
    ∃ cs, Transcript ops rx rx' cs ∧ u.trace.calls = cs.reverse ++ s.trace.calls := by
  induction h with
  | nil => exact ⟨[], .nil _, rfl⟩
  | @prim op rest rx rx' s u _ _ ih =>
    obtain ⟨cs, ht, hc⟩ := ih
    exact ⟨_, .cons _ (runPrim_reads _ s) ht, by rw [hc, runPrim_calls]; simp⟩
  | @wait rest rx rx' s v u h _ ih =>
    obtain ⟨cs, ht, hc⟩ := ih
    refine ⟨_, .cons none rfl (by simpa using ht), ?_⟩
    rw [hc, h.frame.calls, runPrim_calls]; simp [BusOp.resolve]; rfl

/-- A bus command that completes, however late its waits are acknowledged, has made the calls of its sequence. -/
theorem Completes.transcript {i : Instr} {need : Phase} {ops : List BusOp} {fin : Finish} {len : Nat} {s t : State}
    (h : Completes i s t) (hp : s.phase = need) (he : exec i s = busCommand need ops fin len s) :
    ∃ u rx cs, Transcript ops [] rx cs ∧ BusFrame s u ∧ t = finish fin rx len u
      ∧ t.trace.calls = cs.reverse ++ s.trace.calls := by
  obtain ⟨u, rx, g, rfl⟩ := h.went hp he
  obtain ⟨cs, ht, hc⟩ := g.transcript
  exact ⟨u, rx, cs, ht, g.frame, rfl, (finish_rest fin rx len u).2.2.2.2.2.2.2.2.2.2.1.trans hc⟩

variable {rest : List BusOp} {rx rx' : List Byte} {cs : List Call}

theorem Transcript.nil_inv (h : Transcript [] rx rx' cs) : rx' = rx ∧ cs = [] := by cases h; exact ⟨rfl, rfl⟩

/-- An entry that reads nothing. -/
theorem Transcript.call_inv {op : BusOp} {p : Prim} (h : Transcript (op :: rest) rx rx' cs) (hp : op.resolve rx = p)
    (hr : (BusOp.prim p).reads = 0) : ∃ cs', cs = called p :: cs' ∧ Transcript rest rx rx' cs' := by
  cases h with
  | cons r h1 h2 =>
    rw [hp, hr] at h1
    have : r = none := by cases r <;> simp_all
    subst this
    exact ⟨_, by rw [hp]; rfl, by simpa using h2⟩

theorem Transcript.readByte_inv (h : Transcript (.prim .readByte :: rest) rx rx' cs) :
    ∃ v cs', cs = ⟨.readByte, some v⟩ :: cs' ∧ Transcript rest (rx ++ [v]) rx' cs' := by
  cases h with
  | cons r h1 h2 =>
    cases r with
    | none => simp [BusOp.reads, BusOp.resolve] at h1
    | some v => exact ⟨v, _, rfl, by simpa using h2⟩

theorem Transcript.addressing_inv {off : Byte} (h : Transcript (addressing off ++ rest) rx rx' cs) :
    ∃ cs', cs = addressCalls off ++ cs' ∧ Transcript rest rx rx' cs' := by
  obtain ⟨c₁, rfl, h₁⟩ := h.call_inv rfl rfl
  obtain ⟨c₂, rfl, h₂⟩ := h₁.call_inv rfl rfl
  obtain ⟨c₃, rfl, h₃⟩ := h₂.call_inv rfl rfl
  obtain ⟨c₄, rfl, h₄⟩ := h₃.call_inv rfl rfl
  exact ⟨c₄, rfl, h₄⟩

theorem Transcript.writePhase_inv {d : List Byte} (h : Transcript (writePhase d ++ rest) rx rx' cs) :
    ∃ cs', cs = dataWriteCalls d ++ cs' ∧ Transcript rest rx rx' cs' := by
  induction d generalizing cs with
  | nil => exact ⟨_, rfl, h⟩
  | cons v vs ih =>
    obtain ⟨c₁, rfl, h₁⟩ := h.call_inv rfl rfl
    obtain ⟨c₂, rfl, h₂⟩ := h₁.call_inv rfl rfl
    obtain ⟨c₃, rfl, h₃⟩ := ih h₂
    exact ⟨c₃, rfl, h₃⟩

theorem Transcript.readPhase_inv : ∀ (n : Nat) {rx rx' : List Byte} {cs : List Call} {rest : List BusOp},
    Transcript (readPhase n ++ rest) rx rx' cs →
      ∃ d cs', d.length = n ∧ cs = dataReadCalls d ++ cs' ∧ Transcript rest (rx ++ d) rx' cs'
  | 0, _, _, _, _, h => ⟨[], _, rfl, rfl, by simpa [readPhase] using h⟩
  | 1, _, _, _, _, h => by
    obtain ⟨v, c₁, rfl, h₁⟩ := h.readByte_inv
    obtain ⟨c₂, rfl, h₂⟩ := h₁.call_inv rfl rfl
    exact ⟨[v], _, rfl, rfl, h₂⟩
  | n + 2, _, _, _, _, h => by
    obtain ⟨v, c₁, rfl, h₁⟩ := h.readByte_inv
    obtain ⟨c₂, rfl, h₂⟩ := h₁.call_inv rfl rfl
    obtain ⟨d, c₃, hd, rfl, h₃⟩ := Transcript.readPhase_inv (n + 1) h₂
    cases d with
    | nil => simp at hd
    | cons w ws => exact ⟨v :: w :: ws, _, by simpa using hd, rfl, by simpa using h₃⟩

theorem Transcript.burstRead_inv {off : Byte} {n : Nat} (h : Transcript (burstRead off n ++ rest) rx rx' cs) :
    ∃ d cs', d.length = n ∧ cs = burstReadCalls off d ++ cs' ∧ Transcript rest (rx ++ d) rx' cs' := by
  simp only [burstRead, List.append_assoc] at h
  obtain ⟨c₁, rfl, h₁⟩ := h.addressing_inv
  obtain ⟨c₂, rfl, h₂⟩ := h₁.call_inv rfl rfl
  obtain ⟨c₃, rfl, h₃⟩ := h₂.call_inv rfl rfl
  obtain ⟨c₄, rfl, h₄⟩ := h₃.call_inv rfl rfl
  obtain ⟨d, c₅, hd, rfl, h₅⟩ := Transcript.readPhase_inv n h₄
  obtain ⟨c₆, rfl, h₆⟩ := h₅.call_inv rfl rfl
  exact ⟨d, c₆, hd, by simp [burstReadCalls, BusOp.resolve]; rfl, h₆⟩

theorem Transcript.burstWrite_inv {off : Byte} {d : List Byte} (h : Transcript (burstWrite off d ++ rest) rx rx' cs) :
    ∃ cs', cs = burstWriteCalls off d ++ cs' ∧ Transcript rest rx rx' cs' := by
  simp only [burstWrite, List.append_assoc] at h
  obtain ⟨c₁, rfl, h₁⟩ := h.addressing_inv
  obtain ⟨c₂, rfl, h₂⟩ := h₁.writePhase_inv
  obtain ⟨c₃, rfl, h₃⟩ := h₂.call_inv rfl rfl
  exact ⟨c₃, by simp [burstWriteCalls, BusOp.resolve], h₃⟩

theorem Transcript.regModify_inv {off mask bits : Byte} (h : Transcript (regModify off mask bits) [] rx' cs) :
    ∃ v, cs = burstReadCalls off [v] ++ burstWriteCalls off [(v &&& ~~~mask) ||| bits] := by
  simp only [regModify, regRead, List.append_assoc] at h
  obtain ⟨d, c₁, hd, rfl, h₁⟩ := h.burstRead_inv
  match d, hd with
  | [v], _ =>
    obtain ⟨c₂, rfl, h₂⟩ := h₁.addressing_inv
    obtain ⟨c₃, rfl, h₃⟩ := h₂.call_inv rfl rfl
    obtain ⟨c₄, rfl, h₄⟩ := h₃.call_inv rfl rfl
    obtain ⟨c₅, rfl, h₅⟩ := h₄.call_inv rfl rfl
    obtain ⟨rfl, rfl⟩ := h₅.nil_inv
    exact ⟨v, rfl⟩

/-- A run leaves every result register alone but the one its `Finish` names (R201). -/
theorem runOps_results (ops : List BusOp) (rx : List Byte) (fin : Finish) (len : Nat) (s : State) :
    ((runOps ops rx fin len s).res ≠ s.res → fin = .toRes)
      ∧ ((runOps ops rx fin len s).buf ≠ s.buf ∨ (runOps ops rx fin len s).bufn ≠ s.bufn → fin = .toBuf)
      ∧ ((runOps ops rx fin len s).snap ≠ s.snap → fin = .toSnap) := by
  rcases runOps_cases ops rx fin len s with ⟨u, rx, f, _, e⟩ | ⟨u, j, f, _, _, _, e⟩ <;> rw [e]
  · cases fin <;> simp [finish, writeResult, f.res, f.buf, f.bufn, f.snap]
  · simp [f.res, f.buf, f.bufn, f.snap]

end Sys2Proof.Machine
end

