-- ==== Sys2Proof/Tests/Slice0.lean ====
section
/-! SUPPORT. Tests of single steps, each expected value from spec/95_test_vectors.md, and for every statement with hypotheses a
witness that meets them. -/

-- One theorem after another: some two hundred at a time would ask for more threads than the memory bound allows.
set_option Elab.async false

open Sys2Proof Sys2Proof.Machine

namespace Sys2Proof.Tests

/-! ### Helpers -/

/-- A reading of the state an outcome gives, `none` where it gives none. -/
def read {α : Type} (f : State → α) : Host.Outcome State Fault Refusal → Option α
  | .next t => some (f t)
  | _ => none

/-- Reset, with a stream. -/
def running (bs : List Byte) : State := { State.reset with stream := bs }

/-- Reset, with the oracle's next answers. -/
def oracle (bs : List Bit) : State := { State.reset with answers := bs }

/-- Reset, against the reference device with the registers `m`. -/
def bench (m : List Host.Cell) : State :=
  { State.reset with attached := true, device := { Device.initial with regs := m } }

/-- Reset, but a transfer is open with the pins `p`, and the oracle answers `bs`. -/
def opened (p : Pins) (bs : List Bit) : State :=
  { State.reset with phase := .active, pins := p, answers := bs, trace := ⟨[p], [], [], []⟩ }

/-- The pin states `0/O/0`, `0/I/0`, ... of spec/95 V2. -/
def pin (scl : Nat) (out : Bool) (sda : Nat) : Pins := ⟨scl == 1, if out then .output else .input, sda == 1⟩

/-- A WACK held up in its wait, against an oracle that answers `bs`. -/
def held (bs : List Bit) : State :=
  { opened (pin 1 false 0) bs with busy := some ⟨[], [], .nothing, 1⟩, stream := [0x09#8] }

/-- The answers to one wait that its device acknowledges `n` samples late. -/
def late (n : Nat) : List Bit := List.replicate n true ++ [false]

/-- The pin trace, oldest first. -/
def pinTrace (s : State) : List Pins := s.trace.pins.reverse

/-- The register trace, oldest first. -/
def regTrace (s : State) : List RegEvent := s.trace.regs.reverse

/-! ### Well-formedness: each check refuses an ill-formed term -/

theorem test_wf_brd_zero : Instr.wellFormed (.brd 0#6 0) = false := by decide
theorem test_wf_brd_57 : Instr.wellFormed (.brd 0#6 57) = false := by decide
theorem test_wf_brd_bounds : (Instr.brd 63#6 1).WellFormed ∧ (Instr.brd 63#6 56).WellFormed := by decide
theorem test_wf_bwr_empty : Instr.wellFormed (.bwr 0#6 []) = false := by decide
theorem test_wf_bwr_57 : Instr.wellFormed (.bwr 0#6 (List.replicate 57 0#8)) = false := by decide
theorem test_wf_bwr_56 : (Instr.bwr 0#6 (List.replicate 56 0#8)).WellFormed := by decide
theorem test_wf_wrscrall_55 : Instr.wellFormed (.wrscrall (List.replicate 55 0#8)) = false := by decide
theorem test_wf_wrscrall_57 : Instr.wellFormed (.wrscrall (List.replicate 57 0#8)) = false := by decide
theorem test_wf_wrscrall_56 : (Instr.wrscrall (List.replicate 56 0#8)).WellFormed := by decide

/-! ### Decoding: spec/95 V1, one word per constructor, written out from R91 and R92 -/

theorem test_decode_start : decode [0x01#8, 0xD0#8] = .ok (.start 0xD0#8, []) := by decide
theorem test_decode_stop : decode [0x02#8] = .ok (.stop, []) := by decide
theorem test_decode_wbit : decode [0x03#8, 0x01#8] = .ok (.wbit true, []) := by decide
theorem test_decode_rbit : decode [0x04#8] = .ok (.rbit, []) := by decide
theorem test_decode_wbyte : decode [0x05#8, 0x07#8] = .ok (.wbyte 0x07#8, []) := by decide
theorem test_decode_rbyte : decode [0x06#8] = .ok (.rbyte, []) := by decide
theorem test_decode_sack : decode [0x07#8] = .ok (.sack, []) := by decide
theorem test_decode_snack : decode [0x08#8] = .ok (.snack, []) := by decide
theorem test_decode_wack : decode [0x09#8] = .ok (.wack, []) := by decide
theorem test_decode_rdreg : decode [0x10#8, 0x07#8] = .ok (.rdreg 7#6, []) := by decide
theorem test_decode_wrreg : decode [0x11#8, 0x07#8, 0x10#8] = .ok (.wrreg 7#6 0x10#8, []) := by decide
theorem test_decode_brd : decode [0x12#8, 0x00#8, 0x08#8] = .ok (.brd 0#6 8, []) := by decide
theorem test_decode_bwr : decode [0x13#8, 0x08#8, 0x03#8, 0x11#8, 0x22#8, 0x33#8]
    = .ok (.bwr 8#6 [0x11#8, 0x22#8, 0x33#8], []) := by decide
theorem test_decode_bcdenc : decode [0x20#8, 0x2D#8] = .ok (.bcdenc 45#8, []) := by decide
theorem test_decode_bcddec : decode [0x21#8, 0x59#8] = .ok (.bcddec 0x59#8, []) := by decide
theorem test_decode_bcdyear : decode [0x22#8, 0x24#8] = .ok (.bcdyear 0x24#8, []) := by decide
theorem test_decode_bcdhour : decode [0x23#8, 0x13#8] = .ok (.bcdhour 0x13#8, []) := by decide
theorem test_decode_rdsnap : decode [0x30#8] = .ok (.rdsnap, []) := by decide
theorem test_decode_wrtime : decode [0x31#8, 0x0D#8, 0x2D#8, 0x09#8] = .ok (.wrtime 13#8 45#8 9#8, []) := by decide
theorem test_decode_wrdate : decode [0x32#8, 0x07#8, 0x03#8, 0x07#8, 0xE8#8] = .ok (.wrdate 7#8 3#8 2024#16, []) := by
  decide
theorem test_decode_wrdow : decode [0x33#8, 0x04#8] = .ok (.wrdow 4#8, []) := by decide
theorem test_decode_sethalt : decode [0x34#8, 0x01#8] = .ok (.sethalt true, []) := by decide
theorem test_decode_setout : decode [0x35#8, 0x00#8] = .ok (.setout false, []) := by decide
theorem test_decode_setsqwe : decode [0x36#8, 0x01#8] = .ok (.setsqwe true, []) := by decide
theorem test_decode_setrate : decode [0x37#8, 0x03#8] = .ok (.setrate 3#2, []) := by decide
theorem test_decode_rdscr : decode [0x38#8, 0x0C#8] = .ok (.rdscr 12#8, []) := by decide
theorem test_decode_wrscr : decode [0x39#8, 0x0C#8, 0x7A#8] = .ok (.wrscr 12#8 0x7A#8, []) := by decide
theorem test_decode_rdscrall : decode [0x3A#8] = .ok (.rdscrall, []) := by decide
theorem test_decode_wrscrall : decode (0x3B#8 :: List.replicate 56 0x5A#8 ++ [0x02#8])
    = .ok (.wrscrall (List.replicate 56 0x5A#8), [0x02#8]) := by decide +kernel

/-- The bytes after a command are the next command's. -/
theorem test_decode_rest : decode [0x20#8, 0x63#8, 0x0A#8] = .ok (.bcdenc 99#8, [0x0A#8]) := by decide

/-! Illegal encodings of spec/95 V1. -/

theorem test_illegal_opcodes :
    ([0x00, 0xFF, 0x0A, 0x0F, 0x14, 0x1F, 0x24, 0x2F, 0x3C, 0x40, 0x80] : List Nat).all
      (fun b => decide (decode [BitVec.ofNat 8 b] = .error .unknownOpcode)) = true := by decide
theorem test_illegal_wbit : decode [0x03#8, 0x02#8] = .error .mustBeZero := by decide
theorem test_illegal_sethalt : decode [0x34#8, 0x80#8] = .error .mustBeZero := by decide
theorem test_illegal_setrate : decode [0x37#8, 0x04#8] = .error .mustBeZero := by decide
theorem test_illegal_rdreg : decode [0x10#8, 0x40#8] = .error .mustBeZero := by decide
theorem test_illegal_wrreg : decode [0x11#8, 0xFF#8, 0x00#8] = .error .mustBeZero := by decide
theorem test_illegal_brd_zero : decode [0x12#8, 0x00#8, 0x00#8] = .error .badCount := by decide
theorem test_illegal_brd_57 : decode [0x12#8, 0x00#8, 0x39#8] = .error .badCount := by decide
theorem test_illegal_bwr_zero : decode [0x13#8, 0x08#8, 0x00#8] = .error .badCount := by decide
theorem test_illegal_bwr_short : decode [0x13#8, 0x08#8, 0x02#8, 0x01#8] = .error .truncated := by decide
theorem test_illegal_bwr_no_count : decode [0x13#8, 0x08#8] = .error .truncated := by decide
theorem test_illegal_wrtime_short : decode [0x31#8, 0x01#8, 0x02#8] = .error .truncated := by decide
theorem test_illegal_start_short : decode [0x01#8] = .error .truncated := by decide
theorem test_illegal_wrscrall_short : decode (0x3B#8 :: List.replicate 55 0#8) = .error .truncated := by decide

/-- V1: stream `20 63 0A`, the second command: `ERRCODE = 1`, `ERRPC = 2`, `PC = 2`, `RES` kept. -/
theorem test_illegal_step :
    read (fun t => (t.err, t.errcode, t.errpc, t.pc, t.res))
      (step { running [0x20#8, 0x63#8, 0x0A#8] with pc := 2#16, res := 0x99#16 })
      = some (true, 1#2, 2#16, 2#16, 0x99#16) := by decide

/-- The opcode table's word of START with operand 0, and the refused word of BRD with a count of 0. -/
theorem test_table_words : decodeTableWord 16 0x0001 = some (.start 0#8) ∧ decodeTableWord 24 0x000012 = none := by
  decide +kernel

/-! ### Line primitives: spec/95 V2 -/

theorem test_start_pins :
    read pinTrace (exec (.start 0xD0#8) State.reset) = some
      [pin 1 false 1, pin 1 true 1, pin 1 true 0, pin 0 true 0, pin 0 true 1, pin 1 true 1, pin 0 true 1, pin 1 true 1,
        pin 0 true 1, pin 0 true 0, pin 1 true 0, pin 0 true 0, pin 0 true 1, pin 1 true 1, pin 0 true 1, pin 0 true 0,
        pin 1 true 0, pin 0 true 0, pin 1 true 0, pin 0 true 0, pin 1 true 0, pin 0 true 0, pin 1 true 0, pin 0 true 0] := by
  decide +kernel

/-- `01 D0 01 D0`: the second START faults, pins `0/O/0`. -/
theorem test_start_in_a_transfer :
    read (fun t => (t.errcode, t.phase, t.pins)) (exec (.start 0xD0#8) (opened (pin 0 true 0) []))
      = some (2#2, .active, pin 0 true 0) := by decide +kernel

theorem test_stop_pins :
    read (fun t => (pinTrace t, t.phase)) (exec .stop (opened (pin 0 false 1) []))
      = some ([pin 0 false 1, pin 0 true 0, pin 1 true 0, pin 1 true 1, pin 1 false 1], .idle) := by decide +kernel

theorem test_stop_idle :
    read (fun t => (t.err, t.errcode, t.errpc, pinTrace t)) (exec .stop State.reset)
      = some (true, 2#2, 0#16, [pin 1 false 1]) := by decide +kernel

theorem test_wbit_one :
    read pinTrace (exec (.wbit true) (opened (pin 0 true 0) []))
      = some [pin 0 true 0, pin 0 true 1, pin 1 true 1, pin 0 true 1] := by decide +kernel

theorem test_wbit_merged :
    read pinTrace (exec (.wbit false) (opened (pin 0 true 0) []))
      = some [pin 0 true 0, pin 1 true 0, pin 0 true 0] := by decide +kernel

theorem test_rbit_zero :
    read (fun t => (pinTrace t, t.res)) (exec .rbit (opened (pin 0 true 1) [false]))
      = some ([pin 0 true 1, pin 0 false 1, pin 1 false 1, pin 0 false 1], 0#16) := by decide +kernel

theorem test_rbit_one :
    read (fun t => (pinTrace t, t.res)) (exec .rbit (opened (pin 0 false 1) [true]))
      = some ([pin 0 false 1, pin 1 false 1, pin 0 false 1], 1#16) := by decide +kernel

theorem test_wbyte_pins :
    read pinTrace (exec (.wbyte 0x07#8) (opened (pin 0 false 0) [])) = some
      [pin 0 false 0, pin 0 true 0, pin 1 true 0, pin 0 true 0, pin 1 true 0, pin 0 true 0, pin 1 true 0, pin 0 true 0,
        pin 1 true 0, pin 0 true 0, pin 1 true 0, pin 0 true 0, pin 0 true 1, pin 1 true 1, pin 0 true 1, pin 1 true 1,
        pin 0 true 1, pin 1 true 1, pin 0 true 1] := by decide +kernel

theorem test_rbyte_a5 :
    read (fun t => (t.res, t.pins)) (exec .rbyte (opened (pin 0 false 1) [true, false, true, false, false, true, false, true]))
      = some (0xA5#16, pin 0 false 1) := by decide +kernel

/-- The first sample is bit 7. -/
theorem test_rbyte_first :
    read State.res (exec .rbyte (opened (pin 0 false 1) [true, false, false, false, false, false, false, false]))
      = some 0x80#16 := by decide +kernel

theorem test_sack_pins :
    read pinTrace (exec .sack (opened (pin 0 false 1) []))
      = some [pin 0 false 1, pin 0 true 0, pin 1 true 0, pin 0 true 0, pin 0 false 0] := by decide +kernel

theorem test_snack_pins :
    read pinTrace (exec .snack (opened (pin 0 false 0) []))
      = some [pin 0 false 0, pin 0 true 1, pin 1 true 1, pin 0 true 1, pin 0 false 1] := by decide +kernel

theorem test_wack_ends :
    read (fun t => (pinTrace t, t.busy, t.pc)) (exec .wack (opened (pin 0 true 0) [false]))
      = some ([pin 0 true 0, pin 0 false 0, pin 1 false 0, pin 0 false 0], none, 1#16) := by decide +kernel

theorem test_wack_held :
    read (fun t => (pinTrace t, t.busy.isSome, t.pc, t.answers)) (exec .wack (opened (pin 0 true 0) [true, false]))
      = some ([pin 0 true 0, pin 0 false 0, pin 1 false 0], true, 0#16, [false]) := by decide +kernel

/-- U5: a wait after a byte read is out of its order, the wait for the address byte's acknowledgement is not. -/
theorem test_device_wait_in_d_read :
    Device.event .waitForAck ⟨[], 1#6, .readOn, true⟩ = none
      ∧ Device.event .waitForAck ⟨[], 1#6, .read, true⟩ = some (⟨[], 1#6, .read, true⟩, []) := by decide

/-! ### Transfer patterns: spec/95 V3 -/

theorem test_rdreg_7 :
    read (fun t => (t.res, t.device.ptr, regTrace t)) (exec (.rdreg 7#6) (bench [(7, 0xA5#8)]))
      = some (0xA5#16, 8#6, [.rd 7#6 0xA5#8]) := by decide +kernel

theorem test_rdreg_63 :
    read (fun t => (t.res, t.device.ptr)) (exec (.rdreg 63#6) (bench [(63, 0x3C#8)])) = some (0x3C#16, 0#6) := by
  decide +kernel

theorem test_wrreg_calls :
    read (fun t => (t.trace.calls.reverse, t.device.regs)) (exec (.wrreg 7#6 0x10#8) (bench []))
      = some ([called (.start 0xD0#8), called .waitForAck, called (.writeByte 0x07#8), called .waitForAck,
          called (.writeByte 0x10#8), called .waitForAck, called .stop], [(7, 0x10#8)]) := by decide +kernel

theorem test_brd_calls :
    read (fun t => (t.trace.calls.reverse, t.buf.take 3, t.bufn)) (exec (.brd 7#6 2) (bench [(7, 0xA5#8)]))
      = some ([called (.start 0xD0#8), called .waitForAck, called (.writeByte 0x07#8), called .waitForAck, called .stop,
          called (.start 0xD1#8), called .waitForAck, ⟨.readByte, some 0xA5#8⟩, called .sendAck,
          ⟨.readByte, some 0x00#8⟩, called .sendNack, called .stop], [0xA5#8, 0#8, 0#8], 2#6) := by decide +kernel

/-- P8: a burst read across offset 63. -/
theorem test_brd_wraps :
    read (fun t => (t.buf.take 4, t.bufn, t.device.ptr))
      (exec (.brd 62#6 4) (bench [(0, 0xCC#8), (1, 0x22#8), (62, 0xAA#8), (63, 0xBB#8)]))
      = some ([0xAA#8, 0xBB#8, 0xCC#8, 0x22#8], 4#6, 2#6) := by decide +kernel

theorem test_bwr_trace :
    read (fun t => (regTrace t, t.device.ptr, t.pc)) (exec (.bwr 8#6 [0x11#8, 0x22#8, 0x33#8]) (bench []))
      = some ([.wr 8#6 0x11#8, .wr 9#6 0x22#8, .wr 10#6 0x33#8], 11#6, 6#16) := by decide +kernel

/-- P8: a burst write across offset 63. -/
theorem test_bwr_wraps :
    read (fun t => t.device.regs) (exec (.bwr 62#6 [0xAA#8, 0xBB#8, 0xCC#8]) (bench [(0, 0x11#8), (1, 0x22#8)]))
      = some [(0, 0xCC#8), (1, 0x22#8), (62, 0xAA#8), (63, 0xBB#8)] := by decide +kernel

/-! ### Codec: spec/95 V4 -/

theorem test_bcdenc_99 : read State.res (exec (.bcdenc 99#8) State.reset) = some 0x99#16 := by decide +kernel
theorem test_bcdenc_100 :
    read (fun t => (t.errcode, t.res)) (exec (.bcdenc 100#8) State.reset) = some (3#2, 0#16) := by decide +kernel
theorem test_bcddec_7f : read State.res (exec (.bcddec 0x7F#8) State.reset) = some 85#16 := by decide +kernel
theorem test_bcddec_99 : read State.res (exec (.bcddec 0x99#8) State.reset) = some 19#16 := by decide +kernel
theorem test_bcdyear_ff : read State.res (exec (.bcdyear 0xFF#8) State.reset) = some 2165#16 := by decide +kernel
theorem test_bcdyear_80 : read State.res (exec (.bcdyear 0x80#8) State.reset) = some 2080#16 := by decide +kernel
theorem test_bcdhour_12 : read State.res (exec (.bcdhour 0xB2#8) State.reset) = some 14#16 := by decide +kernel
theorem test_bcdhour_24 : read State.res (exec (.bcdhour 0x7F#8) State.reset) = some 45#16 := by decide +kernel

/-! ### Register model: spec/95 V5 -/

theorem test_rdsnap_instant :
    read State.snap (exec .rdsnap (bench [(0, 0xC5#8), (1, 0x59#8), (2, 0xA1#8), (3, 0x07#8), (4, 0x31#8), (5, 0x12#8),
      (6, 0x99#8)])) = some ⟨13#8, 59#8, 45#8, 31#8, 12#8, 2099#16, 7#8⟩ := by decide +kernel

theorem test_rdsnap_blank :
    read (fun t => (t.snap, t.snap.ok, t.device.ptr)) (exec .rdsnap (bench []))
      = some (⟨0#8, 0#8, 0#8, 0#8, 0#8, 2000#16, 0#8⟩, false, 8#6) := by decide +kernel

/-- V5, and its "Partial completion": three waits acknowledged, the fourth not. -/
theorem test_wrtime_trace :
    read (fun t => (regTrace t, t.device.ptr)) (exec (.wrtime 13#8 45#8 9#8) (bench []))
      = some ([.wr 2#6 0x13#8, .wr 1#6 0x45#8, .wr 0#6 0x09#8], 1#6)
    ∧ read (fun t => (regTrace t, t.dev 1, t.pins))
        (exec (.wrtime 13#8 45#8 9#8) { bench [(1, 7#8)] with attached := false, answers := [false, false, false, true] })
      = some ([.wr 2#6 0x13#8], 7#8, pin 1 false 0) := by decide +kernel

/-- S3: an hour of 24 has no effect but the advance, in a transfer as well (V5 "Check order"). -/
theorem test_wrtime_skip :
    read (fun t => (t.pc, t.err, t.trace.calls)) (exec (.wrtime 24#8 0#8 0#8) (opened (pin 0 true 0) []))
      = some (4#16, false, []) := by decide +kernel

theorem test_wrdate_trace :
    read regTrace (exec (.wrdate 31#8 12#8 2099#16) (bench []))
      = some [.wr 6#6 0x99#8, .wr 5#6 0x12#8, .wr 4#6 0x31#8] := by decide +kernel

theorem test_wrdate_skip :
    read (fun t => (t.pc, t.err, t.trace.calls)) (exec (.wrdate 1#8 1#8 3000#16) State.reset)
      = some (5#16, false, []) := by decide +kernel

theorem test_wrdow_7 : read regTrace (exec (.wrdow 7#8) (bench [])) = some [.wr 3#6 0x07#8] := by decide +kernel
theorem test_wrdow_8 : read (fun t => (t.pc, regTrace t)) (exec (.wrdow 8#8) (bench [])) = some (2#16, []) := by
  decide +kernel

theorem test_sethalt_set :
    read regTrace (exec (.sethalt true) (bench [(0, 0x45#8)])) = some [.rd 0#6 0x45#8, .wr 0#6 0xC5#8] := by decide +kernel
theorem test_sethalt_clear :
    read regTrace (exec (.sethalt false) (bench [(0, 0xC5#8)])) = some [.rd 0#6 0xC5#8, .wr 0#6 0x45#8] := by decide +kernel
theorem test_setout_set :
    read regTrace (exec (.setout true) (bench [(7, 0x13#8)])) = some [.rd 7#6 0x13#8, .wr 7#6 0x93#8] := by decide +kernel
theorem test_setout_clear :
    read regTrace (exec (.setout false) (bench [(7, 0xFF#8)])) = some [.rd 7#6 0xFF#8, .wr 7#6 0x7F#8] := by decide +kernel
theorem test_setsqwe_set :
    read regTrace (exec (.setsqwe true) (bench [(7, 0x83#8)])) = some [.rd 7#6 0x83#8, .wr 7#6 0x93#8] := by decide +kernel
theorem test_setsqwe_clear :
    read regTrace (exec (.setsqwe false) (bench [(7, 0x93#8)])) = some [.rd 7#6 0x93#8, .wr 7#6 0x83#8] := by decide +kernel
theorem test_setrate_2 :
    read regTrace (exec (.setrate 2#2) (bench [(7, 0x6D#8)])) = some [.rd 7#6 0x6D#8, .wr 7#6 0x6E#8] := by decide +kernel
theorem test_setrate_0 :
    read regTrace (exec (.setrate 0#2) (bench [(7, 0xFF#8)])) = some [.rd 7#6 0xFF#8, .wr 7#6 0xFC#8] := by decide +kernel

theorem test_rdscr_55 : read State.res (exec (.rdscr 55#8) (bench [(63, 0x3C#8)])) = some 0x3C#16 := by decide +kernel
theorem test_rdscr_56 :
    read (fun t => (t.res, t.trace.calls)) (exec (.rdscr 56#8) { bench [] with res := 9#16 }) = some (0#16, []) := by
  decide +kernel
theorem test_wrscr_12 : read regTrace (exec (.wrscr 12#8 0x7A#8) (bench [])) = some [.wr 20#6 0x7A#8] := by decide +kernel
theorem test_wrscr_56 : read (fun t => (t.pc, regTrace t)) (exec (.wrscr 56#8 0xEE#8) (bench [])) = some (3#16, []) := by
  decide +kernel

theorem test_rdscrall_ends :
    read (fun t => (t.buf.head?, t.buf.getLast?, t.bufn, t.device.ptr)) (exec .rdscrall (bench [(8, 0x5A#8), (63, 0x37#8)]))
      = some (some 0x5A#8, some 0x37#8, 56#6, 0#6) := by decide +kernel

theorem test_wrscrall_ends :
    read (fun t => (t.dev 7, t.dev 8, t.dev 63, t.device.ptr, t.pc))
      (exec (.wrscrall (0xA1#8 :: List.replicate 54 0x55#8 ++ [0xA2#8])) (bench []))
      = some (0#8, 0xA1#8, 0xA2#8, 0#6, 57#16) := by decide +kernel

/-- Terms no bytes decode to raise ILLEGAL_COMMAND. -/
theorem test_illformed :
    read State.errcode (exec (.brd 0#6 57) State.reset) = some 1#2
      ∧ read State.errcode (exec (.bwr 0#6 []) State.reset) = some 1#2
      ∧ read State.errcode (exec (.wrscrall []) State.reset) = some 1#2 := by decide +kernel

/-! ### Sequencer -/

/-- A placed instruction is the one the next step runs. -/
theorem test_fetch_word :
    read (fun t => (t.res, t.pc)) (step (State.reset.withFetchWord 16 0x5921)) = some (59#16, 2#16) := by decide +kernel

/-- One more sample of 0 ends the wait. -/
theorem test_resume :
    read (fun t => (t.busy, t.pc, pinTrace t))
      (step (held [false]))
      = some (none, 1#16, [pin 1 false 0, pin 0 false 0]) := by decide +kernel

/-- A reset in the middle of a command abandons it (R260). -/
theorem test_reset_in_a_wait :
    read (fun t => (t.busy, t.pins, t.phase, t.pc)) (step { held [] with resetReq := true })
      = some (none, pin 1 false 1, .idle, 0#16) := by decide +kernel

/-- A reset inside a WBIT, with the clock high: the pins of V2's `WBIT 1` so far, then the reset's (R260, R285). -/
theorem test_reset_in_a_primitive :
    read (fun t => (pinTrace t, t.phase, t.pc))
      (step { opened (pin 0 true 0) [] with stream := [0x03#8, 0x01#8], resetReq := true, resetAfter := 2 })
      = some ([pin 0 true 0, pin 0 true 1, pin 1 true 1, pin 1 false 1], .idle, 0#16) := by decide +kernel

/-! ### Witnesses: for every statement with hypotheses, states and operands that meet them all, one per clause -/

/-- A command at a boundary, and one that a wait holds up. -/
theorem witness_StepRunsTheDecodedCommand :
    ((running [0x20#8, 0x2D#8]).AtBoundary
      ∧ decode ((running [0x20#8, 0x2D#8]).stream.drop (running [0x20#8, 0x2D#8]).pc.toNat) = .ok (.bcdenc 45#8, []))
      ∧ (held [true]).Ready ∧ (held [true]).err = false ∧ (held [true]).busy = some ⟨[], [], .nothing, 1⟩ := by
  decide +kernel

/-- The six ways to be illegal, each as a whole stream from reset. -/
theorem witness_IllegalEncodingsFault_boundary :
    [[0x0A#8], [0x34#8, 2#8], [0x37#8, 4#8], [0x11#8, 64#8], [0x12#8, 0#8, 0#8], [0x13#8, 63#8, 57#8], [0x31#8, 1#8, 2#8]].all
      (fun bs => decide ((running bs).AtBoundary ∧ (running bs).stream.drop (running bs).pc.toNat = bs)) = true := by
  decide +kernel
theorem witness_IllegalEncodingsFault_opcode : ∃ op rest, [0x0A#8] = op :: rest ∧ op.toNat ∉ [0x01, 0x02, 0x03, 0x04,
    0x05, 0x06, 0x07, 0x08, 0x09, 0x10, 0x11, 0x12, 0x13, 0x20, 0x21, 0x22, 0x23, 0x30, 0x31, 0x32, 0x33, 0x34, 0x35, 0x36,
    0x37, 0x38, 0x39, 0x3A, 0x3B] := ⟨0x0A#8, [], by decide⟩
theorem witness_IllegalEncodingsFault_flag :
    ∃ op b rest, [0x34#8, 2#8] = op :: b :: rest ∧ op.toNat ∈ [0x03, 0x34, 0x35, 0x36] ∧ 2 ≤ b.toNat :=
  ⟨0x34#8, 2#8, [], by decide⟩
theorem witness_IllegalEncodingsFault_rate : ∃ b rest, [0x37#8, 4#8] = 0x37#8 :: b :: rest ∧ 4 ≤ b.toNat :=
  ⟨4#8, [], by decide⟩
theorem witness_IllegalEncodingsFault_offset :
    ∃ op b rest, [0x11#8, 64#8] = op :: b :: rest ∧ op.toNat ∈ [0x10, 0x11, 0x12, 0x13] ∧ 64 ≤ b.toNat :=
  ⟨0x11#8, 64#8, [], by decide⟩
theorem witness_IllegalEncodingsFault_count :
    (∃ op b n rest, [0x12#8, 0#8, 0#8] = op :: b :: n :: rest ∧ op.toNat ∈ [0x12, 0x13] ∧ (n.toNat = 0 ∨ 56 < n.toNat))
      ∧ (∃ op b n rest, [0x13#8, 63#8, 57#8] = op :: b :: n :: rest ∧ op.toNat ∈ [0x12, 0x13]
          ∧ (n.toNat = 0 ∨ 56 < n.toNat)) :=
  ⟨⟨0x12#8, 0#8, 0#8, [], by decide⟩, ⟨0x13#8, 63#8, 57#8, [], by decide⟩⟩
theorem witness_IllegalEncodingsFault_short : ∃ i k, i.WellFormed ∧ 0 < k ∧ k < (encode i).length
    ∧ [0x31#8, 1#8, 2#8] = (encode i).take k := ⟨.wrtime 1#8 2#8 3#8, 3, by decide⟩

theorem witness_DecodeOfEncode : (Instr.brd 63#6 56).WellFormed ∧ (Instr.bwr 0#6 [0xFF#8]).WellFormed
    ∧ (Instr.wrscrall (List.replicate 56 1#8)).WellFormed := by decide

theorem witness_EncodeOfDecode : decode [0x37#8, 0x03#8, 0xFF#8] = .ok (.setrate 3#2, [0xFF#8]) := by decide

/-- A command that ends, one that faults, one that a wait holds up. -/
theorem witness_PcAdvancesByLength :
    (∃ t, exec (.bcdenc 99#8) State.reset = .next t ∧ t.err = false ∧ t.busy = none)
      ∧ (∃ t, exec (.bcdenc 100#8) State.reset = .next t ∧ t.err = true)
      ∧ (∃ t, exec .wack (opened (pin 0 true 0) [true]) = .next t ∧ t.busy ≠ none) :=
  ⟨⟨_, rfl, by decide +kernel⟩, ⟨_, rfl, by decide +kernel⟩, ⟨_, rfl, by decide +kernel⟩⟩

theorem witness_FaultsArePrecise :
    (∃ t, exec (.bcdenc 100#8) State.reset = .next t ∧ t.err = true ∧ t.Ready)
      ∧ (∃ t, exec .rbit State.reset = .next t ∧ t.err = true ∧ t.Ready)
      ∧ (∃ t, exec (.brd 0#6 0) State.reset = .next t ∧ t.err = true ∧ t.Ready) :=
  ⟨⟨_, rfl, by decide +kernel⟩, ⟨_, rfl, by decide +kernel⟩, ⟨_, rfl, by decide +kernel⟩⟩

theorem witness_PhaseViolationsFault :
    (phaseNeeded .stop = some .active ∧ State.reset.phase ≠ .active)
      ∧ (phaseNeeded (.wrtime 23#8 59#8 59#8) = some .idle ∧ (opened (pin 0 true 0) []).phase ≠ .idle)
      ∧ (∃ t, exec .stop State.reset = .next t ∧ t.err = true ∧ t.errcode = 2#2) :=
  ⟨by decide, by decide, ⟨_, rfl, by decide +kernel⟩⟩

theorem witness_OnlyResetLeavesAFault :
    (∃ t, step { State.reset with err := true } = .next t)
      ∧ (∃ t, step { State.reset with err := true, resetReq := true } = .next t) := ⟨⟨_, rfl⟩, ⟨_, rfl⟩⟩

theorem witness_DoneStandsStill :
    (State.reset.AtBoundary ∧ State.reset.pc.toNat = State.reset.stream.length)
      ∧ ({ running [0x02#8] with pc := 1#16 } : State).AtBoundary := by decide

theorem witness_ResetEvent :
    let s : State := { opened (pin 1 false 0) [] with resetReq := true, err := true, stream := [0x02#8] }
    s.handle.scl ≠ s.handle.sda ∧ s.stream.length ≤ 65535 ∧ s.resetReq = true ∧ s.resetAfter = 0 := by decide

/-- WRTIME 23, 59, 59 up to its second transfer; START before and after its start condition; RBYTE before its first bit, after three and
after all eight; a wait before its next sample and after two. -/
theorem witness_ResetInsideACommand :
    let w : State := { bench [(1, 0x45#8)] with stream := [0x31#8, 23#8, 59#8, 59#8], resetReq := true, resetAfter := 92 }
    let a (n : Nat) : State := { bench [] with stream := [0x01#8, 0xD0#8], resetReq := true, resetAfter := n }
    let r (bits : List Bit) : State :=
      { opened (pin 0 false 1) (bits ++ [true]) with stream := [0x06#8], resetReq := true, resetAfter := 4 * bits.length }
    let h (n : Nat) : State := { held (List.replicate n true ++ [false]) with resetReq := true, resetAfter := n }
    let ok (s : State) : Prop :=
      s.handle.scl ≠ s.handle.sda ∧ s.stream.length ≤ 65535 ∧ s.err = false ∧ s.resetReq = true
    (ok w ∧ w.OnBench ∧ w.busy = none ∧ decode (w.stream.drop w.pc.toNat) = .ok (.wrtime 23#8 59#8 59#8, []))
      ∧ (∀ n ∈ [1, 2, 3], ok (a n) ∧ 1 ≤ n ∧ n ≤ 3 ∧ (a n).busy = none ∧ (a n).phase = .idle
        ∧ (a n).pins = ⟨true, .input, true⟩ ∧ (a n).trace.pins.head? = some (a n).pins
        ∧ decode ((a n).stream.drop (a n).pc.toNat) = .ok (.start 0xD0#8, []) ∧ (a n).resetAfter = n)
      ∧ (∀ bits ∈ [[], [true, false, true], List.replicate 8 true], ok (r bits) ∧ bits.length ≤ 8 ∧ (r bits).busy = none
        ∧ (r bits).phase = .active ∧ (r bits).attached = false ∧ (r bits).answers = bits ++ [true]
        ∧ decode ((r bits).stream.drop (r bits).pc.toNat) = .ok (.rbyte, []))
      ∧ (∀ n ∈ [0, 2], ok (h n) ∧ (h n).busy = some ⟨[], [], .nothing, 1⟩ ∧ (h n).attached = false
        ∧ (h n).pins.dir = .input ∧ (h n).answers = List.replicate n true ++ [false]) := by
  decide +kernel

/-- An idle bus, an open transfer against the oracle, an open transfer against the reference device. -/
theorem witness_ResetAndTheDevice :
    let r : State := { State.reset with resetReq := true }
    let ok (s : State) : Prop :=
      s.handle.scl ≠ s.handle.sda ∧ s.stream.length ≤ 65535 ∧ s.resetReq = true ∧ s.resetAfter = 0
    (ok r ∧ r.phase = .idle) ∧ (ok { r with phase := .active } ∧ r.attached = false)
      ∧ (ok { r with phase := .active, attached := true }
        ∧ ({ r with phase := .active, attached := true } : State).phase = .active) := by decide

/-- From reset, and in a wait. -/
theorem witness_EveryStepKeepsTheInvariant :
    (State.reset.Inv ∧ ∃ t, step State.reset = .next t) ∧ ((held [false]).Inv ∧ ∃ t, step (held [false]) = .next t) :=
  ⟨⟨by decide +kernel, _, rfl⟩, ⟨by decide +kernel, _, rfl⟩⟩

/-- A START from reset; a START after a reset that cut a transfer short; a reset in an open transfer. -/
theorem witness_DataLineStableWhileClockHigh :
    let s := running [0x01#8, 0xD0#8]
    let cut : State := { s with trace := ⟨[pin 1 false 1, pin 0 true 0, pin 1 false 1], [], [], []⟩ }
    let r : State :=
      { opened (pin 0 true 0) [] with
        resetReq := true
        trace := ⟨[pin 0 true 0, pin 1 true 0, pin 1 true 1, pin 1 false 1], [], [], []⟩ }
    (s.Inv ∧ s.trace.pins = [pin 1 false 1] ++ [] ∧ s.StableOver [pin 1 false 1] ∧ s.resetReq = false
        ∧ ∃ t, step s = .next t)
      ∧ (cut.Inv ∧ cut.trace.pins = [pin 1 false 1] ++ [pin 0 true 0, pin 1 false 1] ∧ cut.StableOver [pin 1 false 1]
        ∧ cut.resetReq = false ∧ ∃ t, step cut = .next t)
      ∧ (r.Inv ∧ r.trace.pins = r.trace.pins ++ [] ∧ r.StableOver r.trace.pins ∧ r.resetReq = true
        ∧ ∃ t, step r = .next t) :=
  ⟨⟨by decide +kernel, rfl, by decide +kernel, rfl, _, rfl⟩, ⟨by decide +kernel, rfl, by decide +kernel, rfl, _, rfl⟩,
    ⟨by decide +kernel, rfl, by decide +kernel, rfl, _, rfl⟩⟩

theorem witness_RunParametersAreFixed : ∃ t, step (running [0x20#8, 0x2D#8]) = .next t := ⟨_, rfl⟩

/-- A command that writes `RES`, one that writes `BUF`, one that writes `SNAP`; a command held up; a held command that ends with
its result, and one that is held up again. -/
theorem witness_OnlyTheirCommandsWriteResults :
    (∃ t, exec (.bcddec 0x59#8) State.reset = .next t ∧ t.res ≠ State.reset.res)
      ∧ (∃ t, exec (.brd 7#6 2) (bench [(7, 0xA5#8)]) = .next t ∧ t.buf ≠ (bench [(7, 0xA5#8)]).buf ∧ t.bufn ≠ 0#6)
      ∧ (∃ t, exec .rdsnap (bench []) = .next t ∧ t.snap ≠ (bench []).snap)
      ∧ (∃ t, exec .rdsnap (oracle [true]) = .next t ∧ (oracle [true]).busy = none ∧ t.busy ≠ none)
      ∧ (∃ t, step { held [false] with busy := some ⟨[], [7#8], .toRes, 1⟩ } = .next t ∧ t.res ≠ 0#16)
      ∧ (∃ t, step (held [true]) = .next t ∧ (held [true]).Ready ∧ t.busy ≠ none) :=
  ⟨⟨_, rfl, by decide +kernel⟩, ⟨_, rfl, by decide +kernel⟩, ⟨_, rfl, by decide +kernel⟩, ⟨_, rfl, by decide +kernel⟩,
    ⟨_, rfl, by decide +kernel⟩, ⟨_, rfl, by decide +kernel⟩⟩

/-- A register write that completes at once, one that completes after four late samples, one still held up after one. -/
theorem witness_BusCommandsCompleteOrHang :
    (Instr.wrreg 7#6 0x10#8).WellFormed ∧ phaseNeeded (.wrreg 7#6 0x10#8) = some .idle
      ∧ (∀ a, Instr.wrreg 7#6 0x10#8 ≠ .start a) ∧ (bench []).phase = .idle ∧ (oracle [true, true]).phase = .idle
      ∧ (∃ u t, exec (.wrreg 7#6 0x10#8) (bench []) = .next u ∧ goOn 0 u = t ∧ t.busy = none)
      ∧ (∃ u t, exec (.wrreg 7#6 0x10#8) (oracle [true, false, true, true, false, true, false]) = .next u ∧ goOn 4 u = t
        ∧ u.busy ≠ none ∧ t.busy = none)
      ∧ (∃ u t, exec (.wrreg 7#6 0x10#8) (oracle [true, true]) = .next u ∧ goOn 1 u = t ∧ t.busy ≠ none) :=
  ⟨rfl, rfl, fun _ h => (by cases h), rfl, rfl, ⟨_, _, rfl, rfl, by decide +kernel⟩, ⟨_, _, rfl, rfl, by decide +kernel⟩,
    ⟨_, _, rfl, rfl, by decide +kernel⟩⟩

/-- Both branches of the hour decode, at their boundary bytes 0x80 and 0x7F. -/
theorem witness_BcdhourResult :
    (0 = if 128 ≤ (0x80#8).toNat then (0x80#8).toNat % 16 + 12 * ((0x80#8).toNat / 32 % 2)
        else (0x80#8).toNat % 16 + 10 * ((0x80#8).toNat / 16 % 4))
      ∧ (45 = if 128 ≤ (0x7F#8).toNat then (0x7F#8).toNat % 16 + 12 * ((0x7F#8).toNat / 32 % 2)
        else (0x7F#8).toNat % 16 + 10 * ((0x7F#8).toNat / 16 % 4)) := by decide

/-- The bounds; a byte that comes back, one that comes back as another, one past 99 that does not come back. -/
theorem witness_CodecRoundTrips :
    ((99#8).toNat ≤ 99 ∧ (79#8).toNat ≤ 79 ∧ ¬ (80#8).toNat ≤ 79 ∧ (23#8).toNat ≤ 23)
      ∧ bcdEncode (decodeYear 0x99#8) = 0x99#8 ∧ bcdEncode (decodeYear 0x0A#8) = 0x10#8
      ∧ bcdEncode (decodeYear 0xA0#8) ≠ 0xA0#8 := by decide

/-- Each check fails at the boundary values of its range. -/
theorem witness_InvalidOperandsSkip :
    24 ≤ (24#8).toNat ∧ 60 ≤ (60#8).toNat ∧ (0#8).toNat < 1 ∧ 31 < (32#8).toNat ∧ 12 < (13#8).toNat
      ∧ (1999#16).toNat < 2000 ∧ 3000 ≤ (3000#16).toNat ∧ 7 < (8#8).toNat ∧ 55 < (56#8).toNat ∧ 55 < (255#8).toNat := by
  decide

theorem witness_StartOpensATransfer : State.reset.phase = .idle ∧ (bench []).phase = .idle := by decide
theorem witness_StopClosesATransfer : (opened (pin 0 true 0) []).phase = .active := by decide
theorem witness_PinCommandsInATransfer : (opened (pin 0 true 0) []).phase = .active := by decide
theorem witness_RbitReadsOneSample :
    (opened (pin 0 true 0) [true]).phase = .active ∧ (opened (pin 0 true 0) [true]).answers = true :: [] := by decide

/-- An oracle with eight answers, under it and under the reference device `D_READ` before and after its first byte, and no
`D_READ`. -/
theorem witness_RbyteReadsEightSamples :
    let o := opened (pin 0 false 1) [true, false, true, false, false, true, false, true]
    let d (a : Bool) (m : DevMode) : State :=
      { bench [(63, 7#8)] with phase := .active, attached := a, device := ⟨[(63, 7#8)], 63#6, m, true⟩ }
    (o.phase = .active ∧ o.attached = false ∧ o.answers = [(0xA5#8).getLsbD 7, (0xA5#8).getLsbD 6, (0xA5#8).getLsbD 5,
        (0xA5#8).getLsbD 4, (0xA5#8).getLsbD 3, (0xA5#8).getLsbD 2, (0xA5#8).getLsbD 1, (0xA5#8).getLsbD 0] ++ []
        ∧ o.device.mode ≠ .read ∧ o.device.mode ≠ .readOn)
      ∧ (∀ a, (d a .read).phase = .active ∧ (d a .read).attached = a ∧ (d a .read).device.mode = .read)
      ∧ (∀ a, (d a .readOn).phase = .active ∧ (d a .readOn).attached = a ∧ (d a .readOn).device.mode = .readOn) := by decide

/-- An oracle, with the device in order and lost; the reference device in `D_OFFSET`; a byte read, with either answer of either
environment. -/
theorem witness_WackEndsOnAZero :
    let d : State := { bench [] with phase := .active, device := ⟨[], 0#6, .offset, true⟩ }
    let o (m : DevMode) : State := { opened (pin 0 true 0) [false] with device := ⟨[], 0#6, m, true⟩ }
    let e (a : Bool) (b : Bit) : State := { d with attached := a, device := ⟨[], 0#6, .readOn, true⟩, answers := [b] }
    (∀ m ∈ [DevMode.wdata, .free, .readOn], (o m).phase = .active ∧ (o m).attached = false
        ∧ (o m).answers.head? = some false ∧ (o m).device.mode = m)
      ∧ (d.phase = .active ∧ d.attached = true ∧ d.device.mode ≠ .free ∧ d.device.mode ≠ .readOn ∧ d.device.dack = true)
      ∧ (∀ a b, (e a b).phase = .active ∧ (e a b).attached = a ∧ (e a b).device.mode = .readOn ∧ (e a b).answers = [b]) := by
  decide

theorem witness_WackHoldsOnAOne :
    let d : State := { bench [] with phase := .active, device := ⟨[], 0#6, .deaf, false⟩ }
    let o (m : DevMode) : State := { opened (pin 0 true 0) [true] with device := ⟨[], 0#6, m, true⟩ }
    (∀ m ∈ [DevMode.wdata, .free, .readOn], (o m).phase = .active ∧ (o m).attached = false
        ∧ (o m).answers.head? = some true ∧ (o m).device.mode = m)
      ∧ (d.phase = .active ∧ d.attached = true ∧ d.device.mode ≠ .free ∧ d.device.mode ≠ .readOn
        ∧ d.device.dack = false) := by decide

/-- No sample of 1, and V2's three. -/
theorem witness_WaitTakesEverySample :
    let s (k : Nat) : State := { opened (pin 0 true 0) (List.replicate k true ++ [false]) with stream := [0x09#8] }
    ((s 0).AtBoundary ∧ (s 0).phase = .active ∧ (s 0).attached = false
        ∧ decode ((s 0).stream.drop (s 0).pc.toNat) = .ok (.wack, []) ∧ (s 0).answers = List.replicate 0 true ++ false :: [])
      ∧ ((s 3).AtBoundary ∧ (s 3).phase = .active ∧ (s 3).attached = false
        ∧ decode ((s 3).stream.drop (s 3).pc.toNat) = .ok (.wack, []) ∧ (s 3).answers = List.replicate 3 true ++ false :: []) := by
  decide +kernel

/-- An address no device answers (P7), and an oracle that answers ones. -/
theorem witness_HangIsForever :
    let j : Job := ⟨[], [], .nothing, 1⟩
    let d : State := { held [] with attached := true, device := ⟨[], 0#6, .deaf, false⟩ }
    let o := held [true, true]
    (d.Ready ∧ d.err = false ∧ d.busy = some j ∧ d.pins.dir = .input ∧ d.attached = true ∧ d.device.mode ≠ .free
        ∧ d.device.mode ≠ .readOn ∧ d.device.dack = false)
      ∧ (o.Ready ∧ o.err = false ∧ o.busy = some j ∧ o.pins.dir = .input ∧ o.attached = false
        ∧ o.answers = List.replicate 2 true ++ []) := by decide

theorem witness_AbsentDeviceHangsInTheFirstWait :
    (Instr.brd 63#6 56).WellFormed ∧ phaseNeeded (.brd 63#6 56) = some .idle ∧ (∀ a, Instr.brd 63#6 56 ≠ .start a)
      ∧ (oracle [true]).phase = .idle ∧ (oracle [true]).attached = false ∧ (oracle [true]).answers = true :: [] :=
  ⟨by decide, rfl, fun _ h => (by cases h), rfl, rfl, rfl⟩

theorem witness_MostSignificantBitFirst :
    let w := opened (pin 0 true 0) []
    let r := opened (pin 0 true 0) [true, true, false, true, false, false, false, false]
    (w.phase = .active ∧ w.pins.scl = false ∧ w.trace.pins.head? = some w.pins ∧ ∃ t, exec (.wbyte 0xD0#8) w = .next t)
      ∧ (State.reset.phase = .idle ∧ State.reset.pins = ⟨true, .input, true⟩
        ∧ State.reset.trace.pins.head? = some State.reset.pins ∧ ∃ t, exec (.start 0xD1#8) State.reset = .next t)
      ∧ (r.phase = .active ∧ r.attached = false ∧ r.answers = [(0xD0#8).getLsbD 7, (0xD0#8).getLsbD 6, (0xD0#8).getLsbD 5,
          (0xD0#8).getLsbD 4, (0xD0#8).getLsbD 3, (0xD0#8).getLsbD 2, (0xD0#8).getLsbD 1, (0xD0#8).getLsbD 0] ++ []
        ∧ ∃ t, exec .rbyte r = .next t) :=
  ⟨⟨rfl, rfl, rfl, _, rfl⟩, ⟨rfl, rfl, rfl, _, rfl⟩, ⟨rfl, rfl, by decide, _, rfl⟩⟩

/-- On the bench, and against an oracle that acknowledges late in every wait. -/
theorem witness_SingleRegisterCallSequences :
    (bench []).phase = .idle ∧ (oracle []).phase = .idle ∧ (∃ t, Completes (.rdreg 63#6) (bench []) t)
      ∧ (∃ t, Completes (.wrreg 0#6 0xFF#8) (bench []) t)
      ∧ (∃ t, Completes (.rdreg 63#6) (oracle (late 1 ++ late 2 ++ late 1 ++ msbBits 0xA5#8)) t)
      ∧ (∃ t, Completes (.wrreg 0#6 0xFF#8) (oracle (late 1 ++ late 2 ++ late 1)) t) :=
  ⟨rfl, rfl, ⟨_, _, 0, rfl, rfl, by decide +kernel⟩, ⟨_, _, 0, rfl, rfl, by decide +kernel⟩,
    ⟨_, _, 4, rfl, rfl, by decide +kernel⟩, ⟨_, _, 4, rfl, rfl, by decide +kernel⟩⟩

theorem witness_BurstCallSequences :
    (∃ t, Completes (.brd 0#6 1) (bench []) t) ∧ (∃ t, Completes (.brd 8#6 56) (bench []) t)
      ∧ (∃ t, Completes (.bwr 63#6 [1#8, 2#8]) (bench []) t)
      ∧ (∃ t, Completes (.brd 0#6 1) (oracle (late 0 ++ late 1 ++ late 2 ++ msbBits 0xA5#8)) t)
      ∧ (∃ t, Completes (.bwr 63#6 [1#8, 2#8]) (oracle (late 0 ++ late 1 ++ late 0 ++ late 2)) t) :=
  ⟨⟨_, _, 0, rfl, rfl, by decide +kernel⟩, ⟨_, _, 0, rfl, rfl, by decide +kernel⟩, ⟨_, _, 0, rfl, rfl, by decide +kernel⟩,
    ⟨_, _, 3, rfl, rfl, by decide +kernel⟩, ⟨_, _, 3, rfl, rfl, by decide +kernel⟩⟩

/-- The last: a halt whose write acknowledges late, so that the byte read waits in the job. -/
theorem witness_ReadModifyWriteCallSequences :
    (bench []).phase = .idle ∧ (∃ t, Completes (.sethalt true) (bench []) t) ∧ (∃ t, Completes (.setout true) (bench []) t)
      ∧ (∃ t, Completes (.setsqwe true) (bench []) t) ∧ (∃ t, Completes (.setrate 3#2) (bench []) t)
      ∧ (∃ t, Completes (.sethalt true) (oracle (late 0 ++ late 0 ++ late 0 ++ msbBits 0x45#8 ++ late 2 ++ late 1 ++ late 0)) t) :=
  ⟨rfl, ⟨_, _, 0, rfl, rfl, by decide +kernel⟩, ⟨_, _, 0, rfl, rfl, by decide +kernel⟩,
    ⟨_, _, 0, rfl, rfl, by decide +kernel⟩, ⟨_, _, 0, rfl, rfl, by decide +kernel⟩, ⟨_, _, 3, rfl, rfl, by decide +kernel⟩⟩

theorem witness_ClockWriteCallSequences :
    (∃ t, Completes (.wrtime 23#8 59#8 59#8) (bench []) t) ∧ (∃ t, Completes (.wrdate 31#8 12#8 2099#16) (bench []) t)
      ∧ (∃ t, Completes (.wrdow 7#8) (bench []) t) ∧ (∃ t, Completes (.wrdate 31#8 12#8 2100#16) (bench []) t)
      ∧ (∃ t, Completes (.wrdow 7#8) (oracle (late 3 ++ late 0 ++ late 1)) t) :=
  ⟨⟨_, _, 0, rfl, rfl, by decide +kernel⟩, ⟨_, _, 0, rfl, rfl, by decide +kernel⟩, ⟨_, _, 0, rfl, rfl, by decide +kernel⟩,
    ⟨_, _, 0, rfl, rfl, by decide +kernel⟩, ⟨_, _, 4, rfl, rfl, by decide +kernel⟩⟩

/-- Data of one byte and of 56. -/
theorem witness_BurstReadFromTheOracle :
    let s (d : List Byte) := oracle ([false, false, false] ++ d.flatMap msbBits ++ [])
    ((s [0xA5#8]).phase = .idle ∧ (s [0xA5#8]).attached = false ∧ 1 ≤ [0xA5#8].length)
      ∧ (s (List.replicate 56 0xA5#8)).phase = .idle ∧ (List.replicate 56 0xA5#8).length ≤ 56 := by decide

/-- 56 bytes, with the device's registers in canonical form, and one byte that leaves a register alone. -/
theorem witness_BurstWriteToTheOracle :
    (oracle (List.replicate 58 false)).phase = .idle ∧ (oracle (List.replicate 58 false)).attached = false
      ∧ (oracle (List.replicate 58 false)).answers = List.replicate (2 + (List.replicate 56 0xA5#8).length) false ++ []
      ∧ Memory.wf (oracle (List.replicate 58 false)).device.regs = true
      ∧ ∀ i < [0xA5#8].length, (63#6 + BitVec.ofNat 6 i).toNat ≠ 0 := by decide

theorem witness_WrtimePartialCompletion :
    (13#8).toNat < 24 ∧ (45#8).toNat < 60 ∧ (9#8).toNat < 60 ∧ (oracle [false, false, false, true]).phase = .idle
      ∧ (oracle [false, false, false, true]).attached = false
      ∧ Memory.wf (oracle [false, false, false, true]).device.regs = true := by decide

/-- The hypothesis of every statement on the bench, with the registers blank, listed, and full. -/
theorem witness_OnBench :
    (bench []).OnBench ∧ (bench [(0, 0xC5#8), (63, 0x3C#8)]).OnBench
      ∧ (bench ((List.range 64).map fun a => (a, 0xFF#8))).OnBench := by decide +kernel

theorem witness_RdregOnTheBench : (bench [(7, 0xA5#8)]).OnBench := by decide
theorem witness_WrregOnTheBench : (bench [(7, 0xA5#8)]).OnBench := by decide
theorem witness_BrdOnTheBench :
    1 ≤ 1 ∧ 56 ≤ 56 ∧ (bench [(63, 0xA5#8)]).OnBench
      ∧ [0xA5#8] = (List.range 1).map fun i => (bench [(63, 0xA5#8)]).dev (63#6 + BitVec.ofNat 6 i).toNat := by decide
theorem witness_BwrOnTheBench :
    1 ≤ [0xAA#8].length ∧ (List.replicate 56 0xAA#8).length ≤ 56 ∧ (bench [(0, 0x11#8)]).OnBench := by decide
theorem witness_RdsnapOnTheBench : (bench [(0, 0xC5#8)]).OnBench := by decide
theorem witness_WrtimeOnTheBench :
    (23#8).toNat < 24 ∧ (59#8).toNat < 60 ∧ (bench [(0, 0xC5#8), (2, 0xA1#8)]).OnBench := by decide
/-- The bounds, and the two clauses on the year at 2099 and 2100. -/
theorem witness_WrdateOnTheBench :
    1 ≤ (1#8).toNat ∧ (31#8).toNat ≤ 31 ∧ (12#8).toNat ≤ 12 ∧ 2000 ≤ (2000#16).toNat ∧ (2999#16).toNat < 3000
      ∧ (2099#16).toNat ≤ 2099 ∧ 2100 ≤ (2100#16).toNat ∧ (bench []).OnBench := by decide
theorem witness_WrdowOnTheBench : 1 ≤ (1#8).toNat ∧ (7#8).toNat ≤ 7 ∧ (bench []).OnBench := by decide
theorem witness_ControlCommandsOnTheBench : (bench [(0, 0x45#8), (7, 0x6C#8)]).OnBench := by decide
theorem witness_RdscrOnTheBench : (0#8).toNat ≤ 55 ∧ (55#8).toNat ≤ 55 ∧ (bench [(63, 0x3C#8)]).OnBench := by decide
theorem witness_WrscrOnTheBench : (0#8).toNat ≤ 55 ∧ (55#8).toNat ≤ 55 ∧ (bench [(63, 0x3C#8)]).OnBench := by decide
theorem witness_ScratchRegionOnTheBench : (bench [(8, 1#8)]).OnBench ∧ (List.replicate 56 0#8 : List Byte).length = 56 := by decide

/-- On the bench, and acknowledged late by an oracle that then sends eight bytes. -/
theorem witness_SnapshotRanges :
    (bench []).phase = .idle ∧ (∃ t, Completes .rdsnap (bench []) t)
      ∧ (∃ t, Completes .rdsnap (oracle (late 1 ++ late 0 ++ late 2 ++ (List.replicate 8 0xFF#8).flatMap msbBits)) t) :=
  ⟨rfl, ⟨_, _, 0, rfl, rfl, by decide +kernel⟩, ⟨_, _, 3, rfl, rfl, by decide +kernel⟩⟩

theorem witness_ReadAfterWrite : (bench []).OnBench := by decide

theorem witness_PrimitivesBuildARegisterRead :
    (bench []).phase = .idle ∧ (∃ u, Completes (.rdreg 7#6) (bench [(7, 0xA5#8)]) u)
      ∧ (∃ u, Completes (.rdreg 7#6) (oracle (late 1 ++ late 2 ++ late 1 ++ msbBits 0xA5#8)) u) :=
  ⟨rfl, ⟨_, _, 0, rfl, rfl, by decide +kernel⟩, ⟨_, _, 4, rfl, rfl, by decide +kernel⟩⟩

/-- The scratch addresses 0 and 55, the whole region, and an oracle that acknowledges late. -/
theorem witness_ScratchCommandsAreBursts :
    (bench []).phase = .idle ∧ (0#8).toNat ≤ 55 ∧ (55#8).toNat ≤ 55
      ∧ (∃ t, Completes (.rdreg (BitVec.ofNat 6 (8 + (0#8).toNat))) (bench []) t)
      ∧ (∃ t, Completes (.rdreg (BitVec.ofNat 6 (8 + (55#8).toNat))) (oracle (late 1 ++ late 2 ++ late 1 ++ msbBits 0xA5#8)) t)
      ∧ (∃ t, Completes (.wrreg (BitVec.ofNat 6 (8 + (55#8).toNat)) 1#8) (bench []) t)
      ∧ (∃ t, Completes (.brd 8#6 56) (bench []) t)
      ∧ (∃ t, Completes (.bwr 8#6 (List.replicate 56 1#8)) (bench []) t) :=
  ⟨rfl, by decide, by decide, ⟨_, _, 0, rfl, rfl, by decide +kernel⟩, ⟨_, _, 4, rfl, rfl, by decide +kernel⟩,
    ⟨_, _, 0, rfl, rfl, by decide +kernel⟩, ⟨_, _, 0, rfl, rfl, by decide +kernel⟩, ⟨_, _, 0, rfl, rfl, by decide +kernel⟩⟩

/-- The source's instant: 2024-03-07 13:45:09, day-of-week 4, and the last year of the statement. -/
theorem witness_ClockRoundTrip :
    (13#8).toNat < 24 ∧ (45#8).toNat < 60 ∧ (9#8).toNat < 60 ∧ 1 ≤ (7#8).toNat ∧ (7#8).toNat ≤ 31 ∧ 1 ≤ (3#8).toNat
      ∧ (3#8).toNat ≤ 12 ∧ 2000 ≤ (2024#16).toNat ∧ (2099#16).toNat ≤ 2099 ∧ 1 ≤ (4#8).toNat ∧ (4#8).toNat ≤ 7
      ∧ (bench [(0, 0x80#8), (7, 0x03#8)]).OnBench := by decide

end Sys2Proof.Tests
end

/-! The obligations about the state: what a command that ends, faults or is held up does to `PC` and to the result registers, the
decode of a completed RDSNAP, and the reset. -/

namespace Sys2Proof.Machine

/-! ### What a command is, with its result register -/

/-- EVERYTHING a command can be, with the result register it is for: a bus command that ends in `resultOf i`; an advance, with
`RES` written at most by a command whose result is `RES`; or a fault. -/
theorem exec_resultOf (i : Instr) (s : State) :
    (∃ need ops, exec i s = busCommand need ops (resultOf i) i.byteLength s)
      ∨ (∃ r, exec i s = .next (advance i.byteLength r) ∧ (r = s ∨ (resultOf i = .toRes ∧ ∃ v, r = setRes v s)))
      ∨ (∃ c, exec i s = .next (raise c s)) := by
  cases i
  case start | stop | wbit | rbit | wbyte | rbyte | sack | snack | wack => exact .inl ⟨_, _, rfl⟩
  case rdreg | wrreg | rdsnap | rdscrall | sethalt | setout | setsqwe | setrate => exact .inl ⟨_, _, rfl⟩
  case bcddec | bcdyear | bcdhour => exact .inr (.inl ⟨_, rfl, .inr ⟨rfl, _, rfl⟩⟩)
  case bcdenc =>
    simp only [exec, execBcdenc]
    split
    · exact .inr (.inl ⟨_, rfl, .inr ⟨rfl, _, rfl⟩⟩)
    · exact .inr (.inr ⟨_, rfl⟩)
  case brd | bwr | wrscrall =>
    simp only [exec, execBrd, execBwr, execWrscrall]
    split
    · exact .inl ⟨_, _, rfl⟩
    · exact .inr (.inr ⟨_, rfl⟩)
  case wrtime | wrdate | wrdow | wrscr =>
    simp only [exec, execWrtime, execWrdate, execWrdow, execWrscr]
    split
    · exact .inl ⟨_, _, rfl⟩
    · exact .inr (.inl ⟨_, rfl, .inl rfl⟩)
  case rdscr =>
    simp only [exec, execRdscr]
    split
    · exact .inl ⟨_, _, rfl⟩
    · exact .inr (.inl ⟨_, rfl, .inr ⟨rfl, _, rfl⟩⟩)

/-- EVERYTHING a command that answers a next state can have done: the run of a sequence that ends in `resultOf i`, an advance, or
a fault. -/
theorem exec_next {i : Instr} {s t : State} (h : exec i s = .next t) :
    (∃ ops, t = runOps ops [] (resultOf i) i.byteLength s)
      ∨ (∃ r, t = advance i.byteLength r ∧ (r = s ∨ (resultOf i = .toRes ∧ ∃ v, r = setRes v s)))
      ∨ (∃ c, t = raise c s) := by
  obtain ⟨need, ops, e⟩ | ⟨r, e, hr⟩ | ⟨c, e⟩ := exec_resultOf i s <;> rw [e] at h
  · by_cases hp : s.phase = need
    · rw [busCommand_run hp] at h
      cases h
      exact .inl ⟨ops, rfl⟩
    · rw [busCommand_protocol hp] at h
      cases h
      exact .inr (.inr ⟨_, rfl⟩)
  · cases h
    exact .inr (.inl ⟨r, rfl, hr⟩)
  · cases h
    exact .inr (.inr ⟨c, rfl⟩)

theorem resultOf_eq_toRes {i : Instr} (h : resultOf i = .toRes) :
    i = .rbit ∨ i = .rbyte ∨ (∃ off, i = .rdreg off) ∨ (∃ a, i = .rdscr a) ∨ (∃ a, i = .bcdenc a)
      ∨ (∃ a, i = .bcddec a) ∨ (∃ a, i = .bcdyear a) ∨ (∃ a, i = .bcdhour a) := by
  cases i <;> simp [resultOf] at h ⊢

theorem resultOf_eq_toBuf {i : Instr} (h : resultOf i = .toBuf) : (∃ off n, i = .brd off n) ∨ i = .rdscrall := by
  cases i <;> simp [resultOf] at h ⊢

theorem resultOf_eq_toSnap {i : Instr} (h : resultOf i = .toSnap) : i = .rdsnap := by
  cases i <;> simp [resultOf] at h ⊢

/-! ### `PC` at the end of a run -/

/-- A run of a sequence ends with `PC` advanced, or a wait holds it up with `PC` kept; it faults in neither case. -/
theorem runOps_pc (ops : List BusOp) (rx : List Byte) (fin : Finish) (len : Nat) (s : State) :
    (runOps ops rx fin len s).err = s.err
      ∧ (((runOps ops rx fin len s).busy = none ∧ (runOps ops rx fin len s).pc = s.pc + BitVec.ofNat 16 len)
        ∨ ((runOps ops rx fin len s).busy ≠ none ∧ (runOps ops rx fin len s).pc = s.pc)) := by
  rcases runOps_cases ops rx fin len s with ⟨u, rx', f, _, e⟩ | ⟨u, j, f, _, _, _, e⟩ <;> rw [e]
  · obtain ⟨_, _, hbusy, hpc, ⟨herr, _, _⟩, _⟩ := finish_rest fin rx' len u
    exact ⟨herr.trans f.err, .inl ⟨hbusy, by rw [hpc, f.pc]⟩⟩
  · exact ⟨f.err, .inr ⟨by simp, f.pc⟩⟩

/-- Settles O6: a bus command by `runOps_pc`, every other command by its one update. -/
theorem pcAdvancesByLength : Obligations.PcAdvancesByLength := by
  unfold Obligations.PcAdvancesByLength
  intro i s t _ he hb h
  obtain ⟨ops, rfl⟩ | ⟨r, rfl, rfl | ⟨_, v, rfl⟩⟩ | ⟨c, rfl⟩ := exec_next h
  · obtain ⟨herr, ⟨hbusy, hpc⟩ | ⟨hbusy, hpc⟩⟩ := runOps_pc ops [] (resultOf i) i.byteLength s
    · exact .inl ⟨herr.trans he, hbusy, hpc⟩
    · exact .inr (.inr ⟨herr.trans he, hbusy, hpc⟩)
  · exact .inl ⟨he, hb, rfl⟩
  · exact .inl ⟨he, hb, rfl⟩
  · exact .inr (.inl ⟨rfl, hb, rfl⟩)

/-! ### Which results are written -/

/-- Between `s` and `t` no result register was written but the one `fin` names (R201). -/
def WritesOnly (fin : Finish) (s t : State) : Prop :=
  (t.res ≠ s.res → fin = .toRes) ∧ (t.buf ≠ s.buf ∨ t.bufn ≠ s.bufn → fin = .toBuf) ∧ (t.snap ≠ s.snap → fin = .toSnap)

theorem SameResults.writesOnly {s t : State} (h : SameResults s t) (fin : Finish) : WritesOnly fin s t := by
  obtain ⟨hres, hbuf, hbufn, hsnap⟩ := h
  exact ⟨fun k => absurd hres k, fun k => absurd k (by simp [hbuf, hbufn]), fun k => absurd hsnap k⟩

theorem runOps_writesOnly (ops : List BusOp) (rx : List Byte) (fin : Finish) (len : Nat) (s : State) :
    WritesOnly fin s (runOps ops rx fin len s) := runOps_results ops rx fin len s

/-- A run that a wait holds up is held up with its own result register and length. -/
theorem runOps_job {ops : List BusOp} {rx : List Byte} {fin : Finish} {len : Nat} {s : State} {j : Job}
    (h : (runOps ops rx fin len s).busy = some j) : j.fin = fin ∧ j.len = len := by
  rcases runOps_cases ops rx fin len s with ⟨u, rx', _, _, e⟩ | ⟨u, k, _, hfin, hlen, _, e⟩ <;> rw [e] at h
  · obtain ⟨_, _, hbusy, _⟩ := finish_rest fin rx' len u
    rw [hbusy] at h
    cases h
  · cases h
    exact ⟨hfin, hlen⟩

theorem exec_writesOnly {i : Instr} {s t : State} (h : exec i s = .next t) : WritesOnly (resultOf i) s t := by
  obtain ⟨ops, rfl⟩ | ⟨r, rfl, rfl | ⟨hi, v, rfl⟩⟩ | ⟨c, rfl⟩ := exec_next h
  · exact runOps_writesOnly ops [] (resultOf i) i.byteLength s
  · exact SameResults.writesOnly ⟨rfl, rfl, rfl, rfl⟩ _
  · simp [WritesOnly, hi]
  · exact SameResults.writesOnly ⟨rfl, rfl, rfl, rfl⟩ _

/-- A command that a wait holds up is held up with its own result register and length. -/
theorem exec_job {i : Instr} {s t : State} {j : Job} (hb : s.busy = none) (h : exec i s = .next t) (hj : t.busy = some j) :
    j.fin = resultOf i ∧ j.len = i.byteLength := by
  obtain ⟨ops, rfl⟩ | ⟨r, rfl, rfl | ⟨_, v, rfl⟩⟩ | ⟨c, rfl⟩ := exec_next h
  · exact runOps_job hj
  all_goals
    simp only [advance_busy, setRes_busy, raise_busy, hb] at hj
    cases hj

/-- One more sample of a wait writes no result register but the one of the command it holds up. -/
theorem resume_writesOnly (j : Job) (s : State) : WritesOnly j.fin s (resume j s) := by
  have f := sampleAck_frame s
  cases hs : (sampleAck s).1 with
  | true =>
    rw [resume_held hs]
    exact SameResults.writesOnly ⟨f.res, f.buf, f.bufn, f.snap⟩ _
  | false =>
    rw [resume_go hs]
    have w := runOps_writesOnly j.todo j.rx j.fin j.len (setSCL false { (sampleAck s).2 with busy := none })
    simpa [WritesOnly, f.res, f.buf, f.bufn, f.snap] using w

/-- A command still held up after one more sample has the result register and the length it had. -/
theorem resume_job {j k : Job} {s : State} (hb : s.busy = some j) (h : (resume j s).busy = some k) :
    k.fin = j.fin ∧ k.len = j.len := by
  cases hs : (sampleAck s).1 with
  | true =>
    rw [resume_held hs, (sampleAck_frame s).busy, hb] at h
    cases h
    exact ⟨rfl, rfl⟩
  | false =>
    rw [resume_go hs] at h
    exact runOps_job h

/-- Settles O18: a command and a later sample of its wait write only the register of the command's `Finish`, and keep it. -/
theorem onlyTheirCommandsWriteResults : Obligations.OnlyTheirCommandsWriteResults := by
  unfold Obligations.OnlyTheirCommandsWriteResults
  constructor
  · intro i s t h
    obtain ⟨hres, hbuf, hsnap⟩ := exec_writesOnly h
    exact ⟨resultOf_eq_toRes ∘ hres, resultOf_eq_toBuf ∘ hbuf, resultOf_eq_toSnap ∘ hsnap, fun hb _ => exec_job hb h⟩
  · intro s t j hr he hb h
    rw [step_held hr he hb] at h
    cases h
    obtain ⟨hres, hbuf, hsnap⟩ := resume_writesOnly j s
    exact ⟨hres, hbuf, hsnap, fun _ => resume_job hb⟩

/-! ### The snapshot of a completed RDSNAP -/

theorem toNat_ofNat_decodeGeneric (b : Byte) :
    (BitVec.ofNat 8 (decodeGeneric b)).toNat = b.toNat % 16 + 10 * (b.toNat / 16 % 8) := by
  rw [decodeGeneric_eq, BitVec.toNat_ofNat]
  omega

theorem toNat_ofNat_decodeHour (b : Byte) :
    (BitVec.ofNat 8 (decodeHour b)).toNat =
      if 128 ≤ b.toNat then b.toNat % 16 + 12 * (b.toNat / 32 % 2) else b.toNat % 16 + 10 * (b.toNat / 16 % 4) := by
  rw [decodeHour_eq, BitVec.toNat_ofNat]
  split <;> omega

theorem toNat_ofNat_yearAbs (b : Byte) :
    (BitVec.ofNat 16 (yearAbs b)).toNat = 2000 + (b.toNat % 16 + 10 * (b.toNat / 16)) := by
  rw [yearAbs_eq, BitVec.toNat_ofNat]
  omega

/-- The seven fields of a snapshot as the bytes of registers 0 to 6 give them (R191). -/
def Snapshot.DecodeOf (v : Snapshot) (second minute hour dow date month year : Byte) : Prop :=
  v.second.toNat = second.toNat % 16 + 10 * (second.toNat / 16 % 8)
    ∧ v.minute.toNat = minute.toNat % 16 + 10 * (minute.toNat / 16 % 8)
    ∧ v.hour.toNat = (if 128 ≤ hour.toNat then hour.toNat % 16 + 12 * (hour.toNat / 32 % 2)
        else hour.toNat % 16 + 10 * (hour.toNat / 16 % 4))
    ∧ v.dow = dow ∧ v.date.toNat = date.toNat % 16 + 10 * (date.toNat / 16 % 8)
    ∧ v.month.toNat = month.toNat % 16 + 10 * (month.toNat / 16 % 8)
    ∧ v.year.toNat = 2000 + (year.toNat % 16 + 10 * (year.toNat / 16))

theorem snapshotOf_decodeOf (second minute hour dow date month year : Byte) (more : List Byte) :
    (snapshotOf (second :: minute :: hour :: dow :: date :: month :: year :: more)).DecodeOf
      second minute hour dow date month year :=
  ⟨toNat_ofNat_decodeGeneric _, toNat_ofNat_decodeGeneric _, toNat_ofNat_decodeHour _, rfl, toNat_ofNat_decodeGeneric _,
    toNat_ofNat_decodeGeneric _, toNat_ofNat_yearAbs _⟩

/-- What the decode rules can produce (R31), whatever the bytes. -/
theorem Snapshot.DecodeOf.ranges {v : Snapshot} {second minute hour dow date month year : Byte}
    (h : v.DecodeOf second minute hour dow date month year) :
    v.hour.toNat ≤ 45 ∧ v.minute.toNat ≤ 85 ∧ v.second.toNat ≤ 85 ∧ v.date.toNat ≤ 85 ∧ v.month.toNat ≤ 85
      ∧ 2000 ≤ v.year.toNat ∧ v.year.toNat ≤ 2165 := by
  obtain ⟨hsec, hmin, hhour, _, hdate, hmonth, hyear⟩ := h
  have hour_le : v.hour.toNat ≤ 45 := by
    rw [hhour]
    split <;> omega
  have year_lt := year.isLt
  exact ⟨hour_le, by omega, by omega, by omega, by omega, by omega, by omega⟩

/-- A completed RDSNAP has read eight bytes, in the calls of its burst, and ended with their snapshot. -/
theorem completes_rdsnap {s t : State} (hp : s.phase = .idle) (h : Completes .rdsnap s t) :
    ∃ u d, d.length = 8 ∧ BusFrame s u ∧ t = finish .toSnap d 1 u
      ∧ t.trace.calls = (burstReadCalls 0#8 d).reverse ++ s.trace.calls := by
  obtain ⟨u, rx, cs, tr, f, e, hc⟩ := h.transcript (need := .idle) (fin := .toSnap) (len := 1) hp rfl
  obtain ⟨d, cs', hd, rfl, tr'⟩ := Transcript.burstRead_inv (n := Config.snapBurstLen) (rest := []) (by simpa using tr)
  obtain ⟨hrx, rfl⟩ := tr'.nil_inv
  exact ⟨u, d, hd, f, by rw [e, hrx, List.nil_append], by simpa using hc⟩

/-- Settles O56: the eight bytes of `completes_rdsnap`, decoded field by field, and the ranges of their decode. -/
theorem snapshotRanges : Obligations.SnapshotRanges := by
  unfold Obligations.SnapshotRanges
  intro s t hp h
  have hidle : CompletedIdle 1 s t := h.idle rfl rfl (fun _ => Instr.noConfusion) hp
  obtain ⟨u, d, hd, f, e, hc⟩ := completes_rdsnap hp h
  match d, hd, e, hc with
  | [second, minute, hour, dow, date, month, year, control], _, e, hc =>
    subst e
    have hdec := snapshotOf_decodeOf second minute hour dow date month year [control]
    have hresults := congrArg (ResultEvent.snap (snapshotOf [second, minute, hour, dow, date, month, year, control]) :: ·)
      f.results
    exact ⟨⟨hidle, f.res, f.buf, f.bufn, hresults⟩,
      ⟨second, minute, hour, dow, date, month, year, control, hc, hdec⟩, hdec.ranges⟩

/-! ### The reset -/

/-- The pin trace through a reset: it goes on, merged where it stands on the idle pins already. -/
theorem hostReset_tracePins (s : State) :
    (hostReset s).trace.pins =
      if s.trace.pins.head? = some Pins.idle then s.trace.pins else Pins.idle :: s.trace.pins :=
  recordPins_pins _ _

/-- Settles O11: what the reset interrupts touches only the bus, and the reset writes every register. -/
theorem resetEvent : Obligations.ResetEvent := by
  unfold Obligations.ResetEvent
  intro s hlines hstream hreq
  have f := beforeReset_frame s
  obtain ⟨hpins, hpc, hres, hbuf, hbufn, hsnap, hphase, herr, hbusy, hclear, hafter, hhandle, hstr, _⟩ :=
    hostReset_block (beforeReset s)
  refine ⟨_, step_reset hlines hstream hreq, hpins, hpc, hres, hbuf, hbufn, hsnap, hphase, herr, hbusy, hclear, hafter,
    hhandle.trans f.handle, hstr.trans f.stream, fun hz => ?_⟩
  rw [beforeReset_zero hz]
  exact hostReset_tracePins s

/-- Settles O14: the reset state computes to the invariants, and stands at the end of the empty stream. -/
theorem resetMeetsTheInvariants : Obligations.ResetMeetsTheInvariants := by
  unfold Obligations.ResetMeetsTheInvariants
  have hboundary : State.reset.AtBoundary := by decide
  exact ⟨by decide, by decide, hboundary, step_done hboundary rfl⟩

end Sys2Proof.Machine

/-! The obligations about the environment (spec/20_memory.md): what no step writes, a device that never acknowledges, the order of
the bits, and what the bench reads back after it has been written. -/

namespace Sys2Proof.Machine

/-! ### The run's parameters -/

/-- No command writes the run's parameters. -/
theorem exec_sameRun {i : Instr} {s t : State} (h : exec i s = .next t) : SameRun s t := by
  obtain ⟨ops, rfl⟩ | ⟨r, rfl, rfl | ⟨_, v, rfl⟩⟩ | ⟨c, rfl⟩ := exec_next h
  · exact runOps_sameRun ops [] (resultOf i) i.byteLength s
  all_goals exact ⟨rfl, rfl, rfl, rfl, rfl⟩

/-- Settles O17: every case of `step_next` leaves the run's parameters, the reset too. -/
theorem runParametersAreFixed : Obligations.RunParametersAreFixed := by
  unfold Obligations.RunParametersAreFixed
  intro s t h
  have fixed : ∀ {u : State}, SameRun s u → u.stream = s.stream ∧ u.handle = s.handle ∧ u.attached = s.attached :=
    fun ⟨hhandle, hstream, _, _, hattached⟩ => ⟨hstream, hhandle, hattached⟩
  obtain ⟨_, ⟨_, rfl⟩ | ⟨_, _, rfl⟩ | ⟨_, _, j, _, rfl⟩ | ⟨_, _, rfl⟩ | ⟨_, _, rfl | ⟨i, _, _, hi⟩⟩⟩ := step_next h
  · have f := beforeReset_frame s
    exact ⟨f.stream, f.handle, f.attached⟩
  · exact ⟨rfl, rfl, rfl⟩
  · exact fixed (resume_sameRun j s)
  · exact ⟨rfl, rfl, rfl⟩
  · exact ⟨rfl, rfl, rfl⟩
  · exact fixed (exec_sameRun hi)

/-! ### A device that never acknowledges -/

/-- The reference device with `DACK = 0` answers 1 to a wait, and the sample changes nothing (R78). -/
theorem sampleAck_deaf {s : State} (hin : s.pins.dir = .input) (ha : s.attached = true) (hf : s.device.mode ≠ .free)
    (hr : s.device.mode ≠ .readOn) (hd : s.device.dack = false) : sampleAck s = (true, s) := by
  have hack : ackAnswer s = some true := by
    simp only [ackAnswer, ha, if_true, Device.ackAnswer, hd]
    cases hm : s.device.mode <;> simp_all
  rw [sampleAck, hack, sampleSDA_fixed true hin]

/-- A wait takes the next answer of an oracle, and nothing else changes (R73). -/
theorem sampleAck_oracle {s : State} {b : Bit} {rest : List Bit} (hin : s.pins.dir = .input) (ha : s.attached = false)
    (h : s.answers = b :: rest) : sampleAck s = (b, { s with answers := rest }) := by
  have hack : ackAnswer s = none := by simp [ackAnswer, ha]
  rw [sampleAck, hack, sampleSDA_free hin, freeSample_cons h]

/-- While a wait samples 1, a step is that sample. -/
theorem step_sample {s t : State} {j : Job} (hr : s.Ready) (he : s.err = false) (hb : s.busy = some j)
    (h : sampleAck s = (true, t)) : step s = .next t := by
  rw [step_held hr he hb, resume_held (by rw [h]), h]

/-- A state that steps to itself is run to itself. -/
theorem run_fixed {s : State} (h : step s = .next s) (n : Nat) : Host.Core.run core n s = .next s := by
  induction n with
  | zero => rfl
  | succ n ih => rw [run_succ h, ih]

/-- A wait against an oracle takes the ones it answers, one a step. -/
theorem run_ones {j : Job} {rest : List Bit} (n : Nat) {s : State} (hr : s.Ready) (he : s.err = false)
    (hb : s.busy = some j) (hin : s.pins.dir = .input) (ha : s.attached = false)
    (h : s.answers = List.replicate n true ++ rest) : Host.Core.run core n s = .next { s with answers := rest } := by
  induction n generalizing s with
  | zero =>
    have hs : s.answers = rest := h
    rw [← hs]
    rfl
  | succ n ih =>
    rw [run_succ (step_sample hr he hb (sampleAck_oracle hin ha h))]
    exact ih hr he hb hin ha rfl

/-- Settles O34: a deaf reference device by `run_fixed`, an oracle by the induction of `run_ones`. -/
theorem hangIsForever : Obligations.HangIsForever := by
  unfold Obligations.HangIsForever
  intro s j hr he hb hin
  exact ⟨fun ha hf hro hd n => run_fixed (step_sample hr he hb (sampleAck_deaf hin ha hf hro hd)) n,
    fun ha n _ h => run_ones n hr he hb hin ha h⟩

/-! ### The bits on the wire -/

/-- What a change of the pins puts on the wire: the data line's level where the clock rises. -/
def risenBit (old new : Pins) : List Bit := if old.scl = false ∧ new.scl = true then [new.sda] else []

/-- From `s`, whose pin trace ends in its pins, to `t`, whose does too, the bits `bs` have gone over the wire. -/
def Sends (s : State) (bs : List Bit) (t : State) : Prop :=
  s.trace.pins.head? = some s.pins →
    t.trace.pins.head? = some t.pins ∧ bitsOnWire t.trace.pins = bitsOnWire s.trace.pins ++ bs

theorem Sends.trans {s t u : State} {as bs : List Bit} (h : Sends s as t) (k : Sends t bs u) : Sends s (as ++ bs) u := by
  intro hs
  obtain ⟨ht, hbits⟩ := h hs
  obtain ⟨hu, hbits'⟩ := k ht
  exact ⟨hu, by rw [hbits', hbits, List.append_assoc]⟩

/-- A pin state that is merged into the one before it raises no clock. -/
theorem bitsOnWire_recordPins {old new : Pins} {t : Trace} (h : t.pins.head? = some old) :
    bitsOnWire (t.recordPins new).pins = bitsOnWire t.pins ++ risenBit old new := by
  obtain ⟨rest, hp⟩ := List.head?_eq_some_iff.mp h
  rw [recordPins_pins, h]
  split
  · next e =>
    cases e
    have hrisen : risenBit old old = [] := by cases hs : old.scl <;> simp [risenBit, hs]
    rw [hrisen, List.append_nil]
  · rw [hp]
    rfl

theorem setPins_sends (p : Pins) (s : State) : Sends s (risenBit s.pins p) (setPins p s) :=
  fun hs => ⟨recordPins_pins_head p s.trace, bitsOnWire_recordPins hs⟩

/-- Driving the data line raises no clock. -/
theorem driveSDA_sends (b : Bit) (s : State) : Sends s [] (driveSDA b s) := by
  have h := setPins_sends { s.pins with dir := .output, sda := b } s
  have hnone : risenBit s.pins { s.pins with dir := .output, sda := b } = [] := by
    cases hs : s.pins.scl <;> simp [risenBit, hs]
  rwa [hnone] at h

/-- A clock that rises puts the data line on the wire. -/
theorem setSCL_sends (b : Bit) (s : State) :
    Sends s (if s.pins.scl = false ∧ b = true then [s.pins.sda] else []) (setSCL b s) :=
  setPins_sends { s.pins with scl := b } s

/-- `WriteBit(b)` with the clock low sends `b` (R126). -/
theorem lineWriteBit_sends {s : State} (b : Bit) (h : s.pins.scl = false) : Sends s [b] (lineWriteBit b s) := by
  have hrise := setSCL_sends true (driveSDA b s)
  have hfall := setSCL_sends false (setSCL true (driveSDA b s))
  simp only [driveSDA_pins, h, setSCL_pins, and_self, if_true] at hrise hfall
  exact (driveSDA_sends b s).trans (hrise.trans hfall)

theorem lineWriteBits_sends (v : Byte) (is : List Nat) {s : State} (h : s.pins.scl = false) :
    Sends s (is.map fun i => v.getLsbD i) (lineWriteBits v is s) := by
  induction is generalizing s with
  | nil => exact fun hs => ⟨hs, (List.append_nil _).symm⟩
  | cons i is ih => exact (lineWriteBit_sends _ h).trans (ih rfl)

/-- `WriteByte(v)` sends the bits of `v`, the most significant first (R62, R128). -/
theorem lineWriteByte_sends (v : Byte) {s : State} (h : s.pins.scl = false) : Sends s (msbBits v) (lineWriteByte v s) :=
  lineWriteBits_sends v msbFirst h

/-- `Start(a)` on an idle bus sends the address byte alone: the start condition raises no clock (R124). -/
theorem lineStart_sends (a : Byte) {s : State} (h : s.pins.scl = true) : Sends s (msbBits a) (lineStart a s) := by
  have hhigh := setSCL_sends true (driveSDA true s)
  have hfall := setSCL_sends false (driveSDA false (setSCL true (driveSDA true s)))
  simp only [driveSDA_pins, h, setSCL_pins, Bool.true_eq_false, false_and, if_false] at hhigh hfall
  exact (driveSDA_sends true s).trans (hhigh.trans ((driveSDA_sends false _).trans (hfall.trans (lineWriteByte_sends a rfl))))

/-- A command of one primitive that is no wait ends with it. -/
theorem busCommand_prim {need : Phase} {p : Prim} {s : State} (hp : s.phase = need) (hw : p ≠ .waitForAck) (fin : Finish)
    (len : Nat) :
    busCommand need [.prim p] fin len s = .next (finish fin (runPrim p s).1.toList len (runPrim p s).2) := by
  rw [busCommand_run hp, runOps_prim (op := .prim p) hw]
  rfl

/-- A command of one primitive without result sends what the primitive sends. -/
theorem bitsOnWire_finish {s u : State} {bs : List Bit} {p : Prim} (fin : Finish) (rx : List Byte) (len : Nat)
    (h : Sends (deviceEvent p s) bs u) (hs : s.trace.pins.head? = some s.pins) :
    bitsOnWire (finish fin rx len (logCall p none u)).trace.pins = bitsOnWire s.trace.pins ++ bs := by
  obtain ⟨_, hbits⟩ := h (by simpa using hs)
  obtain ⟨_, _, _, _, _, _, _, _, _, htrace, _⟩ := finish_rest fin rx len (logCall p none u)
  rw [htrace, ← deviceEvent_tracePins p s]
  exact hbits

/-- Settles O36: what WBYTE and START send by `lineWriteByte_sends` and `lineStart_sends`, what RBYTE makes of its samples by
`lineReadByte_answers`. -/
theorem mostSignificantBitFirst : Obligations.MostSignificantBitFirst := by
  unfold Obligations.MostSignificantBitFirst
  refine ⟨?_, ?_, ?_⟩
  · intro v s t hp hscl hs h
    have hrun : exec (.wbyte v) s = _ := busCommand_prim (p := .writeByte v) hp (by simp) .nothing 2
    rw [hrun] at h
    cases h
    exact bitsOnWire_finish _ _ _ (lineWriteByte_sends v (by simpa using hscl)) hs
  · intro a s t hp hidle hs h
    have hrun : exec (.start a) s = _ := busCommand_prim (p := .start a) hp (by simp) .nothing 2
    rw [hrun] at h
    cases h
    exact bitsOnWire_finish _ _ _ (lineStart_sends a (by simp [hidle])) hs
  · intro v s t rest hp ha hans h
    have hrun : exec .rbyte s = _ := busCommand_prim (p := .readByte) hp (by simp) .toRes 1
    rw [hrun] at h
    cases h
    have hfree : byteAnswer s = none := by simp [byteAnswer, ha]
    obtain ⟨hv, _⟩ := lineReadByte_answers v (deviceEvent .readByte s) rest ((deviceEvent_answers _ s).trans hans)
    simp [finish_toRes, runPrim, hfree, hv]

/-! ### Commands on the bench -/

/-- On the bench the command `i` runs from `s` to its end in `t`, on the bench again, with no fault. -/
structure BenchRun (i : Instr) (s t : State) : Prop where
  exec : exec i s = .next t
  bench : t.OnBench
  pc : t.pc = s.pc + BitVec.ofNat 16 i.byteLength
  err : t.err = s.err

theorem execAll_cons {i : Instr} {s t : State} (h : exec i s = .next t) (is : List Instr) :
    execAll (i :: is) s = execAll is t := by
  simp [execAll, h]

/-- A bus command whose sequence runs through on the bench and leaves the device idle. -/
theorem benchRun_of_chain {i : Instr} {ops : List BusOp} {fin : Finish} {rx : List Byte} {d : Device} {es : List RegEvent}
    {answers : List Bit} {s u : State} (hs : s.OnBench) (he : exec i s = busCommand .idle ops fin i.byteLength s)
    (c : Chain ops [] s rx u) (r : Ran s .idle d es answers u) (hm : d.mode = .idle) (hw : Memory.wf d.regs = true) :
    BenchRun i s (finish fin rx i.byteLength u) := by
  obtain ⟨hattached, _, hphase, _⟩ := hs
  obtain ⟨_, hph, _, hpc, ⟨herr, _, _⟩, ⟨_, _, _, _, hat⟩, _, _, hdev, _⟩ := finish_rest fin rx i.byteLength u
  have hd := hdev.trans r.device
  refine ⟨?_, ⟨?_, ?_, hph.trans r.phase, ?_⟩, by rw [hpc, r.frame.pc], herr.trans r.frame.err⟩
  · rw [he, busCommand_run hphase, c.finish]
  · exact hat.trans (r.frame.attached.trans hattached)
  · rw [hd, hm]
  · rw [hd, hw]

theorem dev_finish (fin : Finish) (rx : List Byte) (len : Nat) {s u : State} {ph : Phase} {d : Device} {es : List RegEvent}
    {answers : List Bit} (r : Ran s ph d es answers u) : (finish fin rx len u).dev = Memory.read d.regs := by
  obtain ⟨_, _, _, _, _, _, _, _, hdev, _⟩ := finish_rest fin rx len u
  funext a
  rw [State.dev, hdev, r.device]

/-- A write replaces the one register. -/
theorem read_write {m : List Host.Cell} (hm : Memory.wf m = true) (a : Nat) (v : Byte) :
    Memory.read (Memory.write m a v) = Function.update (Memory.read m) a v := by
  funext b
  by_cases h : b = a
  · subst h
    rw [read_write_same hm, Function.update_self]
  · rw [read_write_other h, Function.update_of_ne h]

/-- A command that is one register write, on the bench (R83). -/
theorem bench_regWrite {i : Instr} {s : State} (off : BitVec 6) (v : Byte) (hs : s.OnBench)
    (he : exec i s = busCommand .idle (regWrite (offsetByte off) v) .nothing i.byteLength s) :
    ∃ t, BenchRun i s t ∧ t.dev = Function.update s.dev off.toNat v := by
  have ⟨hattached, _, _, hw⟩ := hs
  obtain ⟨u, c, r⟩ := chain_bench_regWrite (s := s) off v [] hattached
  exact ⟨_, benchRun_of_chain hs he c r rfl (write_wf hw off.isLt), (dev_finish _ _ _ r).trans (read_write hw _ v)⟩

/-- A command that is three register writes, on the bench (R83). -/
theorem bench_threeWrites {i : Instr} {s : State} (o₁ o₂ o₃ : BitVec 6) (a b c : Byte) (hs : s.OnBench)
    (he : exec i s = busCommand .idle
      (regWrite (offsetByte o₁) a ++ regWrite (offsetByte o₂) b ++ regWrite (offsetByte o₃) c) .nothing i.byteLength s) :
    ∃ t, BenchRun i s t
      ∧ t.dev = Function.update (Function.update (Function.update s.dev o₁.toNat a) o₂.toNat b) o₃.toNat c := by
  have ⟨hattached, _, _, hw⟩ := hs
  obtain ⟨u, ch, r⟩ := chain_bench_threeWrites (s := s) o₁ o₂ o₃ a b c hattached
  have hw₁ : Memory.wf (Memory.write s.device.regs o₁.toNat a) = true := write_wf hw o₁.isLt
  have hw₂ := write_wf (v := b) hw₁ o₂.isLt
  refine ⟨_, benchRun_of_chain hs he ch r rfl (write_wf hw₂ o₃.isLt), (dev_finish _ _ _ r).trans ?_⟩
  rw [read_write hw₂, read_write hw₁, read_write hw]
  rfl

/-- A command that is one burst read, on the bench: it ends with the result of the registers from the offset on (R83). -/
theorem bench_burstRead {i : Instr} {s : State} {fin : Finish} (off : BitVec 6) (n : Nat) (hs : s.OnBench)
    (he : exec i s = busCommand .idle (burstRead (offsetByte off) (n + 1)) fin i.byteLength s) :
    ∃ u, BenchRun i s (finish fin ((List.range (n + 1)).map fun k => s.dev (off + BitVec.ofNat 6 k).toNat) i.byteLength u) := by
  have ⟨hattached, _, _, hw⟩ := hs
  obtain ⟨u, c, r⟩ := chain_bench_burstRead (s := s) off n [] hattached
  rw [List.nil_append, readAll_eq] at c
  exact ⟨u, benchRun_of_chain hs he c r rfl hw⟩

/-- Settles O57: the register that `bench_regWrite` has updated is the one that the read of `bench_burstRead` gives. -/
theorem readAfterWrite : Obligations.ReadAfterWrite := by
  unfold Obligations.ReadAfterWrite
  intro off v s hs
  obtain ⟨t, hwrite, hdev⟩ := bench_regWrite (i := .wrreg off v) off v hs rfl
  obtain ⟨u, hread⟩ := bench_burstRead (i := .rdreg off) (fin := .toRes) off 0 hwrite.bench rfl
  refine ⟨_, (execAll_cons hwrite.exec _).trans (execAll_cons hread.exec _), ?_, ?_, hread.err.trans hwrite.err⟩
  · simp [finish_toRes, hdev, Nat.mod_eq_of_lt off.isLt]
  · rw [hread.pc, hwrite.pc, BitVec.add_assoc]
    rfl

/-! ### The clock's round trip -/

/-- A field of at most 79 comes back from its register (R177 (b)). -/
theorem ofNat_decodeGeneric_bcdEncode {b : Byte} (h : b.toNat ≤ 79) :
    BitVec.ofNat 8 (decodeGeneric (bcdEncode b.toNat)) = b := by
  rw [decodeGeneric_bcdEncode _ (by omega), if_pos h, BitVec.ofNat_toNat, BitVec.setWidth_eq]

theorem ofNat_decodeHour_bcdEncode {b : Byte} (h : b.toNat < 24) : BitVec.ofNat 8 (decodeHour (bcdEncode b.toNat)) = b := by
  rw [decodeHour_bcdEncode _ (by omega), BitVec.ofNat_toNat, BitVec.setWidth_eq]

/-- A year of 2000..2099 comes back from its register (R177 (a)). -/
theorem ofNat_yearAbs_yearByte {y : Half} (h : 2000 ≤ y.toNat) (h' : y.toNat ≤ 2099) :
    BitVec.ofNat 16 (yearAbs (yearByte (y.toNat - Config.centuryBase))) = y := by
  have hle : y.toNat - Config.centuryBase ≤ 99 := by
    show y.toNat - 2000 ≤ 99
    omega
  have habs : Config.centuryBase + (y.toNat - Config.centuryBase) = y.toNat := by
    show 2000 + (y.toNat - 2000) = y.toNat
    omega
  rw [yearByte, if_pos hle, yearAbs, decodeYear_bcdEncode _ hle, habs, BitVec.ofNat_toNat, BitVec.setWidth_eq]

/-- The snapshot of registers that hold the encoded fields, whatever the control register holds (R191). -/
theorem snapshotOf_encoded {h m x d mo dow : Byte} {y : Half} (control : Byte) (hh : h.toNat < 24) (hm : m.toNat ≤ 79)
    (hx : x.toNat ≤ 79) (hd : d.toNat ≤ 79) (hmo : mo.toNat ≤ 79) (hy : 2000 ≤ y.toNat) (hy' : y.toNat ≤ 2099) :
    snapshotOf [bcdEncode x.toNat, bcdEncode m.toNat, bcdEncode h.toNat, dow, bcdEncode d.toNat, bcdEncode mo.toNat,
        yearByte (y.toNat - Config.centuryBase), control]
      = { hour := h, minute := m, second := x, date := d, month := mo, year := y, dow := dow } := by
  simp [snapshotOf, ofNat_decodeGeneric_bcdEncode, ofNat_decodeHour_bcdEncode, ofNat_yearAbs_yearByte, hh, hm, hx, hd, hmo,
    hy, hy']

/-- Settles O60: the registers that the three writing commands leave are the ones that `snapshotOf_encoded` decodes. -/
theorem clockRoundTrip : Obligations.ClockRoundTrip := by
  unfold Obligations.ClockRoundTrip
  intro h m x d mo dow y s hh hm hx hd hd' hmo hmo' hy hy' hdow hdow' hs
  obtain ⟨t₁, r₁, dev₁⟩ := bench_threeWrites (i := .wrtime h m x) 2#6 1#6 0#6 _ _ _ hs
    (if_pos (by simp [timeValid, hh, hm, hx]))
  obtain ⟨t₂, r₂, dev₂⟩ := bench_threeWrites (i := .wrdate d mo y) 6#6 5#6 4#6 _ _ _ r₁.bench
    (if_pos (by simp only [dateValid, Bool.and_eq_true, decide_eq_true_eq]; omega))
  obtain ⟨t₃, r₃, dev₃⟩ := bench_regWrite (i := .wrdow dow) 3#6 dow r₂.bench (if_pos (by simp [dowValid, hdow, hdow']))
  obtain ⟨u, r₄⟩ := bench_burstRead (i := .rdsnap) (fin := .toSnap) 0#6 7 r₃.bench rfl
  have hregs : ((List.range 8).map fun k => t₃.dev (0#6 + BitVec.ofNat 6 k).toNat)
      = [bcdEncode x.toNat, bcdEncode m.toNat, bcdEncode h.toNat, dow, bcdEncode d.toNat, bcdEncode mo.toNat,
        yearByte (y.toNat - Config.centuryBase), t₃.dev 7] := by
    simp [List.range_succ, dev₃, dev₂, dev₁, Function.update_apply]
  rw [hregs] at r₄
  have hsnap := snapshotOf_encoded (dow := dow) (t₃.dev 7) hh (show m.toNat ≤ 79 by omega) (show x.toNat ≤ 79 by omega)
    (show d.toNat ≤ 79 by omega) (show mo.toNat ≤ 79 by omega) hy hy'
  refine ⟨_, (execAll_cons r₁.exec _).trans ((execAll_cons r₂.exec _).trans ((execAll_cons r₃.exec _).trans
    (execAll_cons r₄.exec _))), hsnap, ?_, r₄.err.trans (r₃.err.trans (r₂.err.trans r₁.err))⟩
  show (snapshotOf _).ok = true
  rw [hsnap]
  simp only [Snapshot.ok, Bool.and_eq_true, decide_eq_true_eq]
  omega

end Sys2Proof.Machine

/-! The obligations about the encoding (spec/30_encoding.md): the decoder and the encoder are inverse to each other, and what a step
at a command boundary makes of the bytes that it finds. -/

namespace Sys2Proof

variable {i : Instr} {rest bs : List Byte}

/-! ### Decode and encode -/

/-- A command is read back from its own bytes: each constructor by what its format accepts (R105). -/
theorem decode_encode (hw : i.WellFormed) (rest : List Byte) : decode (encode i ++ rest) = .ok (i, rest) := by
  cases i with
  | stop | rbit | rbyte | sack | snack | wack | rdsnap | rdscrall => exact formatZ_ok.mpr ⟨rfl, rfl⟩
  | start a | wbyte a | bcdenc a | bcddec a | bcdyear a | bcdhour a | wrdow a | rdscr a =>
    exact formatB_ok.mpr ⟨a, rfl, rfl⟩
  | wbit f | sethalt f | setout f | setsqwe f => exact formatF_ok.mpr ⟨f, rfl, rfl⟩
  | setrate r => exact formatR_ok.mpr ⟨r, rfl, rfl⟩
  | rdreg off => exact formatO_ok.mpr ⟨off, rfl, rfl⟩
  | wrreg off v => exact formatOB_ok.mpr ⟨off, v, rfl, rfl⟩
  | brd off n => exact formatON_ok.mpr ⟨off, n, rfl, of_decide_eq_true hw, rfl⟩
  | bwr off d => exact formatV_ok.mpr ⟨off, d, rfl, of_decide_eq_true hw, rfl⟩
  | wrscr a v => exact formatBB_ok.mpr ⟨a, v, rfl, rfl⟩
  | wrtime h m x => exact formatT_ok.mpr ⟨h, m, x, rfl, rfl⟩
  | wrdate d m y => exact formatD_ok.mpr ⟨d, m, y, rfl, rfl⟩
  | wrscrall d => exact formatS_ok.mpr ⟨d, rfl, of_decide_eq_true hw, rfl⟩

/-- Bytes after the opcode `op` that format Z accepts make up the encoding of its command. -/
theorem formatZ_encoded {op : Byte} {j : Instr} (hj : j.WellFormed ∧ encode j = [op]) (h : formatZ j bs = .ok (i, rest)) :
    i.WellFormed ∧ op :: bs = encode i ++ rest := by
  obtain ⟨rfl, rfl⟩ := formatZ_ok.mp h
  exact ⟨hj.1, by rw [hj.2]; rfl⟩

/-- Bytes after the opcode `op` that format B accepts, likewise. -/
theorem formatB_encoded {op : Byte} {mk : Byte → Instr} (hmk : ∀ a, (mk a).WellFormed ∧ encode (mk a) = [op, a])
    (h : formatB mk bs = .ok (i, rest)) : i.WellFormed ∧ op :: bs = encode i ++ rest := by
  obtain ⟨a, rfl, rfl⟩ := formatB_ok.mp h
  exact ⟨(hmk a).1, by rw [(hmk a).2]; rfl⟩

/-- Bytes after the opcode `op` that format F accepts, likewise. -/
theorem formatF_encoded {op : Byte} {mk : Bit → Instr} (hmk : ∀ f, (mk f).WellFormed ∧ encode (mk f) = [op, Byte.ofBit f])
    (h : formatF mk bs = .ok (i, rest)) : i.WellFormed ∧ op :: bs = encode i ++ rest := by
  obtain ⟨f, rfl, rfl⟩ := formatF_ok.mp h
  exact ⟨(hmk f).1, by rw [(hmk f).2]; rfl⟩

/-- Bytes that decode are a command's own bytes and the rest: one case for each row of the opcode map (R92, R105). -/
theorem encode_of_decode (h : decode bs = .ok (i, rest)) : i.WellFormed ∧ bs = encode i ++ rest := by
  cases bs with
  | nil => cases h
  | cons op bs =>
    simp only [decode] at h
    generalize hk : op.toNat = k at h
    obtain rfl : op = BitVec.ofNat 8 k := by simp [← hk]
    split at h
    · exact formatB_encoded (fun _ => ⟨rfl, rfl⟩) h
    · exact formatZ_encoded ⟨rfl, rfl⟩ h
    · exact formatF_encoded (fun _ => ⟨rfl, rfl⟩) h
    · exact formatZ_encoded ⟨rfl, rfl⟩ h
    · exact formatB_encoded (fun _ => ⟨rfl, rfl⟩) h
    · exact formatZ_encoded ⟨rfl, rfl⟩ h
    · exact formatZ_encoded ⟨rfl, rfl⟩ h
    · exact formatZ_encoded ⟨rfl, rfl⟩ h
    · exact formatZ_encoded ⟨rfl, rfl⟩ h
    · obtain ⟨off, rfl, rfl⟩ := formatO_ok.mp h
      exact ⟨rfl, rfl⟩
    · obtain ⟨off, v, rfl, rfl⟩ := formatOB_ok.mp h
      exact ⟨rfl, rfl⟩
    · obtain ⟨off, n, rfl, hn, rfl⟩ := formatON_ok.mp h
      exact ⟨decide_eq_true hn, rfl⟩
    · obtain ⟨off, d, rfl, hd, rfl⟩ := formatV_ok.mp h
      exact ⟨decide_eq_true hd, rfl⟩
    · exact formatB_encoded (fun _ => ⟨rfl, rfl⟩) h
    · exact formatB_encoded (fun _ => ⟨rfl, rfl⟩) h
    · exact formatB_encoded (fun _ => ⟨rfl, rfl⟩) h
    · exact formatB_encoded (fun _ => ⟨rfl, rfl⟩) h
    · exact formatZ_encoded ⟨rfl, rfl⟩ h
    · obtain ⟨a, b, c, rfl, rfl⟩ := formatT_ok.mp h
      exact ⟨rfl, rfl⟩
    · obtain ⟨d, m, y, rfl, rfl⟩ := formatD_ok.mp h
      exact ⟨rfl, rfl⟩
    · exact formatB_encoded (fun _ => ⟨rfl, rfl⟩) h
    · exact formatF_encoded (fun _ => ⟨rfl, rfl⟩) h
    · exact formatF_encoded (fun _ => ⟨rfl, rfl⟩) h
    · exact formatF_encoded (fun _ => ⟨rfl, rfl⟩) h
    · obtain ⟨r, rfl, rfl⟩ := formatR_ok.mp h
      exact ⟨rfl, rfl⟩
    · exact formatB_encoded (fun _ => ⟨rfl, rfl⟩) h
    · obtain ⟨a, v, rfl, rfl⟩ := formatBB_ok.mp h
      exact ⟨rfl, rfl⟩
    · exact formatZ_encoded ⟨rfl, rfl⟩ h
    · obtain ⟨d, rfl, hd, rfl⟩ := formatS_ok.mp h
      exact ⟨decide_eq_true hd, rfl⟩
    · cases h

/-- Settles O3, by the format of each constructor (`decode_encode`). -/
theorem decodeOfEncode : Obligations.DecodeOfEncode := by
  unfold Obligations.DecodeOfEncode
  exact fun _ rest hw => decode_encode hw rest

/-- Settles O4, by the row of the opcode map that has read the bytes (`encode_of_decode`). -/
theorem encodeOfDecode : Obligations.EncodeOfDecode := by
  unfold Obligations.EncodeOfDecode
  exact fun _ _ _ h => encode_of_decode h

/-- Settles O5: each word is the encoding of its command, with no bytes after it. -/
theorem specWordsDecode : Obligations.SpecWordsDecode := by
  unfold Obligations.SpecWordsDecode
  exact ⟨decode_encode (i := .start 0xD0#8) rfl [], decode_encode (i := .wbit true) rfl [],
    decode_encode (i := .brd 0#6 8) rfl [], decode_encode (i := .bwr 8#6 [0x11#8, 0x22#8, 0x33#8]) rfl [],
    decode_encode (i := .bcdenc 45#8) rfl [], decode_encode (i := .wrdate 7#8 3#8 2024#16) rfl [],
    decode_encode (i := .setrate 3#2) rfl []⟩

/-! ### What the bytes of a legal command satisfy (R100) -/

/-- The opcode bytes of R92. -/
def opcodes : List Nat :=
  [0x01, 0x02, 0x03, 0x04, 0x05, 0x06, 0x07, 0x08, 0x09, 0x10, 0x11, 0x12, 0x13, 0x20, 0x21, 0x22, 0x23, 0x30, 0x31, 0x32,
    0x33, 0x34, 0x35, 0x36, 0x37, 0x38, 0x39, 0x3A, 0x3B]

/-- Every command opens with an opcode of R92. -/
theorem encode_opcode (i : Instr) : ∃ op operands, encode i = op :: operands ∧ op.toNat ∈ opcodes := by
  cases i <;> exact ⟨_, _, rfl, by simp [opcodes]⟩

theorem opcode_of_decode {op : Byte} (h : decode (op :: bs) = .ok (i, rest)) : op.toNat ∈ opcodes := by
  obtain ⟨_, e⟩ := encode_of_decode h
  obtain ⟨op', operands, he, hop⟩ := encode_opcode i
  rw [he] at e
  cases e
  exact hop

/-- A byte that is one of some numbers is one of their words. -/
theorem mem_words {op : Byte} {ks : List Nat} (h : op.toNat ∈ ks) : op ∈ ks.map (BitVec.ofNat 8) :=
  List.mem_map.mpr ⟨_, h, by simp⟩

theorem formatF_lt {mk : Bit → Instr} {b : Byte} (h : formatF mk (b :: bs) = .ok (i, rest)) : b.toNat < 2 := by
  obtain ⟨f, _, e⟩ := formatF_ok.mp h
  obtain ⟨rfl, _⟩ := List.cons.inj e
  cases f <;> decide

theorem flag_of_decode {op b : Byte} (hop : op.toNat ∈ [0x03, 0x34, 0x35, 0x36])
    (h : decode (op :: b :: bs) = .ok (i, rest)) : b.toNat < 2 := by
  obtain rfl | rfl | rfl | rfl : op = 0x03#8 ∨ op = 0x34#8 ∨ op = 0x35#8 ∨ op = 0x36#8 := by simpa using mem_words hop
  · exact formatF_lt (mk := .wbit) h
  · exact formatF_lt (mk := .sethalt) h
  · exact formatF_lt (mk := .setout) h
  · exact formatF_lt (mk := .setsqwe) h

theorem rate_of_decode {b : Byte} (h : decode (0x37#8 :: b :: bs) = .ok (i, rest)) : b.toNat < 4 := by
  obtain ⟨r, _, e⟩ := formatR_ok.mp (show formatR .setrate (b :: bs) = _ from h)
  obtain ⟨rfl, _⟩ := List.cons.inj e
  exact (BitVec.toNat_setWidth_of_le (by decide)).trans_lt r.isLt

/-- A byte that carries an offset is below 64. -/
theorem encodedOffset_lt {b : Byte} {off : BitVec 6} {tail : List Byte} (h : b :: bs = off.setWidth 8 :: tail) :
    b.toNat < 64 := by
  obtain ⟨rfl, _⟩ := List.cons.inj h
  exact (BitVec.toNat_setWidth_of_le (by decide)).trans_lt off.isLt

theorem offset_of_decode {op b : Byte} (hop : op.toNat ∈ [0x10, 0x11, 0x12, 0x13])
    (h : decode (op :: b :: bs) = .ok (i, rest)) : b.toNat < 64 := by
  obtain rfl | rfl | rfl | rfl : op = 0x10#8 ∨ op = 0x11#8 ∨ op = 0x12#8 ∨ op = 0x13#8 := by simpa using mem_words hop
  · obtain ⟨_, _, e⟩ := formatO_ok.mp (show formatO .rdreg (b :: bs) = _ from h)
    exact encodedOffset_lt e
  · obtain ⟨_, _, _, e⟩ := formatOB_ok.mp (show formatOB .wrreg (b :: bs) = _ from h)
    exact encodedOffset_lt e
  · obtain ⟨_, _, _, _, e⟩ := formatON_ok.mp (show formatON .brd (b :: bs) = _ from h)
    exact encodedOffset_lt e
  · obtain ⟨_, _, _, _, e⟩ := formatV_ok.mp (show formatV .bwr (b :: bs) = _ from h)
    exact encodedOffset_lt e

/-- A byte that carries a count is 1..56. -/
theorem encodedCount_ok {b c n : Byte} {k : Nat} {tail : List Byte} (hk : burstLengthOk k)
    (h : b :: n :: bs = c :: BitVec.ofNat 8 k :: tail) : burstLengthOk n.toNat := by
  obtain ⟨_, e⟩ := List.cons.inj h
  obtain ⟨rfl, _⟩ := List.cons.inj e
  have hlt : k < 256 := Nat.lt_of_le_of_lt hk.2 (by decide)
  rwa [BitVec.toNat_ofNat, Nat.mod_eq_of_lt hlt]

theorem count_of_decode {op b n : Byte} (hop : op.toNat ∈ [0x12, 0x13])
    (h : decode (op :: b :: n :: bs) = .ok (i, rest)) : burstLengthOk n.toNat := by
  obtain rfl | rfl : op = 0x12#8 ∨ op = 0x13#8 := by simpa using mem_words hop
  · obtain ⟨_, _, _, hk, e⟩ := formatON_ok.mp (show formatON .brd (b :: n :: bs) = _ from h)
    exact encodedCount_ok hk e
  · obtain ⟨_, _, _, hk, e⟩ := formatV_ok.mp (show formatV .bwr (b :: n :: bs) = _ from h)
    exact encodedCount_ok hk e

/-- An encoding that is cut short does not decode: with the bytes it lacks it would be the encoding of two commands. -/
theorem decode_take_encode {j : Instr} {k : Nat} (hw : i.WellFormed) (hk : k < (encode i).length) :
    decode ((encode i).take k) ≠ .ok (j, rest) := by
  intro h
  obtain ⟨hj, e⟩ := encode_of_decode h
  have hwhole : encode i ++ [] = encode j ++ (rest ++ (encode i).drop k) := by
    rw [← List.append_assoc, ← e, List.take_append_drop, List.append_nil]
  have hboth := decode_encode hw []
  rw [hwhole, decode_encode hj] at hboth
  obtain ⟨_, hnil⟩ := Prod.mk.inj (Except.ok.inj hboth)
  have hdrop := List.drop_eq_nil_iff.mp (List.append_eq_nil_iff.mp hnil).2
  omega

end Sys2Proof

namespace Sys2Proof.Machine

/-! ### A step at a command boundary -/

theorem pc_lt_of_drop_ne_nil {s : State} (h : s.stream.drop s.pc.toNat ≠ []) : s.pc.toNat < s.stream.length :=
  Nat.lt_of_not_le fun hle => h (List.drop_eq_nil_of_le hle)

/-- Bytes that decode to a command are run as that command (R94). -/
theorem step_decoded {s : State} {i : Instr} {rest : List Byte} (hb : s.AtBoundary)
    (h : decode (s.stream.drop s.pc.toNat) = .ok (i, rest)) : step s = exec i s := by
  have hne : s.stream.drop s.pc.toNat ≠ [] := by
    intro hnil
    rw [hnil] at h
    cases h
  rw [step_fetch hb (pc_lt_of_drop_ne_nil hne), h]

/-- Bytes that decode to no command raise ILLEGAL_COMMAND (R94). -/
theorem step_undecoded {s : State} (hb : s.AtBoundary) (hne : s.stream.drop s.pc.toNat ≠ [])
    (h : ∀ i rest, decode (s.stream.drop s.pc.toNat) ≠ .ok (i, rest)) : step s = illegal s := by
  rw [step_fetch hb (pc_lt_of_drop_ne_nil hne)]
  cases hd : decode (s.stream.drop s.pc.toNat) with
  | ok p => exact absurd hd (h p.1 p.2)
  | error e => rfl

/-- Settles O2: none of the six kinds of bytes decodes, and none is empty. -/
theorem illegalEncodingsFault : Obligations.IllegalEncodingsFault := by
  unfold Obligations.IllegalEncodingsFault
  rintro s bs hb rfl hill
  suffices hbytes : s.stream.drop s.pc.toNat ≠ [] ∧ ∀ i rest, decode (s.stream.drop s.pc.toNat) ≠ .ok (i, rest) from
    step_undecoded hb hbytes.1 hbytes.2
  obtain ⟨op, tail, e, hop⟩ | ⟨op, b, tail, e, hop, hflag⟩ | ⟨b, tail, e, hrate⟩ | ⟨op, b, tail, e, hop, hoff⟩
    | ⟨op, b, n, tail, e, hop, hcount⟩ | ⟨i, k, hw, hpos, hlen, e⟩ := hill <;> rw [e]
  · exact ⟨List.cons_ne_nil _ _, fun _ _ h => hop (opcode_of_decode h)⟩
  · exact ⟨List.cons_ne_nil _ _, fun _ _ h => Nat.not_lt.mpr hflag (flag_of_decode hop h)⟩
  · exact ⟨List.cons_ne_nil _ _, fun _ _ h => Nat.not_lt.mpr hrate (rate_of_decode h)⟩
  · exact ⟨List.cons_ne_nil _ _, fun _ _ h => Nat.not_lt.mpr hoff (offset_of_decode hop h)⟩
  · refine ⟨List.cons_ne_nil _ _, fun _ _ h => ?_⟩
    obtain ⟨hmin, hmax⟩ : 1 ≤ n.toNat ∧ n.toNat ≤ 56 := count_of_decode hop h
    omega
  · refine ⟨fun hnil => ?_, fun _ _ => decode_take_encode hw hlen⟩
    have htake := congrArg List.length hnil
    rw [List.length_take, List.length_nil] at htake
    omega

/-- Settles O1: at a boundary by `step_decoded`, in a wait by `step_held`. -/
theorem stepRunsTheDecodedCommand : Obligations.StepRunsTheDecodedCommand := by
  unfold Obligations.StepRunsTheDecodedCommand
  exact ⟨fun _ _ _ hb h => ⟨(encode_of_decode h).1, step_decoded hb h⟩, fun _ _ hr he hj => step_held hr he hj⟩

/-- Settles O10: at `PC = L` the step is no change (`step_done`), and so is any number of them. -/
theorem doneStandsStill : Obligations.DoneStandsStill := by
  unfold Obligations.DoneStandsStill
  exact fun _ hb hpc n => run_fixed (step_done hb hpc) n

end Sys2Proof.Machine

/-! The two invariants of every step (R133, R134): what holds at rest and in a wait, and what the pin trace shows. A run of a
sequence that keeps the phase preconditions is followed by one invariant on the lines, `Runnable`. -/

namespace Sys2Proof.Machine

/-! ### What a step that executes a command comes to -/

/-- EVERYTHING a command that answers a next state can have done, with the preconditions its sequence keeps: the run of a
sequence, an advance, or a fault. -/
theorem exec_next_legal {i : Instr} {s t : State} (h : exec i s = .next t) :
    (∃ ops fin, legalFrom s.phase ops = true ∧ readCount ops ≤ 56 ∧ t = runOps ops [] fin i.byteLength s)
      ∨ (∃ r, t = advance i.byteLength r ∧ (r = s ∨ ∃ v, r = setRes v s))
      ∨ (∃ c, t = raise c s) := by
  obtain ⟨need, ops, fin, e, _, hlegal, hreads⟩ | ⟨r, e, hr, _⟩ | ⟨a, _, _, e⟩ | ⟨_, e⟩ := exec_shape i s <;> rw [e] at h
  · by_cases hp : s.phase = need
    · rw [busCommand_run hp] at h
      cases h
      exact .inl ⟨ops, fin, hp ▸ hlegal, hreads, rfl⟩
    · rw [busCommand_protocol hp] at h
      cases h
      exact .inr (.inr ⟨_, rfl⟩)
  · cases h
    exact .inr (.inl ⟨r, rfl, hr⟩)
  · cases h
    exact .inr (.inr ⟨_, rfl⟩)
  · cases h
    exact .inr (.inr ⟨_, rfl⟩)

/-- A command that decodes ends inside the stream or at its end (R25, R93). -/
theorem decode_fits {s : State} {i : Instr} {rest : List Byte} (hl : s.pc.toNat < s.stream.length)
    (h : decode (s.stream.drop s.pc.toNat) = .ok (i, rest)) : s.pc.toNat + i.byteLength ≤ s.stream.length := by
  obtain ⟨hw, e⟩ := encode_of_decode h
  obtain ⟨hlen, _⟩ := Laws.Length.all i hw
  have hdrop := congrArg List.length e
  rw [List.length_drop, List.length_append, hlen] at hdrop
  omega

/-! ### The lines along a sequence -/

/-- The pins where no primitive is under way: idle pins in `PHASE = IDLE`, the clock low in `PHASE = ACTIVE` (R133). -/
def AtRest : Phase → Pins → Prop
  | .idle, p => p = Pins.idle
  | .active, p => p.scl = false

/-- The lines are at rest, and what is still to run keeps the phase preconditions. -/
def Runnable (todo : List BusOp) (s : State) : Prop := AtRest s.phase s.pins ∧ legalFrom s.phase todo = true

theorem linesOk_boundary {s : State} (h : s.busy = none) : s.linesOk = true ↔ AtRest s.phase s.pins := by
  unfold State.linesOk
  rw [h]
  cases hp : s.phase <;> simp [AtRest]

/-- At a boundary the lines are as the pins and the phase have them, whatever else changes. -/
theorem linesOk_kept {s t : State} (h : s.linesOk = true) (hs : s.busy = none) (ht : t.busy = none) (hp : t.pins = s.pins)
    (hph : t.phase = s.phase) : t.linesOk = true := by
  rw [linesOk_boundary ht, hp, hph]
  exact (linesOk_boundary hs).mp h

theorem linesOk_held {s : State} {j : Job} (h : s.busy = some j) :
    s.linesOk = true ↔
      s.phase = .active ∧ s.pins.scl = true ∧ s.pins.dir = .input ∧ s.err = false ∧ legalFrom .active j.todo = true := by
  unfold State.linesOk
  rw [h]
  simp [and_assoc]

/-- The first entry of a sequence that keeps the preconditions meets its own. -/
theorem legalFrom_cons {ph : Phase} {op : BusOp} {rest : List BusOp} (h : legalFrom ph (op :: rest) = true) :
    ∃ ph', op.phaseAfter ph = some ph' ∧ legalFrom ph' rest = true := by
  simp only [legalFrom] at h
  split at h
  · next ph' e => exact ⟨ph', e, h⟩
  · cases h

theorem phaseAfter_resolve (op : BusOp) (rx : List Byte) (ph : Phase) :
    op.phaseAfter ph = (op.resolve rx).phaseAfter ph := by
  cases op with
  | prim p => rfl
  | writeBack mask bits => cases ph <;> rfl

/-- Where its precondition holds, a primitive comes to the phase it always comes to. -/
theorem Prim.phaseAfter_eq {p : Prim} {ph ph' : Phase} (h : p.phaseAfter ph = some ph') : ph' = p.endPhase ph := by
  cases ph with
  | idle =>
    cases p with
    | start a =>
      cases h
      rfl
    | _ => cases h
  | active =>
    cases p with
    | start a => cases h
    | _ =>
      cases h
      rfl

/-- A primitive whose precondition holds leaves the lines at rest, a wait apart (R133). -/
theorem runPrim_atRest {p : Prim} {s : State} {ph : Phase} (h : p.phaseAfter s.phase = some ph) (hw : p ≠ .waitForAck) :
    AtRest ph (runPrim p s).2.pins := by
  rw [runPrim_pins]
  generalize s.phase = q at h
  cases p with
  | waitForAck => exact absurd rfl hw
  | _ =>
    cases q <;> cases h
    rfl

theorem Runnable.prim {op : BusOp} {rest : List BusOp} {rx : List Byte} {s : State} (h : Runnable (op :: rest) s)
    (hw : op.resolve rx ≠ .waitForAck) : Runnable rest (runPrim (op.resolve rx) s).2 := by
  obtain ⟨_, hlegal⟩ := h
  obtain ⟨ph, hop, hrest⟩ := legalFrom_cons hlegal
  rw [phaseAfter_resolve op rx] at hop
  have hph : (runPrim (op.resolve rx) s).2.phase = ph := by rw [runPrim_phase, Prim.phaseAfter_eq hop]
  exact ⟨hph ▸ runPrim_atRest hop hw, hph ▸ hrest⟩

/-- A wait in a sequence that keeps the preconditions stands in an open transfer. -/
theorem Runnable.wait {rest : List BusOp} {s : State} (h : Runnable (.prim .waitForAck :: rest) s) :
    s.phase = .active ∧ legalFrom .active rest = true := by
  obtain ⟨_, hlegal⟩ := h
  obtain ⟨ph, hop, hrest⟩ := legalFrom_cons hlegal
  cases hp : s.phase with
  | idle =>
    rw [hp] at hop
    cases hop
  | active =>
    rw [hp] at hop
    cases hop
    exact ⟨rfl, hrest⟩

theorem sampledWait_phase (s : State) : (sampleAck (runPrim .waitForAck s).2).2.phase = s.phase := by
  rw [(sampleAck_frame _).phase, runPrim_phase]
  rfl

/-- A wait that ends leaves the clock low. -/
theorem Runnable.waitGo {rest : List BusOp} {s : State} (h : Runnable (.prim .waitForAck :: rest) s) :
    Runnable rest (setSCL false (sampleAck (runPrim .waitForAck s).2).2) := by
  obtain ⟨hactive, hrest⟩ := h.wait
  have hph : (setSCL false (sampleAck (runPrim .waitForAck s).2).2).phase = .active := (sampledWait_phase s).trans hactive
  refine ⟨?_, ?_⟩ <;> rw [hph]
  · rfl
  · exact hrest

/-- A command held up goes on from a clock that falls, in the open transfer. -/
theorem Runnable.resumed {j : Job} {s : State} (hactive : s.phase = .active) (hlegal : legalFrom .active j.todo = true) :
    Runnable j.todo (setSCL false { (sampleAck s).2 with busy := none }) := by
  have hph : (setSCL false { (sampleAck s).2 with busy := none }).phase = .active := (sampleAck_frame s).phase.trans hactive
  refine ⟨?_, ?_⟩ <;> rw [hph]
  · rfl
  · exact hlegal

/-- A run of a sequence that keeps the preconditions leaves the lines as R133 has them, at its end and in a wait. -/
theorem runOps_linesOk {ops : List BusOp} {s : State} (rx : List Byte) (fin : Finish) (len : Nat) (h : Runnable ops s)
    (he : s.err = false) : (runOps ops rx fin len s).linesOk = true := by
  refine runOps_rule (P := fun todo _ u => Runnable todo u ∧ u.err = false) (Q := fun t => t.linesOk = true)
    ?_ ?_ ?_ ?_ ops rx s ⟨h, he⟩
  · rintro op rest rx u ⟨hu, herr⟩ hw
    exact ⟨hu.prim hw, (runPrim_frame _ u).err.trans herr⟩
  · rintro rest rx u ⟨hu, herr⟩ _
    exact ⟨hu.waitGo, (sampleAck_frame _).err.trans ((runPrim_frame _ u).err.trans herr)⟩
  · rintro rest rx u ⟨hu, herr⟩ _
    obtain ⟨hactive, hrest⟩ := hu.wait
    refine (linesOk_held rfl).mpr ⟨(sampledWait_phase u).trans hactive, ?_, ?_, ?_, hrest⟩
    · rw [sampleAck_pins, runPrim_pins]
    · rw [sampleAck_pins, runPrim_pins]
    · exact (sampleAck_frame _).err.trans ((runPrim_frame _ u).err.trans herr)
  · rintro rx u ⟨⟨hrest, _⟩, _⟩
    obtain ⟨hpins, hphase, hbusy, _⟩ := finish_rest fin rx len u
    rw [linesOk_boundary hbusy, hpins, hphase]
    exact hrest

/-! ### The other parts of the invariant -/

theorem bufferOk_iff (s : State) :
    s.bufferOk = true ↔ s.buf.length = 56 ∧ s.bufn.toNat ≤ 56
      ∧ ∀ j, s.busy = some j → j.rx.length + readCount j.todo ≤ 56 := by
  unfold State.bufferOk
  cases s.busy <;> simp [and_assoc] <;> rfl

theorem pcOk_iff (s : State) :
    s.pcOk = true ↔ s.pc.toNat ≤ s.stream.length
      ∧ ∀ j, s.busy = some j → s.pc.toNat + j.len ≤ s.stream.length := by
  unfold State.pcOk
  cases s.busy <;> simp

theorem faultOk_of_noErr {s : State} (h : s.err = false) : s.faultOk = true := by
  simp [State.faultOk, h]

/-- The end of a command writes at most 56 cells of `BUF` (R29). -/
theorem finish_buffer {s : State} {rx : List Byte} (fin : Finish) (len : Nat) (hbuf : s.buf.length = 56)
    (hbufn : s.bufn.toNat ≤ 56) (hrx : rx.length ≤ 56) :
    (finish fin rx len s).buf.length = 56 ∧ (finish fin rx len s).bufn.toNat ≤ 56 := by
  cases fin with
  | nothing | toRes | toSnap => exact ⟨hbuf, hbufn⟩
  | toBuf =>
    constructor
    · simp only [finish_toBuf, advance_buf, setBuf_buf, List.length_append, List.length_drop, hbuf]
      omega
    · simp only [finish_toBuf, advance_bufn, setBuf_bufn, BitVec.toNat_ofNat]
      omega

theorem runOps_bufferOk {ops : List BusOp} {rx : List Byte} {s : State} (fin : Finish) (len : Nat)
    (hbuf : s.buf.length = 56) (hbufn : s.bufn.toNat ≤ 56) (hreads : rx.length + readCount ops ≤ 56) :
    (runOps ops rx fin len s).bufferOk = true := by
  rw [bufferOk_iff]
  obtain ⟨u, rx', f, hrx, e⟩ | ⟨u, j, f, _, _, hj, e⟩ := runOps_cases ops rx fin len s <;> rw [e]
  · obtain ⟨hlen, hcount⟩ := finish_buffer fin len (f.buf ▸ hbuf) (f.bufn ▸ hbufn) (hrx.trans_le hreads)
    obtain ⟨_, _, hbusy, _⟩ := finish_rest fin rx' len u
    refine ⟨hlen, hcount, fun k hk => ?_⟩
    rw [hbusy] at hk
    cases hk
  · refine ⟨(congrArg List.length f.buf).trans hbuf, f.bufn ▸ hbufn, fun k hk => ?_⟩
    cases hk
    exact hj.trans_le hreads

/-- `PC` does not wrap inside a stream a host may supply (R25). -/
theorem advanced_pc_le {s : State} {len : Nat} (hs : s.stream.length ≤ Config.maxStream)
    (h : s.pc.toNat + len ≤ s.stream.length) : (s.pc + BitVec.ofNat 16 len).toNat ≤ s.stream.length := by
  have hmax : s.stream.length ≤ 65535 := hs
  rw [BitVec.toNat_add, BitVec.toNat_ofNat]
  omega

theorem runOps_pcOk {s : State} {len : Nat} (ops : List BusOp) (rx : List Byte) (fin : Finish)
    (hs : s.stream.length ≤ Config.maxStream) (h : s.pc.toNat + len ≤ s.stream.length) :
    (runOps ops rx fin len s).pcOk = true := by
  obtain ⟨_, hstream, _⟩ := runOps_sameRun ops rx fin len s
  obtain ⟨_, ⟨hbusy, hpc⟩ | ⟨_, hpc⟩⟩ := runOps_pc ops rx fin len s <;> rw [pcOk_iff, hstream, hpc]
  · refine ⟨advanced_pc_le hs h, fun j hj => ?_⟩
    rw [hbusy] at hj
    cases hj
  · refine ⟨by omega, fun j hj => ?_⟩
    obtain ⟨_, hlen⟩ := runOps_job hj
    rwa [hlen]

/-! ### Every step keeps the invariant -/

/-- A run of a sequence keeps the invariant, from where the sequence can be run, its reads fit in `BUF` and its command in the
stream. -/
theorem runOps_inv {ops : List BusOp} {rx : List Byte} {len : Nat} {s : State} (fin : Finish) (hrun : Runnable ops s)
    (he : s.err = false) (hbuf : s.buf.length = 56) (hbufn : s.bufn.toNat ≤ 56) (hreads : rx.length + readCount ops ≤ 56)
    (hs : s.stream.length ≤ Config.maxStream) (hpc : s.pc.toNat + len ≤ s.stream.length)
    (hw : Memory.wf s.device.regs = true) : (runOps ops rx fin len s).Inv := by
  obtain ⟨herr, _⟩ := runOps_pc ops rx fin len s
  exact ⟨runOps_linesOk rx fin len hrun he, runOps_bufferOk fin len hbuf hbufn hreads, runOps_pcOk ops rx fin hs hpc,
    faultOk_of_noErr (herr.trans he), runOps_wf ops rx fin len hw⟩

theorem resume_inv {s : State} {j : Job} (h : s.Inv) (hs : s.stream.length ≤ Config.maxStream) (hb : s.busy = some j) :
    (resume j s).Inv := by
  obtain ⟨hlines, hbuffer, hpc, hfault, hw⟩ := h
  have f := sampleAck_frame s
  cases ha : (sampleAck s).1 with
  | true =>
    rw [resume_held ha]
    refine ⟨?_, ?_, ?_, ?_, by rw [f.device]; exact hw⟩
    · simpa only [State.linesOk, f.busy, f.phase, sampleAck_pins, f.err] using hlines
    · simpa only [State.bufferOk, f.buf, f.bufn, f.busy] using hbuffer
    · simpa only [State.pcOk, f.pc, f.stream, f.busy] using hpc
    · simpa only [State.faultOk, f.err, f.errcode, f.errpc, f.pc] using hfault
  | false =>
    obtain ⟨hactive, _, _, herr, hlegal⟩ := (linesOk_held hb).mp hlines
    obtain ⟨hbuf, hbufn, hreads⟩ := (bufferOk_iff s).mp hbuffer
    obtain ⟨_, hfits⟩ := (pcOk_iff s).mp hpc
    rw [resume_go ha]
    refine runOps_inv j.fin (.resumed hactive hlegal) (f.err.trans herr) ?_ ?_ (hreads j hb) ?_ ?_ ?_
    · exact (congrArg List.length f.buf).trans hbuf
    · exact (congrArg BitVec.toNat f.bufn).trans_le hbufn
    · exact (congrArg List.length f.stream).trans_le hs
    · simpa only [setSCL_pc, setSCL_stream, f.pc, f.stream] using hfits j hb
    · exact (congrArg (Memory.wf ·.regs) f.device).trans hw

theorem raise_inv {s : State} (c : FaultCode) (h : s.Inv) (hb : s.busy = none) : (raise c s).Inv := by
  obtain ⟨hlines, hbuffer, hpc, _, hw⟩ := h
  refine ⟨linesOk_kept hlines hb hb rfl rfl, hbuffer, hpc, ?_, hw⟩
  cases c <;> simp [State.faultOk, FaultCode.number]

/-- An advance inside the stream, with `RES` written or not, keeps the invariant. -/
theorem advance_inv {s r : State} {len : Nat} (h : s.Inv) (hb : s.busy = none) (he : s.err = false)
    (hs : s.stream.length ≤ Config.maxStream) (hfits : s.pc.toNat + len ≤ s.stream.length)
    (hr : r = s ∨ ∃ v, r = setRes v s) : (advance len r).Inv := by
  obtain ⟨hlines, hbuffer, _, _, hw⟩ := h
  have hend : ∀ j, s.busy = some j → (s.pc + BitVec.ofNat 16 len).toNat + j.len ≤ s.stream.length := by
    intro j hj
    rw [hb] at hj
    cases hj
  have hpc := advanced_pc_le hs hfits
  obtain rfl | ⟨v, rfl⟩ := hr
  all_goals
    exact ⟨linesOk_kept hlines hb hb rfl rfl, hbuffer, (pcOk_iff _).mpr ⟨hpc, hend⟩, faultOk_of_noErr he, hw⟩

theorem exec_inv {i : Instr} {s t : State} (h : s.Inv) (hb : s.AtBoundary)
    (hfits : s.pc.toNat + i.byteLength ≤ s.stream.length) (hi : exec i s = .next t) : t.Inv := by
  obtain ⟨⟨_, hs, _⟩, he, hbusy⟩ := hb
  obtain ⟨ops, fin, hlegal, hreads, rfl⟩ | ⟨r, rfl, hr⟩ | ⟨c, rfl⟩ := exec_next_legal hi
  · obtain ⟨hlines, hbuffer, _, _, hw⟩ := h
    obtain ⟨hbuf, hbufn, _⟩ := (bufferOk_iff s).mp hbuffer
    exact runOps_inv fin ⟨(linesOk_boundary hbusy).mp hlines, hlegal⟩ he hbuf hbufn (by simpa using hreads) hs hfits hw
  · exact advance_inv h hbusy he hs hfits hr
  · exact raise_inv c h hbusy

theorem hostReset_inv {s : State} (h : Memory.wf s.device.regs = true) : (hostReset s).Inv := by
  refine ⟨rfl, rfl, ?_, rfl, hostReset_wf h⟩
  exact (pcOk_iff _).mpr ⟨Nat.zero_le _, fun j hj => by cases hj⟩

/-- Settles O15: every case of `step_next` keeps the invariant, a run by `runOps_inv`. -/
theorem everyStepKeepsTheInvariant : Obligations.EveryStepKeepsTheInvariant := by
  unfold Obligations.EveryStepKeepsTheInvariant
  intro s t hinv h
  obtain ⟨⟨_, hs⟩, ⟨_, rfl⟩ | ⟨_, _, rfl⟩ | ⟨_, _, j, hj, rfl⟩ | ⟨_, _, rfl⟩ | ⟨hb, hl, rfl | ⟨i, _, hd, hi⟩⟩⟩ := step_next h
  · obtain ⟨_, _, _, _, hw⟩ := hinv
    exact hostReset_inv (beforeReset_wf hw)
  · exact hinv
  · exact resume_inv hinv hs hj
  · exact hinv
  · obtain ⟨_, _, hbusy⟩ := hb
    exact raise_inv _ hinv hbusy
  · exact exec_inv hinv hb (decode_fits hl hd) hi

/-! ### What the pin trace shows -/

/-- Where the lines stand after a primitive's end in the phase `ph`. -/
def Phase.lineMode : Phase → LineMode
  | .idle => .idle
  | .active => .transfer

/-- Since `old` the pin trace has shown only changes that may be, up to the pins of `s`, and stands in the mode `m`. -/
def Shows (old : List Pins) (m : LineMode) (s : State) : Prop :=
  ∃ recent, s.trace.pins = recent ++ old ∧ recent.head? = some s.pins ∧ lineMode recent = some m

/-- Where the lines stand after the pins `new` are set over `old`: a state that does not change is no entry of the trace. -/
def lineMove (m : LineMode) (old new : Pins) : Option LineMode := if new = old then some m else lineNext m old new

theorem stableOver_iff (recent : List Pins) (s : State) :
    s.StableOver recent ↔ recent.head? = some s.pins ∧ lineMode recent = some s.phase.lineMode := by
  unfold State.StableOver
  cases s.phase <;> rfl

/-- A trace that shows what may be, where the phase says the lines stand, is stable. -/
theorem shows_stable {old : List Pins} {s : State} (h : Shows old s.phase.lineMode s) :
    ∃ later, s.trace.pins = later ++ old ∧ s.StableOver later := by
  obtain ⟨later, htrace, hhead, hmode⟩ := h
  exact ⟨later, htrace, (stableOver_iff later s).mpr ⟨hhead, hmode⟩⟩

theorem Shows.congr {old : List Pins} {m : LineMode} {s t : State} (h : Shows old m s) (hp : t.pins = s.pins)
    (ht : t.trace.pins = s.trace.pins) : Shows old m t := by
  unfold Shows
  rw [hp, ht]
  exact h

variable {old : List Pins} {m m' : LineMode} {s t : State}

theorem setPins_shows {p : Pins} (h : Shows old m s) (hm : lineMove m s.pins p = some m') : Shows old m' (setPins p s) := by
  obtain ⟨recent, htrace, hhead, hmode⟩ := h
  obtain ⟨older, rfl⟩ := List.head?_eq_some_iff.mp hhead
  have hrec : (setPins p s).trace.pins = if s.pins = p then s.trace.pins else p :: s.trace.pins := by
    rw [setPins_trace, recordPins_pins, htrace]
    simp
  by_cases hp : p = s.pins
  · subst hp
    rw [if_pos rfl] at hrec
    rw [lineMove, if_pos rfl] at hm
    exact ⟨s.pins :: older, hrec.trans htrace, rfl, hmode.trans hm⟩
  · rw [if_neg (Ne.symm hp), htrace] at hrec
    rw [lineMove, if_neg hp] at hm
    refine ⟨p :: s.pins :: older, hrec, rfl, ?_⟩
    rw [lineMode, hmode]
    exact hm

theorem driveSDA_shows (b : Bit) (h : Shows old m s)
    (hm : lineMove m s.pins { s.pins with dir := .output, sda := b } = some m') : Shows old m' (driveSDA b s) :=
  setPins_shows h hm

theorem releaseSDA_shows (h : Shows old m s) (hm : lineMove m s.pins { s.pins with dir := .input } = some m') :
    Shows old m' (releaseSDA s) := setPins_shows h hm

theorem setSCL_shows (b : Bit) (h : Shows old m s) (hm : lineMove m s.pins { s.pins with scl := b } = some m') :
    Shows old m' (setSCL b s) := setPins_shows h hm

/-! ### The primitives in a transfer -/

/-- In a transfer any pins with the clock low may follow a low clock. -/
theorem lineMove_low {old new : Pins} (ho : old.scl = false) (hn : new.scl = false) :
    lineMove .transfer old new = some .transfer := by
  unfold lineMove lineNext
  simp [ho, hn]

/-- In a transfer the clock alone may rise and fall. -/
theorem lineMove_clock (p : Pins) (b : Bit) : lineMove .transfer p { p with scl := b } = some .transfer := by
  obtain ⟨scl, dir, sda⟩ := p
  cases scl <;> cases b <;> simp [lineMove, lineNext]

theorem clock_shows (b : Bit) (h : Shows old .transfer s) : Shows old .transfer (setSCL b s) :=
  setSCL_shows b h (lineMove_clock _ b)

theorem driveLow_shows (b : Bit) (h : Shows old .transfer s) (hl : s.pins.scl = false) :
    Shows old .transfer (driveSDA b s) := driveSDA_shows b h (lineMove_low hl hl)

theorem releaseLow_shows (h : Shows old .transfer s) (hl : s.pins.scl = false) : Shows old .transfer (releaseSDA s) :=
  releaseSDA_shows h (lineMove_low hl hl)

theorem sampleSDA_shows (x : Option Bit) (h : Shows old m s) : Shows old m (sampleSDA x s).2 :=
  h.congr (sampleSDA_pins x s) (by rw [sampleSDA_trace])

theorem lineWriteBit_shows (b : Bit) (h : Shows old .transfer s) (hl : s.pins.scl = false) :
    Shows old .transfer (lineWriteBit b s) := clock_shows false (clock_shows true (driveLow_shows b h hl))

theorem lineReadBit_shows (x : Option Bit) (h : Shows old .transfer s) (hl : s.pins.scl = false) :
    Shows old .transfer (lineReadBit x s).2 :=
  clock_shows false (sampleSDA_shows x (clock_shows true (releaseLow_shows h hl)))

theorem lineWriteBits_shows (v : Byte) (is : List Nat) (h : Shows old .transfer s) (hl : s.pins.scl = false) :
    Shows old .transfer (lineWriteBits v is s) := by
  induction is generalizing s with
  | nil => exact h
  | cons i is ih => exact ih (lineWriteBit_shows _ h hl) rfl

theorem lineReadBits_shows (x : Option Byte) (is : List Nat) (acc : Byte) (h : Shows old .transfer s)
    (hl : s.pins.scl = false) : Shows old .transfer (lineReadBits x is acc s).2 := by
  induction is generalizing acc s with
  | nil => exact h
  | cons i is ih => exact ih _ (lineReadBit_shows _ h hl) (by simp)

theorem lineAcknowledge_shows (b : Bit) (h : Shows old .transfer s) (hl : s.pins.scl = false) :
    Shows old .transfer (lineAcknowledge b s) :=
  releaseLow_shows (clock_shows false (clock_shows true (driveLow_shows b h hl))) rfl

theorem lineWaitBegin_shows (h : Shows old .transfer s) (hl : s.pins.scl = false) :
    Shows old .transfer (lineWaitBegin s) := clock_shows true (releaseLow_shows h hl)

/-! ### The start and the stop condition -/

/-- `Start(a)` on an idle bus is a start condition and a byte in the transfer it opens (R124). -/
theorem lineStart_shows (a : Byte) (h : Shows old .idle s) (hp : s.pins = Pins.idle) : Shows old .transfer (lineStart a s) := by
  have h1 : Shows old .opening (driveSDA true s) := driveSDA_shows true h (by rw [hp]; rfl)
  have h2 : Shows old .opening (setSCL true (driveSDA true s)) :=
    setSCL_shows true h1 (by rw [driveSDA_pins, hp]; rfl)
  have h3 : Shows old .opened (driveSDA false (setSCL true (driveSDA true s))) :=
    driveSDA_shows false h2 rfl
  have h4 : Shows old .transfer (setSCL false (driveSDA false (setSCL true (driveSDA true s)))) :=
    setSCL_shows false h3 rfl
  exact (lineWriteBits_shows a msbFirst h4 rfl).congr rfl rfl

/-- `Stop()` in a transfer with the clock low ends it with a stop condition (R125). -/
theorem lineStop_shows (h : Shows old .transfer s) (hl : s.pins.scl = false) : Shows old .idle (lineStop s) := by
  have h2 : Shows old .transfer (setSCL true (driveSDA false s)) := clock_shows true (driveLow_shows false h hl)
  have h3 : Shows old .closing (driveSDA true (setSCL true (driveSDA false s))) :=
    driveSDA_shows true h2 rfl
  have h4 : Shows old .idle (releaseSDA (driveSDA true (setSCL true (driveSDA false s)))) :=
    releaseSDA_shows h3 rfl
  exact h4.congr rfl rfl

/-! ### Every step but a reset keeps the data line stable -/

/-- A primitive whose precondition holds shows on the lines what may be, from lines at rest to the phase it comes to. -/
theorem runPrim_shows {p : Prim} {ph : Phase} (h : Shows old s.phase.lineMode s) (hrest : AtRest s.phase s.pins)
    (hp : p.phaseAfter s.phase = some ph) : Shows old ph.lineMode (runPrim p s).2 := by
  have hd := h.congr (deviceEvent_pins p s) (deviceEvent_tracePins p s)
  rw [← deviceEvent_pins p s] at hrest
  generalize s.phase = q at hp hd hrest
  cases p with
  | start a =>
    cases q <;> cases hp
    exact (lineStart_shows a hd hrest).congr rfl rfl
  | stop =>
    cases q <;> cases hp
    exact (lineStop_shows hd hrest).congr rfl rfl
  | writeBit b =>
    cases q <;> cases hp
    exact (lineWriteBit_shows b hd hrest).congr rfl rfl
  | readBit =>
    cases q <;> cases hp
    exact (lineReadBit_shows none hd hrest).congr rfl rfl
  | writeByte v =>
    cases q <;> cases hp
    exact (lineWriteBits_shows v msbFirst hd hrest).congr rfl rfl
  | readByte =>
    cases q <;> cases hp
    exact (lineReadBits_shows _ msbFirst 0#8 hd hrest).congr rfl rfl
  | sendAck | sendNack =>
    cases q <;> cases hp
    exact (lineAcknowledge_shows _ hd hrest).congr rfl rfl
  | waitForAck =>
    cases q <;> cases hp
    exact (lineWaitBegin_shows hd hrest).congr rfl rfl

/-- The wait of a sequence that keeps the preconditions stays in the transfer, whatever it samples. -/
theorem sampledWait_shows {rest : List BusOp} (h : Shows old s.phase.lineMode s)
    (hr : Runnable (.prim .waitForAck :: rest) s) : Shows old .transfer (sampleAck (runPrim .waitForAck s).2).2 := by
  have hp : Prim.waitForAck.phaseAfter s.phase = some .active := by
    rw [hr.wait.1]
    rfl
  exact sampleSDA_shows _ (runPrim_shows h hr.1 hp)

theorem runOps_shows {ops : List BusOp} (rx : List Byte) (fin : Finish) (len : Nat) (h : Shows old s.phase.lineMode s)
    (hr : Runnable ops s) : Shows old (runOps ops rx fin len s).phase.lineMode (runOps ops rx fin len s) := by
  refine runOps_rule (P := fun todo _ u => Shows old u.phase.lineMode u ∧ Runnable todo u)
    (Q := fun t => Shows old t.phase.lineMode t) ?_ ?_ ?_ ?_ ops rx s ⟨h, hr⟩
  · rintro op rest rx u ⟨hu, hrun⟩ hw
    obtain ⟨ph, hop, _⟩ := legalFrom_cons hrun.2
    rw [phaseAfter_resolve op rx] at hop
    have hph : (runPrim (op.resolve rx) u).2.phase = ph := by rw [runPrim_phase, Prim.phaseAfter_eq hop]
    refine ⟨?_, hrun.prim hw⟩
    rw [hph]
    exact runPrim_shows hu hrun.1 hop
  · rintro rest rx u ⟨hu, hrun⟩ _
    refine ⟨?_, hrun.waitGo⟩
    rw [setSCL_phase, sampledWait_phase, hrun.wait.1]
    exact clock_shows false (sampledWait_shows hu hrun)
  · rintro rest rx u ⟨hu, hrun⟩ _
    show Shows old (sampleAck (runPrim .waitForAck u).2).2.phase.lineMode _
    rw [sampledWait_phase, hrun.wait.1]
    exact (sampledWait_shows hu hrun).congr rfl rfl
  · rintro rx u ⟨hu, _⟩
    obtain ⟨hpins, hphase, _, _, _, _, _, _, _, htrace, _⟩ := finish_rest fin rx len u
    rw [hphase]
    exact hu.congr hpins htrace

theorem resume_shows {j : Job} (hinv : s.Inv) (hj : s.busy = some j) (h : Shows old s.phase.lineMode s) :
    Shows old (resume j s).phase.lineMode (resume j s) := by
  obtain ⟨hlines, _⟩ := hinv
  obtain ⟨hactive, _, _, _, hlegal⟩ := (linesOk_held hj).mp hlines
  have hph : (sampleAck s).2.phase = .active := (sampleAck_frame s).phase.trans hactive
  rw [hactive] at h
  have hs : Shows old .transfer (sampleAck s).2 := sampleSDA_shows _ h
  cases ha : (sampleAck s).1 with
  | true =>
    rw [resume_held ha, hph]
    exact hs
  | false =>
    rw [resume_go ha]
    refine runOps_shows j.rx j.fin j.len ?_ (.resumed hactive hlegal)
    show Shows old (sampleAck s).2.phase.lineMode _
    rw [hph]
    exact clock_shows false (hs.congr rfl rfl)

theorem exec_shows {i : Instr} (hinv : s.Inv) (hb : s.busy = none) (hi : exec i s = .next t)
    (h : Shows old s.phase.lineMode s) : Shows old t.phase.lineMode t := by
  obtain ⟨ops, fin, hlegal, _, rfl⟩ | ⟨r, rfl, rfl | ⟨v, rfl⟩⟩ | ⟨c, rfl⟩ := exec_next_legal hi
  · exact runOps_shows [] fin i.byteLength h ⟨(linesOk_boundary hb).mp hinv.1, hlegal⟩
  all_goals exact h.congr rfl rfl

/-- The pin trace goes on through a reset, and a new stretch begins with the idle pins (R260). -/
theorem hostReset_stable (s : State) :
    (∃ before, (hostReset s).trace.pins = [⟨true, .input, true⟩] ++ before)
      ∧ (hostReset s).StableOver [⟨true, .input, true⟩] := by
  have hhead : (hostReset s).trace.pins.head? = some Pins.idle := recordPins_pins_head Pins.idle s.trace
  exact ⟨List.head?_eq_some_iff.mp hhead, rfl, rfl⟩

/-- Settles O16: every case of `step_next` but the reset shows what may be, a run by `runOps_shows`. -/
theorem dataLineStableWhileClockHigh : Obligations.DataLineStableWhileClockHigh := by
  unfold Obligations.DataLineStableWhileClockHigh
  intro s t recent old hinv htrace hstable h
  obtain ⟨hhead, hmode⟩ := (stableOver_iff recent s).mp hstable
  have hs : Shows old s.phase.lineMode s := ⟨recent, htrace, hhead, hmode⟩
  obtain ⟨_, ⟨hq, rfl⟩ | ⟨hr, _, rfl⟩ | ⟨hr, _, j, hj, rfl⟩ | ⟨⟨hr, _⟩, _, rfl⟩ | ⟨⟨hr, _, hb⟩, _, hstep⟩⟩ := step_next h
  · obtain ⟨⟨before, hbefore⟩, hnew⟩ := hostReset_stable (beforeReset s)
    exact ⟨fun hn => absurd (hq.symm.trans hn) (by simp), fun _ => ⟨before, hbefore, hnew⟩⟩
  all_goals
    obtain ⟨_, _, hreq⟩ := hr
    refine ⟨fun _ => shows_stable ?_, fun hq => absurd (hq.symm.trans hreq) (by simp)⟩
  · exact hs
  · exact resume_shows hinv hj hs
  · exact hs
  · obtain rfl | ⟨i, _, _, hi⟩ := hstep
    · exact hs.congr rfl rfl
    · exact exec_shows hinv hb hi hs

end Sys2Proof.Machine

/-! The commands that expose the nine primitives (R136 to R144): each is one primitive and the end of the command, a wait apart,
which its first sample ends or holds up. -/

namespace Sys2Proof.Machine

/-! ### A command of one primitive -/

/-- `t` is where a command ends that is the one primitive `p`, `len` bytes long: everything but the result registers. -/
structure EndsPrimitive (p : Prim) (len : Nat) (s t : State) : Prop where
  pins : t.pins = (runPrim p s).2.pins
  phase : t.phase = p.endPhase s.phase
  busy : t.busy = none
  pc : t.pc = s.pc + BitVec.ofNat 16 len
  fault : SameFault s t
  run : SameRun s t
  answers : t.answers = (runPrim p s).2.answers
  drawn : t.drawn = (runPrim p s).2.drawn
  device : t.device = (deviceEvent p s).device
  calls : t.trace.calls = ⟨p, (runPrim p s).1⟩ :: s.trace.calls
  regs : t.trace.regs = (runPrim p s).2.trace.regs

theorem finish_endsPrimitive (p : Prim) (fin : Finish) (rx : List Byte) (len : Nat) (s : State) :
    EndsPrimitive p len s (finish fin rx len (runPrim p s).2) := by
  have f := runPrim_frame p s
  obtain ⟨hpins, hphase, hbusy, hpc, ⟨herr, hcode, herrpc⟩, ⟨hhandle, hstream, hreq, hafter, hattached⟩, hanswers, hdrawn,
    hdevice, _, hcalls, hregs⟩ := finish_rest fin rx len (runPrim p s).2
  exact {
    pins := hpins
    phase := hphase.trans (runPrim_phase p s)
    busy := hbusy
    pc := by rw [hpc, f.pc]
    fault := ⟨herr.trans f.err, hcode.trans f.errcode, herrpc.trans f.errpc⟩
    run := ⟨hhandle.trans f.handle, hstream.trans f.stream, hreq.trans f.resetReq, hafter.trans f.resetAfter,
      hattached.trans f.attached⟩
    answers := hanswers
    drawn := hdrawn
    device := hdevice.trans (runPrim_device p s)
    calls := hcalls.trans (runPrim_calls p s)
    regs := hregs }

/-- A primitive that reads nothing draws what its one event draws, and returns nothing. -/
theorem runPrim_noRead {p : Prim} (h : (BusOp.prim p).reads = 0) (s : State) :
    (runPrim p s).1 = none ∧ (runPrim p s).2.answers = s.answers ∧ (runPrim p s).2.drawn = (deviceEvent p s).drawn := by
  cases p with
  | readBit | readByte => cases h
  | _ => simp [runPrim]

/-- A command that is one primitive which reads nothing and is no wait: it ends with it, and no result is written. -/
theorem exec_onePrimitive {i : Instr} {need : Phase} {p : Prim} {s : State}
    (hi : exec i s = busCommand need [.prim p] .nothing i.byteLength s) (hp : s.phase = need) (hw : p ≠ .waitForAck) :
    ∃ t, exec i s = .next t ∧ EndsPrimitive p i.byteLength s t ∧ SameResults s t ∧ t.trace.results = s.trace.results := by
  have f := runPrim_frame p s
  exact ⟨_, hi.trans (busCommand_prim hp hw .nothing i.byteLength), finish_endsPrimitive p .nothing _ _ s,
    ⟨f.res, f.buf, f.bufn, f.snap⟩, f.results⟩

/-- A command that is one primitive which reads a value: it ends with the value in `RES`. -/
theorem exec_oneRead {i : Instr} {p : Prim} {v : Byte} {s : State}
    (hi : exec i s = busCommand .active [.prim p] .toRes i.byteLength s) (hp : s.phase = .active) (hw : p ≠ .waitForAck)
    (hv : (runPrim p s).1 = some v) :
    ∃ t, exec i s = .next t ∧ EndsPrimitive p i.byteLength s t ∧ t.res = v.zext16 ∧ t.buf = s.buf ∧ t.bufn = s.bufn
      ∧ t.snap = s.snap ∧ t.trace.results = .res t.res :: s.trace.results := by
  have f := runPrim_frame p s
  have hrun := busCommand_prim hp hw .toRes i.byteLength
  rw [hv] at hrun
  exact ⟨_, hi.trans hrun, finish_endsPrimitive p .toRes _ _ s, rfl, f.buf, f.bufn, f.snap, congrArg _ f.results⟩

/-! ### Framing -/

/-- What `start(a)` makes of the reference device (R77). -/
theorem onStart_eq (a : Byte) (d : Device) :
    d.onStart a =
      { d with
        mode := if a = 0xD0#8 then .offset else if a = 0xD1#8 then .read else .deaf
        dack := decide (a = 0xD0#8 ∨ a = 0xD1#8) } := by
  unfold Device.onStart Config.devW Config.devR
  split_ifs <;> simp_all

/-- Settles O26: `Start` is an event that the reference device always models (`runPrim_modelled`). -/
theorem startOpensATransfer : Obligations.StartOpensATransfer := by
  unfold Obligations.StartOpensATransfer
  intro a s hp
  obtain ⟨t, hrun, e, hresults, htrace⟩ := exec_onePrimitive (i := .start a) (p := .start a) rfl hp (by simp)
  have r := runPrim_modelled (s := s) (p := .start a) (by simp) rfl
  have hdevice : t.device = s.device.onStart a := e.device.trans ((runPrim_device _ s).symm.trans r.device)
  exact ⟨t, hrun, e.pins.trans (runPrim_pins _ s), e.phase, e.busy, e.pc, hresults, e.fault, e.run,
    e.answers.trans r.answers, e.drawn.trans r.drawn, hdevice.trans (onStart_eq a s.device), e.calls, e.regs.trans r.regs,
    htrace⟩

/-- Settles O27: so is `Stop`. -/
theorem stopClosesATransfer : Obligations.StopClosesATransfer := by
  unfold Obligations.StopClosesATransfer
  intro s hp
  obtain ⟨t, hrun, e, hresults, htrace⟩ := exec_onePrimitive (i := .stop) (p := .stop) rfl hp (by simp)
  have r := runPrim_modelled (s := s) (p := .stop) (by simp) rfl
  have hdevice : t.device = s.device.onStop := e.device.trans ((runPrim_device _ s).symm.trans r.device)
  exact ⟨t, hrun, ⟨e.phase, e.pins.trans (runPrim_pins _ s), e.busy, e.pc, e.fault, e.run⟩, hresults,
    e.answers.trans r.answers, e.drawn.trans r.drawn, hdevice, e.calls, e.regs.trans r.regs, htrace⟩

/-! ### Bits, bytes and acknowledgements written -/

/-- A command of one primitive that reads nothing, waits for nothing and keeps the transfer open. -/
theorem runsPrimitive_of_exec {i : Instr} {p : Prim} {s : State} (hp : s.phase = .active)
    (hi : exec i s = busCommand .active [.prim p] .nothing i.byteLength s) (hw : p ≠ .waitForAck)
    (hr : (BusOp.prim p).reads = 0) (ha : p.endPhase .active = .active) :
    RunsPrimitive i p (runPrim p s).2.pins s := by
  obtain ⟨t, hrun, e, hresults, htrace⟩ := exec_onePrimitive hi hp hw
  obtain ⟨hret, hanswers, hdrawn⟩ := runPrim_noRead hr s
  have hbyte : p ≠ .readByte := by
    rintro rfl
    cases hr
  refine ⟨t, hrun, e.pins, ?_, e.busy, e.pc, hresults, e.fault, e.run, e.answers.trans hanswers, e.device,
    e.drawn.trans hdrawn, ?_, e.regs.trans (runPrim_regs hbyte s), htrace⟩
  · rw [e.phase, hp, ha]
  · rw [e.calls, hret]

/-- Settles O28: `runsPrimitive_of_exec` for each of the four, with the pins of `runPrim_pins`. -/
theorem pinCommandsInATransfer : Obligations.PinCommandsInATransfer := by
  unfold Obligations.PinCommandsInATransfer
  intro s hp
  refine ⟨fun f => ?_, fun a => ?_, ?_, ?_⟩
  · simpa only [runPrim_pins] using runsPrimitive_of_exec (i := .wbit f) (p := .writeBit f) hp rfl (by simp) rfl rfl
  · simpa only [runPrim_pins] using runsPrimitive_of_exec (i := .wbyte a) (p := .writeByte a) hp rfl (by simp) rfl rfl
  · simpa only [runPrim_pins] using runsPrimitive_of_exec (i := .sack) (p := .sendAck) hp rfl (by simp) rfl rfl
  · simpa only [runPrim_pins] using runsPrimitive_of_exec (i := .snack) (p := .sendNack) hp rfl (by simp) rfl rfl

/-! ### Bits and bytes read -/

theorem zext16_ofBit (b : Bit) : (Byte.ofBit b).zext16 = if b then 1#16 else 0#16 := by cases b <;> rfl

theorem ofBit_injective : Function.Injective Byte.ofBit :=
  Function.LeftInverse.injective (g := fun v : Byte => v.getLsbD 0) ofBit_bit

/-- A lone bit read returns the environment's next answer, where it stands in the state (R127). -/
theorem runPrim_readBit_answer {s : State} {b : Bit} {rest : List Bit} (h : s.answers = b :: rest) :
    (runPrim .readBit s).1 = some (Byte.ofBit b) ∧ (runPrim .readBit s).2.answers = rest := by
  have hread := lineReadBit_answer ((deviceEvent_answers .readBit s).trans h)
  simp [runPrim, hread]

/-- Settles O29: the sample is what `ReadBit` returns, and it is the answer by `runPrim_readBit_answer`. -/
theorem rbitReadsOneSample : Obligations.RbitReadsOneSample := by
  unfold Obligations.RbitReadsOneSample
  intro s hp
  obtain ⟨b, hb⟩ : ∃ b, (runPrim .readBit s).1 = some (Byte.ofBit b) := ⟨_, rfl⟩
  have hlost : deviceEvent .readBit s = loseDevice s := deviceEvent_none rfl
  obtain ⟨t, hrun, e, hres, hbuf, hbufn, hsnap, htrace⟩ := exec_oneRead (i := .rbit) (p := .readBit) rfl hp (by simp) hb
  refine ⟨t, b, hrun, hres.trans (zext16_ofBit b), e.pins.trans (runPrim_pins _ s), e.phase.trans hp, e.busy, e.pc, hbuf,
    hbufn, hsnap, e.fault, e.run, e.device, by rw [e.calls, hb]; rfl, ?_, htrace, ?_⟩
  · rw [e.regs, runPrim_regs (by simp), hlost, loseDevice_trace]
  · intro c rest h
    obtain ⟨hc, hrest⟩ := runPrim_readBit_answer h
    rw [hb] at hc
    exact ⟨ofBit_injective (Option.some.inj hc), e.answers.trans hrest⟩

/-- A byte read from the oracle returns its next eight answers (R129). -/
theorem runPrim_readByte_oracle {s : State} {rest : List Bit} (w : Byte) (ha : s.attached = false)
    (h : s.answers = msbBits w ++ rest) :
    (runPrim .readByte s).1 = some w ∧ (runPrim .readByte s).2.answers = rest := by
  have hfree : byteAnswer s = none := by simp [byteAnswer, ha]
  obtain ⟨hw, hrest, _⟩ := lineReadByte_answers w (deviceEvent .readByte s) rest ((deviceEvent_answers _ s).trans h)
  simp [runPrim, hfree, hw, hrest]

/-- In `D_READ` a byte read moves the pointer on (R79). -/
theorem deviceEvent_readByte {s : State} (h : s.device.mode = .read ∨ s.device.mode = .readOn) :
    deviceEvent .readByte s =
      logRegs [] { s with device := { s.device with ptr := s.device.ptr + 1#6, mode := .readOn } } := by
  apply deviceEvent_some
  obtain h | h := h <;> simp [Device.event, Device.onReadByte, h]

/-- Outside `D_READ` a byte read loses the reference device, and is no access of it (R79, R81). -/
theorem readByte_lost {s : State} (h : s.device.mode ≠ .read) (h' : s.device.mode ≠ .readOn) (v : Byte) :
    deviceEvent .readByte s = loseDevice s ∧ s.device.readTrace v = [] := by
  constructor
  · apply deviceEvent_none
    unfold Device.event Device.onReadByte
    split <;> simp_all
  · unfold Device.readTrace
    split <;> simp_all

/-- Settles O30: the byte is what `ReadByte` returns; the oracle's answers by `runPrim_readByte_oracle`, the reference device's
byte by `runPrim_readByte`, its one event by `deviceEvent_readByte` and `readByte_lost`. -/
theorem rbyteReadsEightSamples : Obligations.RbyteReadsEightSamples := by
  unfold Obligations.RbyteReadsEightSamples
  intro s hp
  obtain ⟨v, hv⟩ : ∃ v, (runPrim .readByte s).1 = some v := ⟨_, rfl⟩
  obtain ⟨t, hrun, e, hres, hbuf, hbufn, hsnap, htrace⟩ := exec_oneRead (i := .rbyte) (p := .readByte) rfl hp (by simp) hv
  have hregs : t.trace.regs = s.device.readTrace v ++ (deviceEvent .readByte s).trace.regs :=
    e.regs.trans (runPrim_readByte_regs hv)
  refine ⟨t, v, hrun, hres, e.pins.trans (runPrim_pins _ s), e.phase.trans hp, e.busy, e.pc, hbuf, hbufn, hsnap, e.fault,
    e.run, e.device, by rw [e.calls, hv], htrace, ?_, ?_, ?_⟩
  · intro w rest ha h
    obtain ⟨hw, hrest⟩ := runPrim_readByte_oracle w ha h
    exact ⟨Option.some.inj (hv.symm.trans hw), e.answers.trans hrest⟩
  · intro hread hreadOn
    obtain ⟨hlost, hnone⟩ := readByte_lost hread hreadOn v
    rw [hnone, hlost] at hregs
    exact ⟨by rw [e.device, hlost, loseDevice_mode], hregs⟩
  · intro hmode
    have hevent := deviceEvent_readByte hmode
    have hrd : s.device.readTrace v = [.rd s.device.ptr v] := by
      obtain h | h := hmode <;> simp [Device.readTrace, h]
    rw [hrd, hevent] at hregs
    refine ⟨by rw [e.device, hevent]; rfl, hregs, fun ha => ?_⟩
    obtain ⟨hcell, hran⟩ := runPrim_readByte (rest := s.answers) ha hmode (fun _ => rfl) rfl
    exact ⟨Option.some.inj (hv.symm.trans hcell), e.answers.trans hran.answers⟩

/-! ### WACK -/

/-- What a `waitForAck` does to the reference device: nothing, unless a byte has been read out or nothing is promised (R78). -/
theorem deviceEvent_wait_kept {s : State} (hf : s.device.mode ≠ .free) (hr : s.device.mode ≠ .readOn) :
    deviceEvent .waitForAck s = s := by
  apply deviceEvent_some (d := s.device) (es := [])
  unfold Device.event Device.onWaitForAck
  split <;> simp_all

/-- After a byte read, and where it already is lost, a `waitForAck` loses it (U5, R81). -/
theorem deviceEvent_wait_lost {s : State} (h : s.device.mode = .free ∨ s.device.mode = .readOn) :
    deviceEvent .waitForAck s = loseDevice s := by
  apply deviceEvent_none
  obtain h | h := h <;> simp [Device.event, Device.onWaitForAck, h]

/-- `t` is where WACK comes to with the first sample `b` of its wait, after which the answers `rest` are still to come: a 0 ends
the command, a 1 holds it up. -/
structure WackSampled (b : Bit) (rest : List Bit) (s t : State) : Prop where
  pins : t.pins = ⟨b, .input, s.pins.sda⟩
  phase : t.phase = s.phase
  ended : b = false → t.pc = s.pc + 1#16 ∧ t.busy = none
  held : b = true → t.pc = s.pc ∧ t.busy = some ⟨[], [], .nothing, 1⟩
  results : SameResults s t
  fault : SameFault s t
  run : SameRun s t
  answers : t.answers = rest
  device : t.device = (deviceEvent .waitForAck s).device
  drawn : t.drawn = (deviceEvent .waitForAck s).drawn
  calls : t.trace.calls = called .waitForAck :: s.trace.calls
  regs : t.trace.regs = s.trace.regs
  resultTrace : t.trace.results = s.trace.results

theorem deviceEvent_wait_regs (s : State) : (deviceEvent .waitForAck s).trace.regs = s.trace.regs := by
  by_cases h : s.device.mode = .free ∨ s.device.mode = .readOn
  · rw [deviceEvent_wait_lost h, loseDevice_trace]
  · obtain ⟨hf, hr⟩ := not_or.mp h
    rw [deviceEvent_wait_kept hf hr]

/-- WACK goes by the first sample of its wait, with the answers `rest` to come after it (R132, R144). -/
theorem exec_wack {s : State} {b : Bit} {rest : List Bit} (hp : s.phase = .active)
    (h : sampleAck (runPrim .waitForAck s).2 = (b, { (runPrim .waitForAck s).2 with answers := rest })) :
    ∃ t, exec .wack s = .next t ∧ WackSampled b rest s t := by
  have hrun : exec .wack s = .next (runOps [.prim .waitForAck] [] .nothing 1 s) := busCommand_run hp _ _ _
  have f := runPrim_frame .waitForAck s
  have hphase : (runPrim .waitForAck s).2.phase = s.phase := runPrim_phase .waitForAck s
  have hpins : (runPrim .waitForAck s).2.pins = ⟨true, .input, s.pins.sda⟩ := runPrim_pins .waitForAck s
  obtain ⟨_, _, hdrawn⟩ := runPrim_noRead (p := .waitForAck) rfl s
  have hregs : (runPrim .waitForAck s).2.trace.regs = s.trace.regs :=
    (runPrim_regs (by simp) s).trans (deviceEvent_wait_regs s)
  cases b with
  | false =>
    rw [runOps_wait_go _ _ _ _ (by rw [h]), h, runOps_nil, finish_nothing] at hrun
    exact ⟨_, hrun, {
      pins := by simp [hpins]
      phase := hphase
      ended := fun _ => ⟨congrArg (· + 1#16) f.pc, rfl⟩
      held := fun hb => Bool.noConfusion hb
      results := ⟨f.res, f.buf, f.bufn, f.snap⟩
      fault := ⟨f.err, f.errcode, f.errpc⟩
      run := ⟨f.handle, f.stream, f.resetReq, f.resetAfter, f.attached⟩
      answers := rfl
      device := runPrim_device .waitForAck s
      drawn := hdrawn
      calls := (recordPins_calls _ _).trans (runPrim_calls .waitForAck s)
      regs := (recordPins_regs _ _).trans hregs
      resultTrace := (recordPins_results _ _).trans f.results }⟩
  | true =>
    rw [runOps_wait_held _ _ _ _ (by rw [h]), h] at hrun
    exact ⟨_, hrun, {
      pins := hpins
      phase := hphase
      ended := fun hb => Bool.noConfusion hb
      held := fun _ => ⟨f.pc, rfl⟩
      results := ⟨f.res, f.buf, f.bufn, f.snap⟩
      fault := ⟨f.err, f.errcode, f.errpc⟩
      run := ⟨f.handle, f.stream, f.resetReq, f.resetAfter, f.attached⟩
      answers := rfl
      device := runPrim_device .waitForAck s
      drawn := hdrawn
      calls := runPrim_calls .waitForAck s
      regs := hregs
      resultTrace := f.results }⟩

theorem WackSampled.device_kept {b : Bit} {rest : List Bit} {s t : State} (h : WackSampled b rest s t)
    (hf : s.device.mode ≠ .free) (hr : s.device.mode ≠ .readOn) : t.device = s.device ∧ t.drawn = s.drawn := by
  rw [h.device, h.drawn, deviceEvent_wait_kept hf hr]
  exact ⟨rfl, rfl⟩

theorem WackSampled.device_lost {b : Bit} {rest : List Bit} {s t : State} (h : WackSampled b rest s t)
    (hm : s.device.mode = .free ∨ s.device.mode = .readOn) : t.device.mode = .free := by
  rw [h.device, deviceEvent_wait_lost hm, loseDevice_mode]

/-- The reference device, if it answers, answers a wait with the complement of `DACK` (R78). -/
theorem sampleAck_attached {s : State} (hin : s.pins.dir = .input) (ha : s.attached = true) (hf : s.device.mode ≠ .free)
    (hr : s.device.mode ≠ .readOn) : sampleAck s = (!s.device.dack, s) := by
  have hack : ackAnswer s = some (!s.device.dack) := by
    rw [ackAnswer, if_pos ha]
    unfold Device.ackAnswer
    split <;> simp_all
  rw [sampleAck, hack, sampleSDA_fixed _ hin]

/-- What the environment's first answer to a WACK is, the oracle's or the reference device's (R73, R78). -/
theorem sampleAck_wack {s : State} (b : Bit)
    (h : (s.attached = false ∧ s.answers.head? = some b)
      ∨ (s.attached = true ∧ s.device.mode ≠ .free ∧ s.device.mode ≠ .readOn ∧ s.device.dack = !b)) :
    sampleAck (runPrim .waitForAck s).2 =
      (b, { (runPrim .waitForAck s).2 with answers := if s.attached then s.answers else s.answers.tail }) := by
  have hin : (runPrim .waitForAck s).2.pins.dir = .input := by rw [runPrim_pins]
  have hat := (runPrim_frame .waitForAck s).attached
  obtain ⟨_, hans, _⟩ := runPrim_noRead (p := .waitForAck) rfl s
  obtain ⟨ha, hhead⟩ | ⟨ha, hf, hr, hd⟩ := h
  · obtain ⟨rest, hrest⟩ := List.head?_eq_some_iff.mp hhead
    rw [sampleAck_oracle hin (hat.trans ha) (hans.trans hrest), ha, hrest]
    rfl
  · have hdev : (runPrim .waitForAck s).2.device = s.device := by rw [runPrim_device, deviceEvent_wait_kept hf hr]
    rw [sampleAck_attached hin (hat.trans ha) (by rwa [hdev]) (by rwa [hdev]), hdev, hd, Bool.not_not, if_pos ha, ← hans]

/-- After a byte has been read out the first answer to a WACK is free, whoever answers (U5). -/
theorem sampleAck_wack_readOn {s : State} {b : Bit} {rest : List Bit} (hm : s.device.mode = .readOn)
    (h : s.answers = b :: rest) :
    sampleAck (runPrim .waitForAck s).2 = (b, { (runPrim .waitForAck s).2 with answers := rest }) := by
  have hin : (runPrim .waitForAck s).2.pins.dir = .input := by rw [runPrim_pins]
  obtain ⟨_, hans, _⟩ := runPrim_noRead (p := .waitForAck) rfl s
  have hlost : (runPrim .waitForAck s).2.device.mode = .free := by
    rw [runPrim_device, deviceEvent_wait_lost (.inr hm), loseDevice_mode]
  have hack : ackAnswer (runPrim .waitForAck s).2 = none := by simp [ackAnswer, Device.ackAnswer, hlost]
  rw [sampleAck, hack, sampleSDA_free hin, freeSample_cons (hans.trans h)]

/-- Settles O31: a first sample of 0 by `sampleAck_wack`, a free one after a byte read by `sampleAck_wack_readOn`. -/
theorem wackEndsOnAZero : Obligations.WackEndsOnAZero := by
  unfold Obligations.WackEndsOnAZero
  intro s hp
  constructor
  · intro h
    obtain ⟨t, hrun, w⟩ := exec_wack hp (sampleAck_wack false h)
    obtain ⟨hpc, hbusy⟩ := w.ended rfl
    exact ⟨t, hrun, w.pins, w.phase.trans hp, hbusy, hpc, w.results, w.fault, w.run, w.device_kept, w.device_lost, w.answers,
      w.calls, w.regs, w.resultTrace⟩
  · intro b rest hm h
    obtain ⟨t, hrun, w⟩ := exec_wack hp (sampleAck_wack_readOn hm h)
    refine ⟨t, hrun, w.device_lost (.inr hm), w.answers, w.phase.trans hp, w.pins, w.results, w.fault, w.run, ?_⟩
    cases b with
    | false => exact w.ended rfl
    | true =>
      obtain ⟨hpc, hbusy⟩ := w.held rfl
      exact ⟨hpc, _, hbusy⟩

/-- Settles O32: a first sample of 1 by `sampleAck_wack`. -/
theorem wackHoldsOnAOne : Obligations.WackHoldsOnAOne := by
  unfold Obligations.WackHoldsOnAOne
  intro s hp h
  obtain ⟨t, hrun, w⟩ := exec_wack hp (sampleAck_wack true h)
  obtain ⟨hpc, hbusy⟩ := w.held rfl
  exact ⟨t, _, hrun, hbusy, rfl, w.pins, w.phase.trans hp, hpc, w.results, w.fault, w.run, w.device_kept, w.device_lost,
    w.answers⟩

/-! ### A wait of several samples -/

/-- A WACK held up ends with a 0 of the oracle (R132). -/
theorem step_wack_ends {s : State} {rest : List Bit} (hr : s.Ready) (he : s.err = false)
    (hb : s.busy = some ⟨[], [], .nothing, 1⟩) (hin : s.pins.dir = .input) (ha : s.attached = false)
    (h : s.answers = false :: rest) :
    step s = .next (advance 1 (setSCL false { s with answers := rest, busy := none })) := by
  have hs := sampleAck_oracle hin ha h
  rw [step_held hr he hb, resume_go (by rw [hs]), hs]
  rfl

/-- Settles O33: the first step is the first sample; where it is a 1, `run_ones` takes the others and `step_wack_ends` the 0. -/
theorem waitTakesEverySample : Obligations.WaitTakesEverySample := by
  unfold Obligations.WaitTakesEverySample
  intro k s more rest hb hp ha hd hans
  have hfirst := step_decoded hb hd
  obtain ⟨⟨hpinsNe, hlen, hreq⟩, he, _⟩ := hb
  cases k with
  | zero =>
    obtain ⟨t, hrun, w⟩ := exec_wack hp (sampleAck_wack false (.inl ⟨ha, by simp [hans]⟩))
    obtain ⟨hpc, hbusy⟩ := w.ended rfl
    refine ⟨t, run_succ (hfirst.trans hrun), hbusy, hpc, ?_, w.pins, w.results, w.fault⟩
    rw [w.answers, ha, hans]
    rfl
  | succ n =>
    obtain ⟨t, hrun, w⟩ := exec_wack hp (sampleAck_wack true (.inl ⟨ha, by simp [hans, List.replicate_succ]⟩))
    obtain ⟨hpc, hbusy⟩ := w.held rfl
    obtain ⟨hhandle, hstream, hreset, _, hattached⟩ := w.run
    obtain ⟨herr, _, _⟩ := w.fault
    have hready : t.Ready := ⟨by rwa [hhandle], by rwa [hstream], hreset.trans hreq⟩
    have hin : t.pins.dir = .input := by rw [w.pins]
    have htans : t.answers = List.replicate n true ++ false :: rest := by
      rw [w.answers, ha, hans]
      rfl
    have hones := run_ones n hready (herr.trans he) hbusy hin (hattached.trans ha) htans
    have hlast := step_wack_ends (s := { t with answers := false :: rest }) hready (herr.trans he) hbusy hin
      (hattached.trans ha) rfl
    have hall : Host.Core.run core (n + 1 + 1) s = _ :=
      (run_succ (hfirst.trans hrun)).trans ((run_add hones).trans (run_succ hlast))
    refine ⟨_, hall, rfl, ?_, rfl, ?_, w.results, w.fault⟩
    · exact congrArg (· + 1#16) hpc
    · show Pins.mk false t.pins.dir t.pins.sda = _
      rw [w.pins]

end Sys2Proof.Machine

/-! The commands that are transfer patterns (R150 to R159): what they come to on an idle bus, which calls they make and, where
their waits end at once, what they leave in the result registers and in the reference device. -/

namespace Sys2Proof.Machine

/-! ### What the end of a command has written -/

/-- The result registers and the result trace of `t` are those of `s` with the result of the bytes `rx` written (R201). -/
def Wrote (fin : Finish) (rx : List Byte) (s t : State) : Prop :=
  SameResults (writeResult fin rx s) t ∧ t.trace.results = (writeResult fin rx s).trace.results

theorem finish_wrote (fin : Finish) (rx : List Byte) (len : Nat) {s u : State} (f : BusFrame s u) :
    Wrote fin rx s (finish fin rx len u) := by
  cases fin <;> simp [Wrote, SameResults, finish, writeResult, f.res, f.buf, f.bufn, f.snap, f.results]

theorem Wrote.toRes {v : Byte} {s t : State} (h : Wrote .toRes [v] s t) :
    t.res = v.zext16 ∧ t.buf = s.buf ∧ t.bufn = s.bufn ∧ t.snap = s.snap
      ∧ t.trace.results = .res t.res :: s.trace.results := by
  obtain ⟨⟨hres, hbuf, hbufn, hsnap⟩, htrace⟩ := h
  exact ⟨hres, hbuf, hbufn, hsnap, by rw [htrace, hres]; rfl⟩

theorem Wrote.toBuf {d : List Byte} {s t : State} (h : Wrote .toBuf d s t) (hd : d.length ≤ 56) :
    t.buf = d ++ s.buf.drop d.length ∧ t.bufn.toNat = d.length ∧ t.res = s.res ∧ t.snap = s.snap
      ∧ t.trace.results = .buf d :: s.trace.results := by
  obtain ⟨⟨hres, hbuf, hbufn, hsnap⟩, htrace⟩ := h
  have hcount : (BitVec.ofNat 6 d.length).toNat = d.length := by
    rw [BitVec.toNat_ofNat]
    exact Nat.mod_eq_of_lt (by omega)
  exact ⟨hbuf, by rw [hbufn]; exact hcount, hres, hsnap, htrace⟩

/-! ### A command completes or is held up (R155) -/

/-- A wait holds up, in `t`, a command begun in `s`: nothing but the bus has changed, the lines are those of R155 (d), and what is
still to run keeps the phase preconditions. -/
structure HeldUp (fin : Finish) (len : Nat) (s t : State) (j : Job) : Prop where
  frame : BusFrame { s with busy := some j } t
  phase : t.phase = .active
  scl : t.pins.scl = true
  dir : t.pins.dir = .input
  fin : j.fin = fin
  len : j.len = len
  legal : legalFrom .active j.todo = true

/-- The run of a command has ended in `t`, or a wait holds it up. -/
def EndedOrHeld (fin : Finish) (len : Nat) (s t : State) : Prop := t.busy = none ∨ ∃ j, HeldUp fin len s t j

theorem legalFrom_wait {ph : Phase} {rest : List BusOp} (h : legalFrom ph (.prim .waitForAck :: rest) = true) :
    ph = .active ∧ legalFrom .active rest = true := by
  cases ph with
  | idle => cases h
  | active => exact ⟨rfl, h⟩

theorem legalFrom_prim {op : BusOp} {rest : List BusOp} {s : State} (rx : List Byte)
    (h : legalFrom s.phase (op :: rest) = true) : legalFrom (runPrim (op.resolve rx) s).2.phase rest = true := by
  obtain ⟨ph, hop, hrest⟩ := legalFrom_cons h
  rw [phaseAfter_resolve op rx] at hop
  rw [runPrim_phase, ← Prim.phaseAfter_eq hop]
  exact hrest

/-- A run of a sequence that keeps the phase preconditions ends, or is held up in an open transfer. -/
theorem runOps_endedOrHeld {ops : List BusOp} {s : State} (rx : List Byte) (fin : Finish) (len : Nat)
    (h : legalFrom s.phase ops = true) : EndedOrHeld fin len s (runOps ops rx fin len s) := by
  refine runOps_rule (P := fun todo _ u => BusFrame s u ∧ legalFrom u.phase todo = true) (Q := EndedOrHeld fin len s)
    ?_ ?_ ?_ ?_ ops rx s ⟨.refl s, h⟩
  · rintro op rest rx u ⟨f, hlegal⟩ _
    exact ⟨f.trans (runPrim_frame _ u), legalFrom_prim rx hlegal⟩
  · rintro rest rx u ⟨f, hlegal⟩ _
    obtain ⟨hactive, hrest⟩ := legalFrom_wait hlegal
    refine ⟨(f.trans (runPrim_frame _ u)).trans ((sampleAck_frame _).trans (setSCL_frame _ _)).bus, ?_⟩
    rw [setSCL_phase, sampledWait_phase, hactive]
    exact hrest
  · rintro rest rx u ⟨f, hlegal⟩ _
    obtain ⟨hactive, hrest⟩ := legalFrom_wait hlegal
    have g := (f.trans (runPrim_frame .waitForAck u)).trans (sampleAck_frame _).bus
    refine .inr ⟨⟨rest, rx, fin, len⟩, ?_, (sampledWait_phase u).trans hactive, ?_, ?_, rfl, rfl, hrest⟩
    · exact { g with busy := rfl }
    · show (sampleAck (runPrim .waitForAck u).2).2.pins.scl = true
      rw [sampleAck_pins, runPrim_pins]
    · show (sampleAck (runPrim .waitForAck u).2).2.pins.dir = .input
      rw [sampleAck_pins, runPrim_pins]
  · intro rx u _
    obtain ⟨_, _, hbusy, _⟩ := finish_rest fin rx len u
    exact .inl hbusy

/-- One more sample of a command held up: it stays held up, or its rest is run. -/
theorem HeldUp.resume {fin : Finish} {len : Nat} {s t : State} {j : Job} (h : HeldUp fin len s t j) :
    EndedOrHeld fin len s (resume j t) := by
  have f := sampleAck_frame t
  cases hs : (sampleAck t).1 with
  | true =>
    rw [resume_held hs]
    exact .inr ⟨j, h.frame.trans f.bus, f.phase.trans h.phase, by rw [sampleAck_pins, h.scl], by rw [sampleAck_pins, h.dir],
      h.fin, h.len, h.legal⟩
  | false =>
    rw [resume_go hs]
    have hphase : (setSCL false { (sampleAck t).2 with busy := none }).phase = .active := f.phase.trans h.phase
    have hlegal := h.legal
    rw [← hphase] at hlegal
    obtain hend | ⟨k, hk⟩ := runOps_endedOrHeld j.rx j.fin j.len hlegal
    · exact .inl hend
    · have g : BusFrame { s with busy := some k } { setSCL false { (sampleAck t).2 with busy := none } with busy := some k } :=
        { h.frame.trans (f.trans (setSCL_frame false _)).bus with busy := rfl }
      exact .inr ⟨k, g.trans hk.frame, hk.phase, hk.scl, hk.dir, hk.fin.trans h.fin, hk.len.trans h.len, hk.legal⟩

theorem goOn_endedOrHeld {fin : Finish} {len : Nat} {s : State} (n : Nat) {t : State} (h : EndedOrHeld fin len s t) :
    EndedOrHeld fin len s (goOn n t) := by
  induction n generalizing t with
  | zero => exact h
  | succ n ih =>
    obtain hend | ⟨j, hj⟩ := h
    · rw [goOn_none hend]
      exact .inl hend
    · rw [goOn_some hj.frame.busy]
      exact ih hj.resume

/-- Settles O19: where the command has ended, by `Completes.idle`; where it has not, a wait holds it up (`goOn_endedOrHeld`). -/
theorem busCommandsCompleteOrHang : Obligations.BusCommandsCompleteOrHang := by
  unfold Obligations.BusCommandsCompleteOrHang
  intro i s u t n hw hn hs hp h hgo
  obtain ⟨ops, he, halong⟩ := exec_idle_shape i s hw hn hs
  have hrun := h
  rw [he, busCommand_run hp] at hrun
  cases hrun
  have hlegal := legalFrom_of_phaseAlong halong
  rw [← hp] at hlegal
  have hheld := goOn_endedOrHeld n (runOps_endedOrHeld [] (resultOf i) i.byteLength hlegal)
  rw [hgo] at hheld
  obtain hend | ⟨j, k⟩ := hheld
  · exact .inl (Completes.idle ⟨_, n, h, hgo, hend⟩ hw hn hs hp)
  · have f := k.frame
    exact .inr ⟨⟨f.res, f.buf, f.bufn, f.snap⟩, ⟨f.err, f.errcode, f.errpc⟩,
      ⟨f.handle, f.stream, f.resetReq, f.resetAfter, f.attached⟩, f.pc, k.phase, k.scl, k.dir, j, f.busy, k.len, k.fin,
      f.results⟩

/-! ### The calls of a completed pattern (R150 to R153) -/

/-- A command that is one burst read and completes has written the result of the bytes that its calls read. -/
theorem Completes.burstRead {i : Instr} {off : Byte} {n len : Nat} {fin : Finish} {s t : State} (h : Completes i s t)
    (hp : s.phase = .idle) (he : exec i s = busCommand .idle (burstRead off n) fin len s) :
    ∃ d, d.length = n ∧ Wrote fin d s t ∧ t.trace.calls = (burstReadCalls off d).reverse ++ s.trace.calls := by
  obtain ⟨u, rx, cs, tr, f, rfl, hcalls⟩ := h.transcript hp he
  obtain ⟨d, cs', hd, rfl, tr'⟩ := Transcript.burstRead_inv (rest := []) (by rwa [List.append_nil])
  obtain ⟨rfl, rfl⟩ := tr'.nil_inv
  exact ⟨rx, hd, finish_wrote fin rx len f, by rw [hcalls, List.append_nil]⟩

/-- A command that is one burst write and completes has made the calls of that burst and written no result. -/
theorem Completes.burstWrite {i : Instr} {off : Byte} {d : List Byte} {len : Nat} {s t : State} (h : Completes i s t)
    (hp : s.phase = .idle) (he : exec i s = busCommand .idle (burstWrite off d) .nothing len s) :
    SameResults s t ∧ t.trace.results = s.trace.results
      ∧ t.trace.calls = (burstWriteCalls off d).reverse ++ s.trace.calls := by
  obtain ⟨u, rx, cs, tr, f, rfl, hcalls⟩ := h.transcript hp he
  obtain ⟨cs', rfl, tr'⟩ := Transcript.burstWrite_inv (rest := []) (by rwa [List.append_nil])
  obtain ⟨_, rfl⟩ := tr'.nil_inv
  obtain ⟨hresults, htrace⟩ : Wrote .nothing rx s _ := finish_wrote .nothing rx len f
  exact ⟨hresults, htrace, by rw [hcalls, List.append_nil]⟩

/-- Settles O37: the bursts of one byte (R154). -/
theorem singleRegisterCallSequences : Obligations.SingleRegisterCallSequences := by
  unfold Obligations.SingleRegisterCallSequences
  intro off s t hp
  constructor
  · intro h
    obtain ⟨d, hd, hwrote, hcalls⟩ := h.burstRead hp (fin := .toRes) rfl
    obtain ⟨v, rfl⟩ := List.length_eq_one_iff.mp hd
    obtain ⟨hres, hbuf, hbufn, hsnap, htrace⟩ := hwrote.toRes
    exact ⟨h.idle rfl rfl nofun hp, v, hres, hbuf, hbufn, hsnap, htrace, hcalls⟩
  · intro v h
    obtain ⟨hresults, htrace, hcalls⟩ := h.burstWrite hp (d := [v]) rfl
    exact ⟨h.idle rfl rfl nofun hp, hresults, htrace, hcalls⟩

/-- Settles O38: the calls of a completed burst, and its result. -/
theorem burstCallSequences : Obligations.BurstCallSequences := by
  unfold Obligations.BurstCallSequences
  intro off s t hp
  constructor
  · intro n h1 h56 h
    have hok : burstLengthOk n := ⟨h1, h56⟩
    obtain ⟨d, rfl, hwrote, hcalls⟩ := h.burstRead hp (if_pos hok)
    obtain ⟨hbuf, hbufn, hres, hsnap, htrace⟩ := hwrote.toBuf h56
    exact ⟨h.idle (decide_eq_true hok) rfl nofun hp, d, rfl, hbuf, hbufn, hres, hsnap, htrace, hcalls⟩
  · intro d h1 h56 h
    have hok : burstLengthOk d.length := ⟨h1, h56⟩
    obtain ⟨hresults, htrace, hcalls⟩ := h.burstWrite hp (if_pos hok)
    exact ⟨h.idle (decide_eq_true hok) rfl nofun hp, hresults, htrace, hcalls⟩

/-! ### A pattern whose waits end at once -/

/-- The command performs a transfer from an idle bus to an idle bus: it needs an idle bus and is not START. -/
def Transfers (i : Instr) : Prop := i.WellFormed ∧ phaseNeeded i = some .idle ∧ ∀ a, i ≠ .start a

/-- The command `i` runs from `s` to its end in `t` with no wait that holds it up: with the bytes `rx` read, the reference device
`d`, the new entries `es` of the register trace (newest first) and the answers still to come. -/
structure RunsThrough (i : Instr) (fin : Finish) (rx : List Byte) (d : Device) (es : List RegEvent) (answers : List Bit)
    (s t : State) : Prop where
  exec : exec i s = .next t
  idle : CompletedIdle i.byteLength s t
  wrote : Wrote fin rx s t
  device : t.device = d
  regs : t.trace.regs = es ++ s.trace.regs
  answers : t.answers = answers
  drawn : t.drawn = s.drawn

theorem runsThrough_of_chain {i : Instr} {ops : List BusOp} {fin : Finish} {rx : List Byte} {d : Device} {es : List RegEvent}
    {answers : List Bit} {s u : State} (hi : Transfers i) (hp : s.phase = .idle)
    (he : exec i s = busCommand .idle ops fin i.byteLength s) (c : Chain ops [] s rx u) (r : Ran s .idle d es answers u) :
    RunsThrough i fin rx d es answers s (finish fin rx i.byteLength u) := by
  obtain ⟨hw, hn, hs⟩ := hi
  obtain ⟨_, _, hbusy, _, _, _, hanswers, hdrawn, hdevice, _, _, hregs⟩ := finish_rest fin rx i.byteLength u
  have hrun : exec i s = .next (finish fin rx i.byteLength u) := by rw [he, busCommand_run hp, c.finish]
  exact {
    exec := hrun
    idle := Completes.idle ⟨_, 0, hrun, rfl, hbusy⟩ hw hn hs hp
    wrote := finish_wrote fin rx i.byteLength r.frame
    device := hdevice.trans r.device
    regs := hregs.trans r.regs
    answers := hanswers.trans r.answers
    drawn := hdrawn.trans r.drawn }

/-- A command that is one burst read of the bytes `d`: from a device that answers these are its registers from the offset on. -/
theorem runsThrough_burstRead {i : Instr} {fin : Finish} {d : List Byte} {a : Bool} {rest : List Bit} {s : State}
    (off : BitVec 6) (hd : 1 ≤ d.length) (hi : Transfers i) (hp : s.phase = .idle) (ha : s.attached = a)
    (he : exec i s = busCommand .idle (burstRead (offsetByte off) d.length) fin i.byteLength s)
    (hregs : a = true → d = Device.readAll d.length { s.device with ptr := off })
    (h : s.answers = acks a 3 ++ (sent a d ++ rest)) :
    ∃ t, RunsThrough i fin d { s.device with ptr := off + BitVec.ofNat 6 d.length, mode := .idle, dack := false }
      (readEvents d off) rest s t := by
  cases d with
  | nil => cases hd
  | cons v vs =>
    obtain ⟨u, c, r⟩ := chain_burstRead off v vs [] ha hregs h
    exact ⟨_, runsThrough_of_chain hi hp he c r⟩

/-- A command that is one burst write of the bytes `d`. -/
theorem runsThrough_burstWrite {i : Instr} {d : List Byte} {a : Bool} {rest : List Bit} {s : State}
    (off : BitVec 6) (hi : Transfers i) (hp : s.phase = .idle) (ha : s.attached = a)
    (he : exec i s = busCommand .idle (burstWrite (offsetByte off) d) .nothing i.byteLength s)
    (h : s.answers = acks a (2 + d.length) ++ rest) :
    ∃ t, RunsThrough i .nothing [] { Device.storeAll d { s.device with ptr := off, mode := .wdata, dack := true } with
      mode := .idle, dack := false } (storeEvents d off) rest s t := by
  obtain ⟨u, c, r⟩ := chain_burstWrite off d [] ha h
  exact ⟨_, runsThrough_of_chain hi hp he c r⟩

/-! ### The single registers on the bench -/

/-- Settles O44: a burst read of one byte, from a device that answers. -/
theorem rdregOnTheBench : Obligations.RdregOnTheBench := by
  unfold Obligations.RdregOnTheBench
  intro off s hs
  obtain ⟨hattached, _, hp, _⟩ := hs
  obtain ⟨t, r⟩ := runsThrough_burstRead (i := .rdreg off) (d := [s.dev off.toNat]) (fin := .toRes) off le_rfl
    ⟨rfl, rfl, nofun⟩ hp hattached rfl (fun _ => rfl) rfl
  obtain ⟨hres, hbuf, hbufn, hsnap, htrace⟩ := r.wrote.toRes
  exact ⟨t, r.exec, hres, hbuf, hbufn, hsnap, r.idle, r.device, r.answers, r.drawn, r.regs, htrace⟩

/-- Settles O45: a burst write of one byte, to a device that answers. -/
theorem wrregOnTheBench : Obligations.WrregOnTheBench := by
  unfold Obligations.WrregOnTheBench
  intro off v s hs
  obtain ⟨hattached, _, hp, hw⟩ := hs
  obtain ⟨t, r⟩ := runsThrough_burstWrite (i := .wrreg off v) (d := [v]) off ⟨rfl, rfl, nofun⟩ hp hattached rfl rfl
  obtain ⟨hresults, htrace⟩ := r.wrote
  refine ⟨t, r.exec, r.idle, hresults, ⟨r.answers, r.drawn, ?_, ?_⟩, fun a => ?_, ?_, r.regs, htrace⟩
  · rw [r.device]
  · rw [r.device]
  · rw [State.dev, r.device]
    exact (congrFun (read_write hw off.toNat v) a).trans (Function.update_apply _ _ _ _)
  · rw [r.device]
    rfl

/-! ### Bursts -/

/-- BRD of as many bytes as `d` has, in an environment that sends `d` and ends the three waits at once. -/
theorem runsThrough_brd {d : List Byte} {a : Bool} {rest : List Bit} {s : State} (off : BitVec 6) (hd : burstLengthOk d.length)
    (hp : s.phase = .idle) (ha : s.attached = a)
    (hregs : a = true → d = Device.readAll d.length { s.device with ptr := off })
    (h : s.answers = acks a 3 ++ (sent a d ++ rest)) :
    ∃ t, RunsThrough (.brd off d.length) .toBuf d
      { s.device with ptr := off + BitVec.ofNat 6 d.length, mode := .idle, dack := false } (readEvents d off) rest s t :=
  runsThrough_burstRead off hd.1 ⟨decide_eq_true hd, rfl, nofun⟩ hp ha (if_pos hd) hregs h

/-- Settles O41: the oracle sends `d`. -/
theorem burstReadFromTheOracle : Obligations.BurstReadFromTheOracle := by
  unfold Obligations.BurstReadFromTheOracle
  intro off d rest s h1 h56 hp ha h
  rw [List.append_assoc] at h
  obtain ⟨t, r⟩ := runsThrough_brd off ⟨h1, h56⟩ hp ha nofun h
  obtain ⟨hbuf, hbufn, hres, hsnap, htrace⟩ := r.wrote.toBuf h56
  exact ⟨t, r.exec, r.idle, hbuf, hbufn, hres, hsnap, r.answers, r.drawn, r.device, by rw [r.regs, readEvents_eq], htrace⟩

/-- Settles O46: the reference device sends its registers from the offset on. -/
theorem brdOnTheBench : Obligations.BrdOnTheBench := by
  unfold Obligations.BrdOnTheBench
  intro off n d s h1 h56 hs hd
  obtain ⟨hattached, _, hp, _⟩ := hs
  have hall : d = Device.readAll n { s.device with ptr := off } := by
    rw [hd, readAll_eq]
    rfl
  have hlen : d.length = n := by rw [hall, readAll_length]
  subst hlen
  obtain ⟨t, r⟩ := runsThrough_brd off ⟨h1, h56⟩ hp hattached (fun _ => hall) rfl
  obtain ⟨hbuf, hbufn, hres, hsnap, htrace⟩ := r.wrote.toBuf h56
  refine ⟨t, r.exec, hbuf, hbufn, hres, hsnap, r.idle, r.device, r.answers, r.drawn, ?_, htrace⟩
  rw [r.regs, hall, readEvents_readAll d.length { s.device with ptr := off }, readAll_length]
  rfl

/-- What a burst write of `d` at `off` leaves of the environment and in the reference device's registers, and the accesses it
adds to the register trace. -/
structure StoredFrom (off : BitVec 6) (d : List Byte) (s t : State) : Prop where
  stored : Memory.wf s.device.regs = true → ∀ i (h : i < d.length), t.dev (off + BitVec.ofNat 6 i).toNat = d[i]
  others : ∀ a, (∀ i < d.length, (off + BitVec.ofNat 6 i).toNat ≠ a) → t.dev a = s.dev a
  ptr : t.device.ptr = off + BitVec.ofNat 6 d.length
  mode : t.device.mode = .idle
  dack : t.device.dack = false
  drawn : t.drawn = s.drawn
  regs : t.trace.regs =
    ((List.range d.length).map fun i => RegEvent.wr (off + BitVec.ofNat 6 i) (d.getD i 0#8)).reverse ++ s.trace.regs

/-- BWR in an environment that ends its waits at once (R83). -/
theorem exec_bwr {d : List Byte} {a : Bool} {rest : List Bit} {s : State} (off : BitVec 6) (hd : burstLengthOk d.length)
    (hp : s.phase = .idle) (ha : s.attached = a) (h : s.answers = acks a (2 + d.length) ++ rest) :
    ∃ t, exec (.bwr off d) s = .next t ∧ CompletedIdle (3 + d.length) s t ∧ SameResults s t
      ∧ t.trace.results = s.trace.results ∧ t.answers = rest ∧ StoredFrom off d s t := by
  obtain ⟨t, r⟩ := runsThrough_burstWrite (i := .bwr off d) off ⟨decide_eq_true hd, rfl, nofun⟩ hp ha (if_pos hd) h
  obtain ⟨hresults, htrace⟩ := r.wrote
  have hdev : t.dev = Memory.read (Device.storeAll d { s.device with ptr := off, mode := .wdata, dack := true }).regs := by
    funext k
    rw [State.dev, r.device]
  have hlen : d.length ≤ 64 := hd.2.trans (by decide)
  refine ⟨t, r.exec, r.idle, hresults, htrace, r.answers, ?_⟩
  exact {
    stored := fun hw i hi => by
      rw [hdev]
      exact storeAll_stored d { s.device with ptr := off, mode := .wdata, dack := true } hw hlen i hi
    others := fun k hk => by
      rw [hdev]
      exact storeAll_other d _ k hk
    ptr := by rw [r.device]; exact storeAll_ptr d _
    mode := by rw [r.device]
    dack := by rw [r.device]
    drawn := r.drawn
    regs := by rw [r.regs, storeEvents_eq] }

/-- Settles O42: the oracle ends each wait with a 0. -/
theorem burstWriteToTheOracle : Obligations.BurstWriteToTheOracle := by
  unfold Obligations.BurstWriteToTheOracle
  intro off d rest s h1 h56 hp ha h
  obtain ⟨t, hrun, hidle, hresults, htrace, hanswers, w⟩ := exec_bwr off ⟨h1, h56⟩ hp ha h
  exact ⟨t, hrun, hidle, hresults, hanswers, w.drawn, w.stored, w.others, w.ptr, w.mode, w.dack, w.regs, htrace⟩

/-- Settles O47: the reference device acknowledges every byte. -/
theorem bwrOnTheBench : Obligations.BwrOnTheBench := by
  unfold Obligations.BwrOnTheBench
  intro off d s h1 h56 hs
  obtain ⟨hattached, _, hp, hw⟩ := hs
  obtain ⟨t, hrun, hidle, hresults, htrace, hanswers, w⟩ := exec_bwr off ⟨h1, h56⟩ hp hattached rfl
  exact ⟨t, hrun, hidle, hresults, ⟨hanswers, w.drawn, w.mode, w.dack⟩, w.stored hw, w.others, w.ptr, w.regs, htrace⟩

/-! ### A sequence as the commands that expose its primitives (R144, R150) -/

/-- The command that is the one primitive (R136 to R144). -/
def Prim.command : Prim → Instr
  | .start a => .start a
  | .stop => .stop
  | .writeBit b => .wbit b
  | .readBit => .rbit
  | .writeByte v => .wbyte v
  | .readByte => .rbyte
  | .sendAck => .sack
  | .sendNack => .snack
  | .waitForAck => .wack

/-- Where its precondition holds, the command of a primitive is a bus command of that primitive. -/
theorem exec_command {p : Prim} {ph ph' : Phase} (h : p.phaseAfter ph = some ph') (s : State) :
    exec p.command s = busCommand ph [.prim p] (resultOf p.command) p.command.byteLength s := by
  cases ph with
  | idle =>
    cases p with
    | start a => rfl
    | _ => cases h
  | active =>
    cases p with
    | start a => cases h
    | _ => rfl

/-- What the ends of the commands of `ps` make of the registers of `b`, each writing the result of its share of the values `rx`. -/
def commandsEnd : List Prim → List Byte → State → State
  | [], _, b => b
  | p :: ps, rx, b =>
    commandsEnd ps (rx.drop (BusOp.prim p).reads)
      (finish (resultOf p.command) (rx.take (BusOp.prim p).reads) p.command.byteLength b)

/-- The first primitive of a sequence that is run through, apart from the rest. -/
theorem Went.cons_inv {p : Prim} {rest : List BusOp} {rx rx' : List Byte} {s u : State}
    (h : Went (.prim p :: rest) rx s rx' u) :
    ∃ r v, r.length = (BusOp.prim p).reads ∧ Went [.prim p] [] s r v ∧ v.phase = p.endPhase s.phase
      ∧ Went rest (rx ++ r) v rx' u := by
  cases h with
  | prim hw k =>
    exact ⟨(runPrim p s).1.toList, (runPrim p s).2, runPrim_reads p s, .prim hw (.nil _ _), runPrim_phase p s, k⟩
  | @wait _ _ _ _ v _ hw k =>
    exact ⟨[], v, rfl, .wait hw (.nil _ _), hw.frame.phase.trans (runPrim_phase .waitForAck s), by rwa [List.append_nil]⟩

/-- The end of a command does not see the bus. -/
theorem finish_overBus (fin : Finish) (rx : List Byte) (len : Nat) (u b : State) :
    finish fin rx len (overBus u b) = overBus u (finish fin rx len b) := by
  cases fin <;> rfl

/-- A sequence of primitives that is run through, its waits as late as they are, is run through by the commands of its primitives,
whatever the registers hold. -/
theorem Went.commands {ps : List Prim} {rx rx' : List Byte} {s u : State} (h : Went (ps.map .prim) rx s rx' u)
    (hl : legalFrom s.phase (ps.map .prim) = true) :
    ∃ r, rx' = rx ++ r ∧ ∀ b, CompleteAll (ps.map Prim.command) (overBus s b) (overBus u (commandsEnd ps r b)) := by
  induction ps generalizing rx s with
  | nil =>
    cases h
    exact ⟨[], (List.append_nil _).symm, fun b => rfl⟩
  | cons p ps ih =>
    obtain ⟨ph, hop, hrest⟩ := legalFrom_cons hl
    obtain ⟨r, v, hr, hfirst, hphase, hgo⟩ := Went.cons_inv h
    rw [Prim.phaseAfter_eq hop, ← hphase] at hrest
    obtain ⟨r', hrx, hall⟩ := ih hgo hrest
    refine ⟨r ++ r', by rw [hrx, List.append_assoc], fun b => ?_⟩
    have hcommand : Completes p.command (overBus s b) _ := (hfirst.over b).command (need := s.phase) rfl (exec_command hop _)
    rw [finish_overBus] at hcommand
    refine ⟨_, hcommand, ?_⟩
    rw [commandsEnd, List.take_left' hr, List.drop_left' hr]
    exact hall _

/-- A register read that is run through has read one byte. -/
theorem Went.regRead_value {off : Byte} {rx : List Byte} {s u : State} (h : Went (regRead off) [] s rx u) :
    ∃ v, rx = [v] := by
  obtain ⟨cs, tr, _⟩ := h.transcript
  obtain ⟨d, _, hd, _, tr'⟩ := Transcript.burstRead_inv (n := 1) (rest := []) (by rwa [List.append_nil])
  obtain ⟨hrx, _⟩ := tr'.nil_inv
  obtain ⟨v, rfl⟩ := List.length_eq_one_iff.mp hd
  exact ⟨v, hrx⟩

/-- The ten primitives of a register read (R150). -/
def regReadPrims (off : Byte) : List Prim :=
  [.start 0xD0#8, .waitForAck, .writeByte off, .waitForAck, .stop, .start 0xD1#8, .waitForAck, .readByte, .sendNack, .stop]

theorem regRead_eq (off : Byte) : regRead off = (regReadPrims off).map .prim := rfl

/-- The registers after the ten commands of a register read of `v`: 13 bytes on, with `v` in `RES`. -/
theorem commandsEnd_regReadPrims (off v : Byte) (b : State) :
    commandsEnd (regReadPrims off) [v] b = finish .toRes [v] 13 b := by
  simp [regReadPrims, commandsEnd, BusOp.reads, Prim.command, resultOf, Instr.byteLength, finish_nothing, finish_toRes,
    advance, BitVec.add_assoc]

/-- Settles O58: RDREG that completes has run through its ten primitives (`Completes.went`), and so do their commands. -/
theorem primitivesBuildARegisterRead : Obligations.PrimitivesBuildARegisterRead := by
  unfold Obligations.PrimitivesBuildARegisterRead
  intro off s u hp h
  obtain ⟨w, rx, g, rfl⟩ := h.went hp (fin := .toRes) (len := 2) rfl
  obtain ⟨v, rfl⟩ := g.regRead_value
  rw [regRead_eq] at g
  obtain ⟨_, rfl, hten⟩ := g.commands (by rw [hp]; rfl)
  have hend : overBus w (commandsEnd (regReadPrims (offsetByte off)) [v] s) = finish .toRes [v] 13 w := by
    rw [commandsEnd_regReadPrims, ← finish_overBus, finish_over .toRes [v] 13 s.busy g.frame]
  have hpc : { finish .toRes [v] 2 w with pc := s.pc + 13#16 } = finish .toRes [v] 13 w := by
    rw [← g.frame.pc]
    rfl
  have hcommands := hten s
  rwa [hend, ← hpc] at hcommands

end Sys2Proof.Machine

/-! The codec commands (R180 to R183): what each writes, and their round trips (R177), which are those of the codec's functions
carried through `RES`. -/

namespace Sys2Proof.Machine

/-! ### A byte in `RES` -/

theorem setWidth_zext16 (v : Byte) : v.zext16.setWidth 8 = v := by
  rw [Byte.zext16, BitVec.setWidth_setWidth_of_le _ (by decide), BitVec.setWidth_eq]

theorem zext16_inj {v w : Byte} : v.zext16 = w.zext16 ↔ v = w :=
  ⟨fun h => by rw [← setWidth_zext16 v, h, setWidth_zext16], congrArg Byte.zext16⟩

theorem zext16_toNat (v : Byte) : v.zext16.toNat = v.toNat :=
  BitVec.toNat_setWidth_of_le (by decide)

theorem bcdEncode_zext16 {v : Nat} (h : v ≤ 99) : (bcdEncode v).zext16 = BitVec.ofNat 16 (16 * (v / 10) + v % 10) := by
  apply BitVec.eq_of_toNat_eq
  rw [zext16_toNat, bcdEncode_toNat v h, BitVec.toNat_ofNat]
  omega

/-! ### What each command does -/

theorem exec_bcdenc_of_le {a : Byte} (h : a.toNat ≤ 99) (s : State) :
    exec (.bcdenc a) s = .next (advance 2 (setRes (bcdEncode a.toNat).zext16 s)) := by
  rw [exec, execBcdenc, if_pos h]

theorem exec_bcdenc_of_not_le {a : Byte} (h : ¬ a.toNat ≤ 99) (s : State) :
    exec (.bcdenc a) s = .next (raise .operand s) := by
  rw [exec, execBcdenc, if_neg h]

theorem exec_bcddec (a : Byte) (s : State) :
    exec (.bcddec a) s = .next (advance 2 (setRes (BitVec.ofNat 16 (decodeGeneric a)) s)) := rfl

theorem exec_bcdyear (a : Byte) (s : State) :
    exec (.bcdyear a) s = .next (advance 2 (setRes (BitVec.ofNat 16 (yearAbs a)) s)) := rfl

theorem exec_bcdhour (a : Byte) (s : State) :
    exec (.bcdhour a) s = .next (advance 2 (setRes (BitVec.ofNat 16 (decodeHour a)) s)) := rfl

/-- Settles O20: the end state of either branch, with the byte of `bcdEncode_zext16` in `RES`. -/
theorem bcdencResult : Obligations.BcdencResult := by
  unfold Obligations.BcdencResult
  refine fun a s => ⟨?_, rfl⟩
  split_ifs with h
  · rw [exec_bcdenc_of_le h, bcdEncode_zext16 h]
    rfl
  · rw [exec_bcdenc_of_not_le h]
    rfl

/-- Settles O21, by `decodeGeneric_eq`. -/
theorem bcddecResult : Obligations.BcddecResult := by
  unfold Obligations.BcddecResult
  refine fun a s => ⟨?_, rfl⟩
  rw [exec_bcddec, decodeGeneric_eq]
  rfl

/-- Settles O22, by `yearAbs_eq`. -/
theorem bcdyearResult : Obligations.BcdyearResult := by
  unfold Obligations.BcdyearResult
  refine fun a s => ⟨?_, rfl⟩
  rw [exec_bcdyear, yearAbs_eq]
  rfl

/-- Settles O23, by `decodeHour_eq`. -/
theorem bcdhourResult : Obligations.BcdhourResult := by
  unfold Obligations.BcdhourResult
  refine fun a s h hh => ⟨?_, rfl⟩
  rw [exec_bcdhour, decodeHour_eq, ← hh]
  rfl

/-! ### From a value to its byte and back (R177 (a) to (c)) -/

theorem exec_bcdyear_bcdEncode {v : Nat} (h : v ≤ 99) (s : State) :
    ∃ u, exec (.bcdyear (bcdEncode v)) s = .next u ∧ u.res.toNat = 2000 + v := by
  refine ⟨_, exec_bcdyear _ s, ?_⟩
  rw [advance_res, setRes_res, yearAbs, decodeYear_bcdEncode v h, BitVec.toNat_ofNat]
  exact Nat.mod_eq_of_lt (by unfold Config.centuryBase; omega)

theorem exec_bcddec_bcdEncode {v : Nat} (h : v ≤ 99) (s : State) :
    ∃ u, exec (.bcddec (bcdEncode v)) s = .next u ∧ u.res.toNat = if v ≤ 79 then v else v - 80 := by
  refine ⟨_, exec_bcddec _ s, ?_⟩
  rw [advance_res, setRes_res, decodeGeneric_bcdEncode v h, BitVec.toNat_ofNat]
  exact Nat.mod_eq_of_lt (by split_ifs <;> omega)

theorem exec_bcdhour_bcdEncode {v : Nat} (h : v ≤ 23) (s : State) :
    ∃ u, exec (.bcdhour (bcdEncode v)) s = .next u ∧ u.res.toNat = v := by
  refine ⟨_, exec_bcdhour _ s, ?_⟩
  rw [advance_res, setRes_res, decodeHour_bcdEncode v h, BitVec.toNat_ofNat]
  exact Nat.mod_eq_of_lt (by omega)

/-! ### From a byte to its value and back (R177 (d), (e)) -/

theorem decodeYear_eq (b : Byte) : decodeYear b = b.toNat % 16 + 10 * (b.toNat / 16) :=
  Nat.add_left_cancel (yearAbs_eq b)

/-- The absolute year of any byte fits in `RES` (R178). -/
theorem ofNat_yearAbs_toNat (b : Byte) : (BitVec.ofNat 16 (yearAbs b)).toNat = 2000 + decodeYear b := by
  rw [yearAbs_eq, decodeYear_eq, BitVec.toNat_ofNat]
  omega

/-- The year in `RES` less the century fits in an operand byte. -/
theorem twoDigitYear_toNat (b : Byte) :
    (BitVec.ofNat 8 ((BitVec.ofNat 16 (yearAbs b)).toNat - 2000)).toNat = decodeYear b := by
  rw [ofNat_yearAbs_toNat, Nat.add_sub_cancel_left, decodeYear_eq, BitVec.toNat_ofNat]
  omega

/-- BCDYEAR, then BCDENC of the two-digit year: a year up to 99 is encoded, by `bcdEncode_decodeYear`; beyond, OPERAND leaves the
year in `RES`, which is no byte, and one of the nibbles is past 9. -/
theorem exec_bcdyear_bcdenc (b : Byte) (s : State) :
    ∃ t u, exec (.bcdyear b) s = .next t ∧ exec (.bcdenc (BitVec.ofNat 8 (t.res.toNat - 2000))) t = .next u
      ∧ (u.res = b.zext16 ↔ b.toNat % 16 ≤ 9 ∧ b.toNat / 16 ≤ 9) := by
  have hyear := twoDigitYear_toNat b
  by_cases h : decodeYear b ≤ 99
  · refine ⟨_, _, exec_bcdyear b s, exec_bcdenc_of_le (hyear.trans_le h) _, ?_⟩
    rw [advance_res, setRes_res, zext16_inj, hyear, bcdEncode_decodeYear]
  · refine ⟨_, _, exec_bcdyear b s, exec_bcdenc_of_not_le (fun hle => h (hyear.symm.trans_le hle)) _, iff_of_false ?_ ?_⟩
    · intro hres
      have hbyte : 2000 + decodeYear b = b.toNat := by
        rw [← ofNat_yearAbs_toNat, ← zext16_toNat, ← hres, raise_res, advance_res, setRes_res]
      omega
    · rw [decodeYear_eq] at h
      omega

theorem exec_bcddec_bit7 (b : Byte) (s : State) :
    exec (.bcddec (b ||| 0x80#8)) s = exec (.bcddec b) s ∧ exec (.bcddec (b &&& 0x7F#8)) s = exec (.bcddec b) s := by
  obtain ⟨hset, hclear⟩ := decodeGeneric_bit7 b
  exact ⟨by rw [exec_bcddec, hset, exec_bcddec], by rw [exec_bcddec, hclear, exec_bcddec]⟩

/-- Settles O24: BCDENC leaves the encoded byte in `RES`, and each decode then gives its value; a byte comes back by
`exec_bcdyear_bcdenc`. -/
theorem codecRoundTrips : Obligations.CodecRoundTrips := by
  unfold Obligations.CodecRoundTrips
  refine ⟨fun v s h => ⟨_, exec_bcdenc_of_le h s, ?_⟩, fun b s => ⟨exec_bcdyear_bcdenc b s, exec_bcddec_bit7 b s⟩⟩
  rw [advance_res, setRes_res, setWidth_zext16]
  exact ⟨exec_bcdyear_bcdEncode h _, exec_bcddec_bcdEncode h _, fun hhour => exec_bcdhour_bcdEncode hhour _⟩

end Sys2Proof.Machine

/-! The commands of the register model (spec/43_register_model.md R190 to R213): the operands they accept, the sequences they are,
the calls they make where they complete or are held up, and what they leave, on the bench, in the result registers and in the
reference device. -/

namespace Sys2Proof.Machine

/-! ### The checks of the operands -/

theorem timeValid_iff {hour minute second : Byte} :
    timeValid hour minute second = true ↔ hour.toNat < 24 ∧ minute.toNat < 60 ∧ second.toNat < 60 := by
  simp [timeValid, and_assoc]

theorem dateValid_iff {day month : Byte} {year : Half} : dateValid day month year = true ↔
    (1 ≤ day.toNat ∧ day.toNat ≤ 31) ∧ (1 ≤ month.toNat ∧ month.toNat ≤ 12) ∧ 2000 ≤ year.toNat ∧ year.toNat < 3000 := by
  simp only [dateValid, Bool.and_eq_true, decide_eq_true_eq, and_assoc]

theorem dowValid_iff {a : Byte} : dowValid a = true ↔ 1 ≤ a.toNat ∧ a.toNat ≤ 7 := decide_eq_true_iff

theorem scratchValid_iff {a : Byte} : scratchValid a = true ↔ a.toNat ≤ 55 :=
  decide_eq_true_iff.trans Nat.lt_succ_iff

/-- Settles O25: a check that fails is the branch of `skip`. -/
theorem invalidOperandsSkip : Obligations.InvalidOperandsSkip := by
  unfold Obligations.InvalidOperandsSkip
  refine fun s => ⟨fun h m x bad => if_neg ?_, fun d m y bad => if_neg ?_, fun a bad => if_neg ?_,
    fun a v bad => if_neg ?_, fun a bad => if_neg ?_⟩
  · rw [timeValid_iff]; omega
  · rw [dateValid_iff]; omega
  · rw [dowValid_iff]; omega
  · rw [scratchValid_iff]; omega
  · rw [scratchValid_iff]; omega

/-! ### The commands as sequences of register accesses -/

section
variable {h m x : Byte} (hh : h.toNat < 24) (hm : m.toNat < 60) (hx : x.toNat < 60)
include hh hm hx

/-- WRTIME of valid operands (R192). -/
theorem exec_wrtime (s : State) :
    exec (.wrtime h m x) s = busCommand .idle (regWrite (offsetByte 2#6) (bcdEncode h.toNat)
      ++ regWrite (offsetByte 1#6) (bcdEncode m.toNat) ++ regWrite (offsetByte 0#6) (bcdEncode x.toNat)) .nothing 4 s :=
  if_pos (timeValid_iff.mpr ⟨hh, hm, hx⟩)

theorem transfers_wrtime : Transfers (.wrtime h m x) := ⟨rfl, if_pos ⟨hh, hm, hx⟩, nofun⟩

end

section
variable {d m : Byte} {y : Half} (hd : 1 ≤ d.toNat ∧ d.toNat ≤ 31) (hm : 1 ≤ m.toNat ∧ m.toNat ≤ 12)
  (hy : 2000 ≤ y.toNat ∧ y.toNat < 3000)
include hd hm hy

/-- WRDATE of valid operands (R193). -/
theorem exec_wrdate (s : State) :
    exec (.wrdate d m y) s = busCommand .idle (regWrite (offsetByte 6#6) (yearByte (y.toNat - Config.centuryBase))
      ++ regWrite (offsetByte 5#6) (bcdEncode m.toNat) ++ regWrite (offsetByte 4#6) (bcdEncode d.toNat)) .nothing 5 s :=
  if_pos (dateValid_iff.mpr ⟨hd, hm, hy⟩)

theorem transfers_wrdate : Transfers (.wrdate d m y) := ⟨rfl, if_pos ⟨hd, hm, hy⟩, nofun⟩

end

/-- WRDOW of a valid operand (R194). -/
theorem exec_wrdow {a : Byte} (ha : 1 ≤ a.toNat ∧ a.toNat ≤ 7) (s : State) :
    exec (.wrdow a) s = busCommand .idle (regWrite (offsetByte 3#6) a) .nothing 2 s := if_pos (dowValid_iff.mpr ha)

theorem transfers_wrdow {a : Byte} (ha : 1 ≤ a.toNat ∧ a.toNat ≤ 7) : Transfers (.wrdow a) := ⟨rfl, if_pos ha, nofun⟩

/-- RDSCR of a scratch address is RDREG of its register (R210). -/
theorem exec_rdscr {a : Byte} (h : a.toNat ≤ 55) (s : State) :
    exec (.rdscr a) s = exec (.rdreg (BitVec.ofNat 6 (8 + a.toNat))) s := by
  have hrun : exec (.rdscr a) s = busCommand .idle (regRead (scratchOffset a)) .toRes 2 s :=
    if_pos (scratchValid_iff.mpr h)
  rw [hrun, (scratchOffset_eq a h).1]
  rfl

/-- WRSCR of a scratch address is WRREG of its register (R211). -/
theorem exec_wrscr {a : Byte} (h : a.toNat ≤ 55) (v : Byte) (s : State) :
    exec (.wrscr a v) s = exec (.wrreg (BitVec.ofNat 6 (8 + a.toNat)) v) s := by
  have hrun : exec (.wrscr a v) s = busCommand .idle (regWrite (scratchOffset a) v) .nothing 3 s :=
    if_pos (scratchValid_iff.mpr h)
  rw [hrun, (scratchOffset_eq a h).1]
  rfl

/-- WRSCRALL of 56 bytes (R213). -/
theorem exec_wrscrall {d : List Byte} (h : d.length = 56) (s : State) :
    exec (.wrscrall d) s = busCommand .idle (burstWrite (offsetByte 8#6) d) .nothing 57 s := if_pos h

theorem transfers_wrscrall {d : List Byte} (h : d.length = 56) : Transfers (.wrscrall d) :=
  ⟨decide_eq_true h, rfl, nofun⟩

/-- The command is a read-modify-write of register `off` that writes back `w` of the byte read (R195). -/
structure Rewrites (i : Instr) (off : BitVec 6) (w : Byte → Byte) : Prop where
  transfers : Transfers i
  length : i.byteLength = 2
  exec : ∃ mask bits, (∀ v, w v = (v &&& ~~~mask) ||| bits)
    ∧ ∀ s, exec i s = busCommand .idle (regModify (offsetByte off) mask bits) .nothing i.byteLength s

/-- SETHALT (R196). -/
theorem rewrites_sethalt (f : Bit) :
    Rewrites (.sethalt f) 0#6 fun v => (v &&& 0x7F#8) ||| (if f then 0x80#8 else 0#8) :=
  ⟨⟨rfl, rfl, nofun⟩, rfl, _, _, fun v => by cases f <;> rfl, fun _ => rfl⟩

/-- SETOUT (R197). -/
theorem rewrites_setout (f : Bit) :
    Rewrites (.setout f) 7#6 fun v => (v &&& 0x7F#8) ||| (if f then 0x80#8 else 0#8) :=
  ⟨⟨rfl, rfl, nofun⟩, rfl, _, _, fun v => by cases f <;> rfl, fun _ => rfl⟩

/-- SETSQWE (R198). -/
theorem rewrites_setsqwe (f : Bit) :
    Rewrites (.setsqwe f) 7#6 fun v => (v &&& 0xEF#8) ||| (if f then 0x10#8 else 0#8) :=
  ⟨⟨rfl, rfl, nofun⟩, rfl, _, _, fun v => by cases f <;> rfl, fun _ => rfl⟩

/-- SETRATE (R199). -/
theorem rewrites_setrate (r : BitVec 2) : Rewrites (.setrate r) 7#6 fun v => (v &&& 0xFC#8) ||| r.setWidth 8 :=
  ⟨⟨rfl, rfl, nofun⟩, rfl, _, _, fun _ => rfl, fun _ => rfl⟩

/-! ### The calls of a completed command -/

/-- A command that is three register writes and completes has made their calls, in order, and written no result. -/
theorem Completes.threeWrites {i : Instr} {o₁ o₂ o₃ a b c : Byte} {len : Nat} {s t : State} (h : Completes i s t)
    (hp : s.phase = .idle)
    (he : exec i s = busCommand .idle (regWrite o₁ a ++ regWrite o₂ b ++ regWrite o₃ c) .nothing len s) :
    SameResults s t ∧ t.trace.results = s.trace.results
      ∧ t.trace.calls = (burstWriteCalls o₁ [a] ++ burstWriteCalls o₂ [b] ++ burstWriteCalls o₃ [c]).reverse
          ++ s.trace.calls := by
  obtain ⟨u, rx, cs, tr, f, rfl, hcalls⟩ := h.transcript hp he
  rw [List.append_assoc] at tr
  obtain ⟨cs₁, rfl, tr₁⟩ := Transcript.burstWrite_inv tr
  obtain ⟨cs₂, rfl, tr₂⟩ := Transcript.burstWrite_inv tr₁
  obtain ⟨cs₃, rfl, tr₃⟩ := Transcript.burstWrite_inv (rest := []) (by rwa [List.append_nil])
  obtain ⟨_, rfl⟩ := tr₃.nil_inv
  obtain ⟨hresults, htrace⟩ : Wrote .nothing rx s _ := finish_wrote .nothing rx len f
  exact ⟨hresults, htrace, by rw [hcalls, List.append_nil, List.append_assoc]⟩

/-- Settles O40: the three writes of WRTIME and of WRDATE by `Completes.threeWrites`, the one of WRDOW by `Completes.burstWrite`. -/
theorem clockWriteCallSequences : Obligations.ClockWriteCallSequences := by
  unfold Obligations.ClockWriteCallSequences
  intro s t hp
  refine ⟨fun h m x hh hm hx hc => ?_, fun d m y hd hd' hm hm' hy hy' hc => ?_, fun a ha ha' hc => ?_⟩
  · obtain ⟨hw, hn, hs⟩ := transfers_wrtime hh hm hx
    obtain ⟨hresults, htrace, hcalls⟩ := hc.threeWrites hp (exec_wrtime hh hm hx s)
    rw [bcdEncode_eq h.toNat (by omega), bcdEncode_eq m.toNat (by omega), bcdEncode_eq x.toNat (by omega)] at hcalls
    exact ⟨hc.idle hw hn hs hp, hresults, htrace, hcalls⟩
  · obtain ⟨hw, hn, hs⟩ := transfers_wrdate ⟨hd, hd'⟩ ⟨hm, hm'⟩ ⟨hy, hy'⟩
    obtain ⟨hresults, htrace, hcalls⟩ := hc.threeWrites hp (exec_wrdate ⟨hd, hd'⟩ ⟨hm, hm'⟩ ⟨hy, hy'⟩ s)
    rw [yearByte_eq y.toNat hy, bcdEncode_eq m.toNat (by omega), bcdEncode_eq d.toNat (by omega)] at hcalls
    exact ⟨hc.idle hw hn hs hp, hresults, htrace, hcalls⟩
  · obtain ⟨hw, hn, hs⟩ := transfers_wrdow ⟨ha, ha'⟩
    obtain ⟨hresults, htrace, hcalls⟩ := hc.burstWrite hp (exec_wrdow ⟨ha, ha'⟩ s)
    exact ⟨hc.idle hw hn hs hp, hresults, htrace, hcalls⟩

/-- A read-modify-write that completes. -/
theorem Rewrites.completes {i : Instr} {off : BitVec 6} {w : Byte → Byte} {s t : State} (h : Rewrites i off w)
    (hp : s.phase = .idle) (hc : Completes i s t) :
    ∃ v, CompletedIdle 2 s t ∧ SameResults s t ∧ t.trace.results = s.trace.results
      ∧ t.trace.calls = (burstReadCalls (offsetByte off) [v] ++ burstWriteCalls (offsetByte off) [w v]).reverse
          ++ s.trace.calls := by
  obtain ⟨⟨hw, hn, hs⟩, hlen, mask, bits, hbyte, hexec⟩ := h
  obtain ⟨u, rx, cs, tr, f, rfl, hcalls⟩ := hc.transcript hp (hexec s)
  obtain ⟨v, rfl⟩ := tr.regModify_inv
  obtain ⟨hresults, htrace⟩ : Wrote .nothing rx s _ := finish_wrote .nothing rx i.byteLength f
  exact ⟨v, hlen ▸ hc.idle hw hn hs hp, hresults, htrace, by rw [hcalls, hbyte]⟩

/-- Settles O39: each of the four is a read-modify-write. -/
theorem readModifyWriteCallSequences : Obligations.ReadModifyWriteCallSequences := by
  unfold Obligations.ReadModifyWriteCallSequences
  rintro s t i off w hp hc (⟨f, rfl, rfl, rfl⟩ | ⟨f, rfl, rfl, rfl⟩ | ⟨f, rfl, rfl, rfl⟩ | ⟨r, rfl, rfl, rfl⟩)
  · exact (rewrites_sethalt f).completes hp hc
  · exact (rewrites_setout f).completes hp hc
  · exact (rewrites_setsqwe f).completes hp hc
  · exact (rewrites_setrate r).completes hp hc

/-! ### The scratch commands are transfer patterns -/

theorem Completes.of_exec_eq {i j : Instr} {s t : State} (h : Completes i s t) (he : exec j s = exec i s) :
    Completes j s t := by
  obtain ⟨u, n, hu, hgo, hbusy⟩ := h
  exact ⟨u, n, he.trans hu, hgo, hbusy⟩

/-- Where a command completes, one of the same sequence and another length completes in the same state, `PC` apart. -/
theorem Completes.of_sequence {i j : Instr} {need : Phase} {ops : List BusOp} {fin : Finish} {len len' : Nat} {s t : State}
    (h : Completes i s t) (hp : s.phase = need) (hi : exec i s = busCommand need ops fin len s)
    (hj : exec j s = busCommand need ops fin len' s) : Completes j s { t with pc := s.pc + BitVec.ofNat 16 len' } := by
  obtain ⟨u, rx, g, rfl⟩ := h.went hp hi
  have hend : { finish fin rx len u with pc := s.pc + BitVec.ofNat 16 len' } = finish fin rx len' u := by
    rw [← g.frame.pc]
    cases fin <;> rfl
  rw [hend]
  exact g.command hp hj

/-- Settles O59: the single accesses are the same commands (`exec_rdscr`, `exec_wrscr`), the bursts the same sequences. -/
theorem scratchCommandsAreBursts : Obligations.ScratchCommandsAreBursts := by
  unfold Obligations.ScratchCommandsAreBursts
  refine fun s t hp => ⟨fun a ha => ⟨fun h => h.of_exec_eq (exec_rdscr ha s), fun v h => h.of_exec_eq (exec_wrscr ha v s)⟩,
    fun h => ?_, fun d hd h => ?_⟩
  · have hbrd : exec (.brd 8#6 56) s = busCommand .idle (burstRead 8#8 56) .toBuf 3 s := by
      rw [exec, execBrd, if_pos ⟨by decide, le_rfl⟩]
      rfl
    exact h.of_sequence hp hbrd rfl
  · have hok : burstLengthOk d.length := ⟨by omega, hd.le⟩
    exact h.of_sequence hp (if_pos hok) (exec_wrscrall hd s)

/-! ### A command that a wait holds up (R201) -/

/-- A burst write that runs through has made its calls, in order. -/
theorem Chain.burstWrite_calls {off : Byte} {d : List Byte} {rx rx' : List Byte} {s u : State}
    (h : Chain (burstWrite off d) rx s rx' u) : u.trace.calls = (burstWriteCalls off d).reverse ++ s.trace.calls := by
  obtain ⟨cs, tr, hcalls⟩ := h.went.transcript
  obtain ⟨_, rfl, tr'⟩ := Transcript.burstWrite_inv (rest := []) (by rwa [List.append_nil])
  obtain ⟨_, rfl⟩ := tr'.nil_inv
  rw [hcalls, List.append_nil]

/-- A wait against an oracle whose next answer is 1 holds the command up, with that answer taken (R132). -/
theorem runOps_wait_one {s : State} {rest : List Bit} (ops : List BusOp) (rx : List Byte) (fin : Finish) (len : Nat)
    (ha : s.attached = false) (he : s.device.event .waitForAck = some (s.device, [])) (h : s.answers = true :: rest) :
    ∃ u, runOps (.prim .waitForAck :: ops) rx fin len s = { u with busy := some ⟨ops, rx, fin, len⟩ }
      ∧ Ran s s.phase s.device [] rest u ∧ u.pins = ⟨true, .input, s.pins.sda⟩
      ∧ u.trace.calls = called .waitForAck :: s.trace.calls := by
  have r := runPrim_modelled (p := .waitForAck) (by simp) he
  have hpins := runPrim_pins .waitForAck s
  have hsample := sampleAck_oracle (by rw [hpins]) (r.frame.attached.trans ha) (r.answers.trans h)
  refine ⟨_, runOps_wait_held ops rx fin len (by rw [hsample]), ?_⟩
  rw [hsample]
  have f : BusFrame (runPrim .waitForAck s).2 { (runPrim .waitForAck s).2 with answers := rest } := by
    constructor <;> rfl
  exact ⟨⟨r.frame.trans f, r.phase, r.device, r.regs, rfl, r.drawn⟩, hpins, runPrim_calls .waitForAck s⟩

/-- A burst write against an oracle whose next answer is 1: the wait after `Start(0xD0)` holds the command up, with the reference
device addressed. -/
theorem runOps_burstWrite_one {s : State} {rest : List Bit} (off : Byte) (d : List Byte) (ops : List BusOp) (rx : List Byte)
    (fin : Finish) (len : Nat) (ha : s.attached = false) (h : s.answers = true :: rest) :
    ∃ u j, runOps (burstWrite off d ++ ops) rx fin len s = { u with busy := some j }
      ∧ Ran s .active { s.device with mode := .offset, dack := true } [] rest u ∧ u.pins = ⟨true, .input, false⟩
      ∧ u.trace.calls = [called .waitForAck, called (.start 0xD0#8)] ++ s.trace.calls := by
  have r := runPrim_modelled (s := s) (p := .start 0xD0#8) (es := []) (by simp) rfl
  obtain ⟨todo, htodo⟩ : ∃ todo, burstWrite off d ++ ops = .prim (.start 0xD0#8) :: .prim .waitForAck :: todo := ⟨_, rfl⟩
  obtain ⟨u, hrun, r', hpins, hcalls⟩ := runOps_wait_one todo rx fin len (r.frame.attached.trans ha)
    (by rw [r.device]; rfl) (r.answers.trans h)
  refine ⟨u, ⟨todo, rx, fin, len⟩, ?_, ?_, ?_, ?_⟩
  · rw [htodo, runOps_prim (by simp [BusOp.resolve]), ← hrun]
    simp [BusOp.resolve, runPrim]
  · have k := r.trans r'
    rwa [r.phase, r.device] at k
  · rw [hpins, runPrim_pins]
    rfl
  · rw [hcalls, runPrim_calls]
    rfl

/-- Settles O43: the first transfer runs through (`chain_oracle_burstWrite`), the second is held up by its first wait
(`runOps_burstWrite_one`). -/
theorem wrtimePartialCompletion : Obligations.WrtimePartialCompletion := by
  unfold Obligations.WrtimePartialCompletion
  intro h m x rest s hh hm hx hp ha hanswers
  rw [← bcdEncode_eq h.toNat (by omega)]
  obtain ⟨u, c, r⟩ := chain_oracle_burstWrite 2#6 [bcdEncode h.toNat] (true :: rest) [] ha hanswers
  obtain ⟨v, j, hrun, r', hpins, hcalls⟩ := runOps_burstWrite_one (offsetByte 1#6) [bcdEncode m.toNat]
    (regWrite (offsetByte 0#6) (bcdEncode x.toNat)) [] .nothing 4 (r.frame.attached.trans ha) r.answers
  have hexec : exec (.wrtime h m x) s = .next { v with busy := some j } := by
    rw [exec_wrtime hh hm hx, busCommand_run hp, List.append_assoc, regWrite, c.run]
    exact congrArg Host.Outcome.next hrun
  have f := r.frame.trans r'.frame
  have hdev : v.dev = Memory.read (Memory.write s.device.regs 2 (bcdEncode h.toNat)) := by
    funext a
    rw [State.dev, r'.device, r.device]
    rfl
  refine ⟨_, _, hexec, rfl, hpins, r'.phase, f.pc, ⟨f.res, f.buf, f.bufn, f.snap⟩, ⟨f.err, f.errcode, f.errpc⟩, r'.answers,
    ?_, fun hw => ?_, fun a hne => ?_, ?_⟩
  · exact r'.regs.trans r.regs
  · exact (congrFun hdev 2).trans (read_write_same hw)
  · exact (congrFun hdev a).trans (read_write_other hne)
  · show v.trace.calls = _
    rw [hcalls, c.burstWrite_calls, List.reverse_append, List.append_assoc]
    rfl

/-! ### A command that writes registers, on the bench (R83) -/

/-- On the bench the command `i` runs from `s` to its end in `t` and writes no result: it leaves the reference device's registers
at `dev`, its pointer at `ptr`, and the new entries `es` in the register trace (newest first). -/
structure BenchWrites (i : Instr) (dev : Nat → Byte) (ptr : BitVec 6) (es : List RegEvent) (s t : State) : Prop where
  exec : exec i s = .next t
  idle : CompletedIdle i.byteLength s t
  results : SameResults s t
  environment : EnvironmentKept s t
  dev : t.dev = dev
  ptr : t.device.ptr = ptr
  regs : t.trace.regs = es ++ s.trace.regs
  resultTrace : t.trace.results = s.trace.results

theorem benchWrites_of_chain {i : Instr} {ops : List BusOp} {rx : List Byte} {m : List Host.Cell} {ptr : BitVec 6}
    {es : List RegEvent} {s u : State} (hi : Transfers i) (hp : s.phase = .idle)
    (he : exec i s = busCommand .idle ops .nothing i.byteLength s) (c : Chain ops [] s rx u)
    (r : Ran s .idle { s.device with regs := m, ptr := ptr, mode := .idle, dack := false } es s.answers u) :
    ∃ t, BenchWrites i (Memory.read m) ptr es s t := by
  have k := runsThrough_of_chain hi hp he c r
  obtain ⟨hresults, htrace⟩ := k.wrote
  refine ⟨_, k.exec, k.idle, hresults, ⟨k.answers, k.drawn, ?_, ?_⟩, ?_, ?_, k.regs, htrace⟩
  · rw [k.device]
  · rw [k.device]
  · funext a
    rw [State.dev, k.device]
  · rw [k.device]

/-- A command that is one register write. -/
theorem benchWrites_regWrite {i : Instr} {s : State} (off : BitVec 6) (v : Byte) (hi : Transfers i) (hs : s.OnBench)
    (he : exec i s = busCommand .idle (regWrite (offsetByte off) v) .nothing i.byteLength s) :
    ∃ t, BenchWrites i (Function.update s.dev off.toNat v) (off + 1#6) [.wr off v] s t := by
  obtain ⟨hattached, _, hp, hw⟩ := hs
  obtain ⟨u, c, r⟩ := chain_bench_regWrite (s := s) off v [] hattached
  have h := benchWrites_of_chain hi hp he c r
  rwa [read_write hw] at h

/-- A command that is three register writes. -/
theorem benchWrites_threeWrites {i : Instr} {s : State} (o₁ o₂ o₃ : BitVec 6) (a b c : Byte) (hi : Transfers i)
    (hs : s.OnBench) (he : exec i s = busCommand .idle
      (regWrite (offsetByte o₁) a ++ regWrite (offsetByte o₂) b ++ regWrite (offsetByte o₃) c) .nothing i.byteLength s) :
    ∃ t, BenchWrites i
      (Function.update (Function.update (Function.update s.dev o₁.toNat a) o₂.toNat b) o₃.toNat c) (o₃ + 1#6)
      [.wr o₃ c, .wr o₂ b, .wr o₁ a] s t := by
  obtain ⟨hattached, _, hp, hw⟩ := hs
  obtain ⟨u, ch, r⟩ := chain_bench_threeWrites (s := s) o₁ o₂ o₃ a b c hattached
  have hw₁ : Memory.wf (Memory.write s.device.regs o₁.toNat a) = true := write_wf hw o₁.isLt
  have h := benchWrites_of_chain hi hp he ch r
  rwa [read_write (write_wf hw₁ o₂.isLt), read_write hw₁, read_write hw] at h

/-! ### The clock, on the bench -/

/-- A field of at most 79 leaves bit 7 of its register clear (R279). -/
theorem bcdEncode_bit7 {v : Nat} (h : v ≤ 79) : (bcdEncode v).getLsbD 7 = false := by
  have hlt : (bcdEncode v).toNat < 2 ^ 7 := by
    rw [bcdEncode_toNat v (by omega)]
    omega
  exact Nat.testBit_lt_two_pow hlt

/-- Settles O49, by the three updates of the registers. -/
theorem wrtimeOnTheBench : Obligations.WrtimeOnTheBench := by
  unfold Obligations.WrtimeOnTheBench
  intro h m x s hh hm hx hs
  obtain ⟨t, r⟩ := benchWrites_threeWrites 2#6 1#6 0#6 _ _ _ (transfers_wrtime hh hm hx) hs (exec_wrtime hh hm hx s)
  have hour : t.dev 2 = bcdEncode h.toNat := by simp [r.dev]
  have minute : t.dev 1 = bcdEncode m.toNat := by simp [r.dev]
  have second : t.dev 0 = bcdEncode x.toNat := by simp [r.dev]
  have others : ∀ a, a ≠ 0 → a ≠ 1 → a ≠ 2 → t.dev a = s.dev a := by
    intro a h0 h1 h2
    rw [r.dev]
    simp [h0, h1, h2]
  refine ⟨t, r.exec, r.idle, r.results, r.environment, ?_, ?_, ?_, ?_, ?_, others, r.ptr, ?_, r.resultTrace⟩
  · rw [hour, bcdEncode_toNat _ (by omega)]
  · rw [minute, bcdEncode_toNat _ (by omega)]
  · rw [second, bcdEncode_toNat _ (by omega)]
  · rw [second, bcdEncode_bit7 (by omega)]
  · rw [hour, bcdEncode_bit7 (by omega)]
  · rw [r.regs, hour, minute, second]

/-- Settles O50, by the three updates of the registers. -/
theorem wrdateOnTheBench : Obligations.WrdateOnTheBench := by
  unfold Obligations.WrdateOnTheBench
  intro d m y s hd hd' hm hm' hy hy' hs
  obtain ⟨t, r⟩ := benchWrites_threeWrites 6#6 5#6 4#6 _ _ _ (transfers_wrdate ⟨hd, hd'⟩ ⟨hm, hm'⟩ ⟨hy, hy'⟩) hs
    (exec_wrdate ⟨hd, hd'⟩ ⟨hm, hm'⟩ ⟨hy, hy'⟩ s)
  have year : t.dev 6 = yearByte (y.toNat - Config.centuryBase) := by simp [r.dev]
  have month : t.dev 5 = bcdEncode m.toNat := by simp [r.dev]
  have day : t.dev 4 = bcdEncode d.toNat := by simp [r.dev]
  have others : ∀ a, a ≠ 4 → a ≠ 5 → a ≠ 6 → t.dev a = s.dev a := by
    intro a h4 h5 h6
    rw [r.dev]
    simp [h4, h5, h6]
  refine ⟨t, r.exec, r.idle, r.results, r.environment, fun hlow => ?_, fun hhigh => ?_, ?_, ?_, others, r.ptr, ?_,
    r.resultTrace⟩
  · rw [year, yearByte_eq _ hy, if_pos hlow, BitVec.toNat_ofNat]
    omega
  · rw [year, yearByte_eq _ hy, if_neg (by omega)]
  · rw [month, bcdEncode_toNat _ (by omega)]
  · rw [day, bcdEncode_toNat _ (by omega)]
  · rw [r.regs, year, month, day]

/-- Settles O51, by the one update of the registers. -/
theorem wrdowOnTheBench : Obligations.WrdowOnTheBench := by
  unfold Obligations.WrdowOnTheBench
  intro a s ha ha' hs
  obtain ⟨t, r⟩ := benchWrites_regWrite 3#6 a (transfers_wrdow ⟨ha, ha'⟩) hs (exec_wrdow ⟨ha, ha'⟩ s)
  refine ⟨t, r.exec, r.idle, r.results, r.environment, fun k => ?_, r.ptr, r.regs, r.resultTrace⟩
  rw [r.dev]
  exact Function.update_apply ..

theorem Wrote.toSnap {d : List Byte} {s t : State} (h : Wrote .toSnap d s t) :
    t.snap = snapshotOf d ∧ t.res = s.res ∧ t.buf = s.buf ∧ t.bufn = s.bufn
      ∧ t.trace.results = .snap t.snap :: s.trace.results := by
  obtain ⟨⟨hres, hbuf, hbufn, hsnap⟩, htrace⟩ := h
  exact ⟨hsnap, hres, hbuf, hbufn, by rw [htrace, hsnap]; rfl⟩

/-- Settles O48: a burst read of registers 0 to 7, decoded by `snapshotOf_decodeOf`. -/
theorem rdsnapOnTheBench : Obligations.RdsnapOnTheBench := by
  unfold Obligations.RdsnapOnTheBench
  intro s hs
  obtain ⟨hattached, _, hp, _⟩ := hs
  obtain ⟨t, r⟩ := runsThrough_burstRead (i := .rdsnap) (fin := .toSnap)
    (d := [s.dev 0, s.dev 1, s.dev 2, s.dev 3, s.dev 4, s.dev 5, s.dev 6, s.dev 7]) 0#6 (Nat.le_add_left 1 7)
    ⟨rfl, rfl, nofun⟩ hp hattached rfl (fun _ => rfl) rfl
  obtain ⟨hsnap, hres, hbuf, hbufn, htrace⟩ := r.wrote.toSnap
  have hdec := snapshotOf_decodeOf (s.dev 0) (s.dev 1) (s.dev 2) (s.dev 3) (s.dev 4) (s.dev 5) (s.dev 6) [s.dev 7]
  rw [← hsnap] at hdec
  obtain ⟨hsecond, hminute, hhour, hdow, hdate, hmonth, hyear⟩ := hdec
  exact ⟨t, r.exec, hsecond, hminute, hhour, hdow, hdate, hmonth, hyear, hres, hbuf, hbufn, r.idle, r.device, r.answers,
    r.drawn, htrace⟩

/-! ### The control bits, on the bench -/

/-- A read-modify-write. -/
theorem Rewrites.onTheBench {i : Instr} {off : BitVec 6} {w : Byte → Byte} {s : State} (h : Rewrites i off w)
    (hs : s.OnBench) : ModifiesRegister i off w s := by
  obtain ⟨hi, hlen, mask, bits, hbyte, hexec⟩ := h
  obtain ⟨hattached, _, hp, hw⟩ := hs
  obtain ⟨u, c, r⟩ := chain_bench_regModify (s := s) off mask bits [] hattached rfl (hbyte (s.dev off.toNat))
  obtain ⟨t, k⟩ := benchWrites_of_chain hi hp (hexec s) c r
  refine ⟨t, k.exec, hlen ▸ k.idle, k.results, k.environment, fun a => ?_, k.ptr, k.regs, k.resultTrace⟩
  rw [k.dev, read_write hw]
  exact Function.update_apply ..

/-- Settles O52: each of the four is a read-modify-write. -/
theorem controlCommandsOnTheBench : Obligations.ControlCommandsOnTheBench := by
  unfold Obligations.ControlCommandsOnTheBench
  exact fun s hs => ⟨fun f => (rewrites_sethalt f).onTheBench hs, fun f => (rewrites_setout f).onTheBench hs,
    fun f => (rewrites_setsqwe f).onTheBench hs, fun r => (rewrites_setrate r).onTheBench hs⟩

/-! ### The scratch region, on the bench -/

/-- The offset after that of a scratch address, from 63 to 0. -/
theorem scratchOffset_succ (n : Nat) : BitVec.ofNat 6 (8 + n) + 1#6 = BitVec.ofNat 6 (9 + n) := by
  apply BitVec.eq_of_toNat_eq
  simp
  omega

/-- Settles O53: it is RDREG (`exec_rdscr`), and so by `rdregOnTheBench`. -/
theorem rdscrOnTheBench : Obligations.RdscrOnTheBench := by
  unfold Obligations.RdscrOnTheBench
  intro a s ha hs
  have hread := rdregOnTheBench (BitVec.ofNat 6 (8 + a.toNat)) s hs
  rwa [← exec_rdscr ha, (scratchOffset_eq a ha).2, scratchOffset_succ] at hread

/-- Settles O54: it is WRREG (`exec_wrscr`), and so by `wrregOnTheBench`. -/
theorem wrscrOnTheBench : Obligations.WrscrOnTheBench := by
  unfold Obligations.WrscrOnTheBench
  intro a v s ha hs
  have hwrite := wrregOnTheBench (BitVec.ofNat 6 (8 + a.toNat)) v s hs
  rwa [← exec_wrscr ha, (scratchOffset_eq a ha).2, scratchOffset_succ] at hwrite

theorem scratch_toNat {i : Nat} (h : i < 56) : (8#6 + BitVec.ofNat 6 i).toNat = 8 + i := by
  simp
  omega

/-- RDSCRALL reads the scratch registers. -/
theorem readAll_scratch (s : State) :
    Device.readAll 56 { s.device with ptr := 8#6 } = (List.range 56).map fun i => s.dev (8 + i) := by
  rw [readAll_eq]
  refine List.map_congr_left fun i hi => ?_
  rw [scratch_toNat (List.mem_range.mp hi)]
  rfl

/-- A burst of 56 bytes from offset 8 on writes the scratch registers and no other. -/
theorem storeAll_scratch {d : List Byte} {dev : Device} (hd : d.length = 56) (hptr : dev.ptr = 8#6)
    (hw : Memory.wf dev.regs = true) (a : Nat) :
    Memory.read (Device.storeAll d dev).regs a =
      if 8 ≤ a ∧ a < 64 then d.getD (a - 8) 0#8 else Memory.read dev.regs a := by
  have hat : ∀ i < d.length, (dev.ptr + BitVec.ofNat 6 i).toNat = 8 + i := fun i hi => by
    rw [hptr, scratch_toNat (by omega)]
  split_ifs with ha
  · have hi : a - 8 < d.length := by omega
    have hstored := storeAll_stored d dev hw (by omega) (a - 8) hi
    rw [hat _ hi, Nat.add_sub_cancel' ha.1] at hstored
    rw [hstored, List.getD_eq_getElem _ _ hi]
  · exact storeAll_other d dev a fun i hi => by
      rw [hat i hi]
      omega

/-- Settles O55: bursts of 56 bytes from offset 8 on. -/
theorem scratchRegionOnTheBench : Obligations.ScratchRegionOnTheBench := by
  unfold Obligations.ScratchRegionOnTheBench
  intro s hs
  obtain ⟨hattached, _, hp, hw⟩ := hs
  constructor
  · have hall := readAll_scratch s
    generalize hd : (List.range 56).map (fun i => s.dev (8 + i)) = d at hall
    have hlen : d.length = 56 := by rw [← hd, List.length_map, List.length_range]
    obtain ⟨t, r⟩ := runsThrough_burstRead (i := .rdscrall) (fin := .toBuf) (d := d) 8#6 (by omega) ⟨rfl, rfl, nofun⟩ hp
      hattached (by rw [hlen]; rfl) (fun _ => by rw [hlen, hall]) rfl
    obtain ⟨hbuf, hbufn, hres, hsnap, _⟩ := r.wrote.toBuf hlen.le
    have hdevice := r.device
    rw [hlen] at hbuf hbufn hdevice
    exact ⟨t, r.exec, hbuf, BitVec.eq_of_toNat_eq hbufn, hres, hsnap, r.idle, hdevice, r.answers, r.drawn⟩
  · intro d hd
    obtain ⟨u, c, r⟩ := chain_bench_burstWrite (s := s) 8#6 d [] hattached
    obtain ⟨t, k⟩ := benchWrites_of_chain (transfers_wrscrall hd) hp (exec_wrscrall hd s) c r
    refine ⟨t, k.exec, k.idle, k.results, k.environment, fun a => ?_, ?_, k.resultTrace⟩
    · rw [k.dev]
      exact storeAll_scratch (dev := { s.device with ptr := 8#6, mode := .wdata, dack := true }) hd rfl hw a
    · rw [k.ptr, storeAll_ptr, hd]
      exact show 8#6 + 56#6 = 0#6 by decide

end Sys2Proof.Machine

/-! The obligations about the exceptions (spec/60_exceptions.md R230 to R238): which faults a command raises and from what state, and
how a fault is left. -/

namespace Sys2Proof.Machine

/-! ### The faults a command raises -/

/-- EVERYTHING a command that faults can have done: `raise` and nothing else, PROTOCOL only out of the phase it needs (R230 to
R233). -/
theorem exec_faults {i : Instr} {s t : State} (he : s.err = false) (h : exec i s = .next t) (ht : t.err = true) :
    (t = raise .protocol s ∧ ∃ need, phaseNeeded i = some need ∧ s.phase ≠ need)
      ∨ t = raise .operand s ∨ t = raise .illegalCommand s := by
  obtain ⟨need, ops, fin, e, hneed, _⟩ | ⟨r, e, hr, _⟩ | ⟨_, _, _, e⟩ | ⟨_, e⟩ := exec_shape i s <;> rw [e] at h
  · by_cases hp : s.phase = need
    · rw [busCommand_run hp] at h
      cases h
      obtain ⟨herr, _⟩ := runOps_pc ops [] fin i.byteLength s
      rw [herr, he] at ht
      cases ht
    · rw [busCommand_protocol hp] at h
      cases h
      exact .inl ⟨rfl, need, hneed, hp⟩
  · cases h
    obtain rfl | ⟨v, rfl⟩ := hr
    all_goals
      simp only [advance_err, setRes_err, he] at ht
      cases ht
  · cases h
    exact .inr (.inl rfl)
  · cases h
    exact .inr (.inr rfl)

/-- A well-formed command out of the phase it needs raises PROTOCOL (R135, R231). -/
theorem exec_protocol {i : Instr} {need : Phase} {s : State} (hw : i.WellFormed) (hneed : phaseNeeded i = some need)
    (hp : s.phase ≠ need) : exec i s = .next (raise .protocol s) := by
  obtain ⟨_, ops, fin, e, hn, _⟩ | ⟨_, _, _, hn⟩ | ⟨_, rfl, _, _⟩ | ⟨hill, _⟩ := exec_shape i s
  · cases hn.symm.trans hneed
    exact e.trans (busCommand_protocol hp ops fin i.byteLength)
  · cases hn.symm.trans hneed
  · cases hneed
  · exact absurd hw hill

/-- Settles O7: a command that faults is one `raise` (`exec_faults`), and under `ERR` a step stands still (`step_fault`). -/
theorem faultsArePrecise : Obligations.FaultsArePrecise := by
  unfold Obligations.FaultsArePrecise
  intro i s t he h ht
  refine ⟨?_, fun hr => step_fault hr ht⟩
  obtain ⟨rfl, _⟩ | rfl | rfl := exec_faults he h ht
  · exact ⟨2#2, .inr (.inl rfl), rfl⟩
  · exact ⟨3#2, .inr (.inr rfl), rfl⟩
  · exact ⟨1#2, .inl rfl, rfl⟩

/-- Settles O8: one direction is `exec_protocol`; for the other, the code 2 leaves only the first case of `exec_faults`. -/
theorem phaseViolationsFault : Obligations.PhaseViolationsFault := by
  unfold Obligations.PhaseViolationsFault
  refine fun i s hw => ⟨fun p hneed hp => exec_protocol hw hneed hp, fun t he h ht hcode => ?_⟩
  obtain ⟨_, hviolated⟩ | rfl | rfl := exec_faults he h ht
  · exact hviolated
  · exact absurd hcode (by simp [FaultCode.number])
  · exact absurd hcode (by simp [FaultCode.number])

/-! ### How a fault is left -/

/-- Settles O9: with `ERR = 1` a step that answers is the reset or no change (`step_next`). -/
theorem onlyResetLeavesAFault : Obligations.OnlyResetLeavesAFault := by
  unfold Obligations.OnlyResetLeavesAFault
  intro s t he h
  obtain ⟨_, ⟨hreq, rfl⟩ | ⟨⟨_, _, hreq⟩, _, rfl⟩ | ⟨_, hok, _⟩ | ⟨⟨_, hok, _⟩, _⟩ | ⟨⟨_, hok, _⟩, _⟩⟩ := step_next h
  · obtain ⟨_, hpc, _, _, _, _, _, herr, _⟩ := hostReset_block (beforeReset s)
    exact ⟨fun hno => by simp [hreq] at hno, fun _ => ⟨herr, hpc⟩⟩
  · exact ⟨fun _ => rfl, fun hyes => by simp [hreq] at hyes⟩
  all_goals
    rw [he] at hok
    cases hok

end Sys2Proof.Machine

/-! The obligations about the reset and the hazards (spec/70_reset_and_hazards.md): what a reset leaves of the environment, an
absent device, and where a reset lands inside a command. -/

namespace Sys2Proof.Machine

/-! ### What a reset leaves of the environment -/

/-- A reset draws a free value exactly where it loses the reference device (R81). -/
theorem hostReset_drawn (s : State) : (hostReset s).drawn = if s.phase = .active then s.drawn + 1 else s.drawn := by
  unfold hostReset
  split_ifs <;> rfl

/-- Between transfers a reset leaves the reference device alone (R261). -/
theorem hostReset_idle {s : State} (h : s.phase = .idle) :
    (hostReset s).device = s.device ∧ (hostReset s).drawn = s.drawn := by
  rw [hostReset_drawn]
  simp [hostReset, h]

/-- In the middle of a transfer the reference device is lost (R261). -/
theorem hostReset_active {s : State} (h : s.phase = .active) :
    (hostReset s).device.mode = .free ∧ (hostReset s).drawn = s.drawn + 1 := by
  rw [hostReset_drawn]
  simp [hostReset, h]

/-- A reset writes no result. -/
theorem hostReset_results (s : State) : (hostReset s).trace.results = s.trace.results := recordPins_results _ _

/-- A `start` takes the reference device out of `D_FREE` (R77). -/
theorem onStart_mode_ne_free (a : Byte) (d : Device) : (d.onStart a).mode ≠ .free := by
  unfold Device.onStart
  split_ifs <;> simp

/-- Settles O13: `hostReset_idle` and `hostReset_active`; the bus stands idle after the reset, so that a START is one event. -/
theorem resetAndTheDevice : Obligations.ResetAndTheDevice := by
  unfold Obligations.ResetAndTheDevice
  intro s hlines hstream hreq hafter
  have hstep := step_reset hlines hstream hreq
  rw [beforeReset_zero hafter] at hstep
  refine ⟨_, hstep, rfl, rfl, hostReset_idle, fun hp => ?_⟩
  obtain ⟨hlost, _⟩ := hostReset_active hp
  refine ⟨hlost, fun a => ?_⟩
  obtain ⟨u, hrun, e, _⟩ := exec_onePrimitive (i := .start a) (p := .start a) (s := hostReset s) rfl rfl (by simp)
  refine ⟨u, hrun, ?_⟩
  rw [e.device, deviceEvent_some rfl]
  exact onStart_mode_ne_free a _

/-! ### An absent device -/

/-- Settles O35: the command opens with `Start(0xD0)` and a wait (`exec_idle_shape`), and the wait is held up by its first sample
(`runOps_wait_one`). -/
theorem absentDeviceHangsInTheFirstWait : Obligations.AbsentDeviceHangsInTheFirstWait := by
  unfold Obligations.AbsentDeviceHangsInTheFirstWait
  intro i s rest hw hn hs hp ha hanswers
  obtain ⟨todo, he, _⟩ := exec_idle_shape i s hw hn hs
  have r := runPrim_modelled (s := s) (p := .start 0xD0#8) (es := []) (by simp) rfl
  obtain ⟨u, hheld, r', hpins, hcalls⟩ := runOps_wait_one todo [] (resultOf i) i.byteLength (r.frame.attached.trans ha)
    (by rw [r.device]; rfl) (r.answers.trans hanswers)
  have f := r.frame.trans r'.frame
  rw [busCommand_run hp, runOps_prim (by simp [BusOp.resolve])] at he
  refine ⟨_, _, he.trans (congrArg _ hheld), rfl, ?_, r'.phase.trans r.phase, f.pc, ⟨f.res, f.buf, f.bufn, f.snap⟩,
    ⟨f.err, f.errcode, f.errpc⟩, r'.answers, ?_⟩
  · exact hpins.trans (by rw [runPrim_pins]; rfl)
  · exact hcalls.trans (by rw [runPrim_calls]; rfl)

/-! ### Where a reset lands -/

/-- A reset at a command boundary: it finds what its micro-operations of the command that comes next have done (R260). -/
theorem step_reset_command {s : State} {i : Instr} {rest : List Byte} {need : Phase} {ops : List BusOp}
    (hlines : s.handle.scl ≠ s.handle.sda) (hstream : s.stream.length ≤ Config.maxStream) (hreq : s.resetReq = true)
    (he : s.err = false) (hb : s.busy = none) (hd : decode (s.stream.drop s.pc.toNat) = .ok (i, rest))
    (hplan : busPlan i = some (need, ops)) (hp : s.phase = need) :
    step s = .next (hostReset (runUntil ops [] s.resetAfter s)) := by
  rw [step_reset hlines hstream hreq]
  simp [beforeReset, he, hb, runPart, fetchBytes, hd, hplan, hp]

/-- A reset in a wait: it finds what its micro-operations of the command that is held up have done (R260). -/
theorem step_reset_held {s : State} {j : Job} (hlines : s.handle.scl ≠ s.handle.sda)
    (hstream : s.stream.length ≤ Config.maxStream) (hreq : s.resetReq = true) (he : s.err = false) (hb : s.busy = some j) :
    step s = .next (hostReset (resumeUntil j s.resetAfter s)) := by
  rw [step_reset hlines hstream hreq]
  simp [beforeReset, he, hb]

/-! ### Between the transfers of WRTIME -/

/-- 92 micro-operations of WRTIME on the bench are its first transfer, which writes the hour (R192, R280). -/
theorem runUntil_timeWrites (h m x : Byte) {s : State} (ha : s.attached = true) :
    Ran s .idle { s.device with
        regs := Memory.write s.device.regs 2 (bcdEncode h.toNat), ptr := 3#6, mode := .idle, dack := false }
      [.wr 2#6 (bcdEncode h.toNat)] s.answers (runUntil (timeWrites h m x) [] 92 s) := by
  obtain ⟨u, c, r⟩ := chain_bench_regWrite (s := s) 2#6 (bcdEncode h.toNat) [] ha
  have hlands : runUntil (timeWrites h m x) [] 92 s = u := by
    rw [timeWrites, List.append_assoc]
    exact (c.until _ 0).trans (runUntil_zero _ _ u)
  rw [hlands]
  exact r

/-! ### Inside a primitive -/

/-- A primitive cut short has performed the micro-operations before the reset, and no more. -/
theorem abandon_line (n : Nat) (p : Prim) (s : State) :
    (abandon n p s).answers = (runMicros ((p.micros (byteAnswer s)).take n) s).answers
      ∧ (abandon n p s).trace.pins = (runMicros ((p.micros (byteAnswer s)).take n) s).trace.pins
      ∧ (abandon n p s).phase = s.phase := by
  have f := runMicros_frame ((p.micros (byteAnswer s)).take n) s
  unfold abandon
  split_ifs with hn
  · subst hn
    exact ⟨rfl, rfl, rfl⟩
  all_goals exact ⟨rfl, rfl, f.phase⟩

/-- The reference device is left alone by a primitive cut short before the start condition, or in an open transfer. -/
theorem abandon_device_kept {n : Nat} {s : State} (p : Prim) (h : ¬ (s.phase = .idle ∧ 3 ≤ n)) :
    (abandon n p s).device = s.device
      ∧ (abandon n p s).drawn = (runMicros ((p.micros (byteAnswer s)).take n) s).drawn := by
  have f := runMicros_frame ((p.micros (byteAnswer s)).take n) s
  unfold abandon
  rw [if_neg h]
  split_ifs with hn
  · subst hn
    exact ⟨rfl, rfl⟩
  · exact ⟨f.device, rfl⟩

/-- From the start condition on the reference device is lost (R261). -/
theorem abandon_device_lost {n : Nat} {s : State} (p : Prim) (hp : s.phase = .idle) (hn : 3 ≤ n) :
    (abandon n p s).device.mode = .free := by
  unfold abandon
  rw [if_neg (by omega), if_pos ⟨hp, hn⟩, loseDevice_mode]

/-- The micro-operations of `Start(a)` up to the start condition take no sample, and show on an idle bus the data line driven high
and then, with the clock high, low (R124). -/
theorem runMicros_start (a : Byte) (x : Option Byte) {n : Nat} (h1 : 1 ≤ n) (h3 : n ≤ 3) {s : State}
    (hpins : s.pins = ⟨true, .input, true⟩) (hhead : s.trace.pins.head? = some ⟨true, .input, true⟩) :
    (runMicros ((Prim.micros x (.start a)).take n) s).answers = s.answers
      ∧ (runMicros ((Prim.micros x (.start a)).take n) s).drawn = s.drawn
      ∧ (runMicros ((Prim.micros x (.start a)).take n) s).trace.pins =
          (if n = 3 then [⟨true, .output, false⟩] else []) ++ [⟨true, .output, true⟩] ++ s.trace.pins := by
  have hfirst : (driveSDA true s).trace.pins = ⟨true, .output, true⟩ :: s.trace.pins := by
    simp [driveSDA, setPins, recordPins_pins, hpins, hhead]
  have hsecond : (setSCL true (driveSDA true s)).trace.pins = ⟨true, .output, true⟩ :: s.trace.pins := by
    show ((driveSDA true s).trace.recordPins ⟨true, .output, true⟩).pins = _
    rw [recordPins_pins, hfirst]
    rfl
  have hthird : (driveSDA false (setSCL true (driveSDA true s))).trace.pins =
      ⟨true, .output, false⟩ :: ⟨true, .output, true⟩ :: s.trace.pins := by
    show ((setSCL true (driveSDA true s)).trace.recordPins ⟨true, .output, false⟩).pins = _
    rw [recordPins_pins, hsecond]
    rfl
  obtain rfl | rfl | rfl : n = 1 ∨ n = 2 ∨ n = 3 := by omega
  · exact ⟨rfl, rfl, hfirst⟩
  · exact ⟨rfl, rfl, hsecond⟩
  · exact ⟨rfl, rfl, hthird⟩

/-- After `4 k` micro-operations `ReadByte()` has read `k` bits (R129). -/
theorem readByteMicros_take : ∀ k ≤ 8,
    (Prim.micros none .readByte).take (4 * k) = (List.replicate k (readBitMicros none)).flatten := by
  decide

/-- Each of these `ReadBit()`s takes one answer of the oracle (R127). -/
theorem runMicros_readBits (bits : List Bit) {rest : List Bit} {s : State} (h : s.answers = bits ++ rest) :
    (runMicros (List.replicate bits.length (readBitMicros none)).flatten s).answers = rest
      ∧ (runMicros (List.replicate bits.length (readBitMicros none)).flatten s).drawn = s.drawn := by
  induction bits generalizing s with
  | nil => exact ⟨h, rfl⟩
  | cons b bits ih =>
    have hbit := congrArg Prod.snd (lineReadBit_answer h)
    obtain ⟨hanswers, hdrawn⟩ := ih (s := (lineReadBit none s).2) (by rw [hbit]; rfl)
    exact ⟨hanswers, hdrawn.trans (by rw [hbit]; rfl)⟩

/-- RBYTE against an oracle, up to a reset after `k` bits: it has taken `k` answers, all eight with its end (R129, R260). -/
theorem runUntil_readByte (bits : List Bit) {rest : List Bit} {s : State} (hlen : bits.length ≤ 8) (hp : s.phase = .active)
    (ha : s.attached = false) (h : s.answers = bits ++ rest) :
    ∃ u, runUntil [.prim .readByte] [] (4 * bits.length) s = u ∧ u.answers = rest ∧ u.phase = .active
      ∧ (bits.length < 8 → u.drawn = s.drawn) := by
  have hfree : byteAnswer s = none := by simp [byteAnswer, ha]
  have hmicros := readByteMicros_take bits.length hlen
  obtain hlt | heq : bits.length < 8 ∨ bits.length = 8 := by omega
  · have hcut : runUntil [.prim .readByte] [] (4 * bits.length) s = abandon (4 * bits.length) .readByte s :=
      if_pos (show 4 * bits.length < 32 by omega)
    obtain ⟨hanswers, _, hphase⟩ := abandon_line (4 * bits.length) .readByte s
    obtain ⟨_, hdrawn⟩ := abandon_device_kept (n := 4 * bits.length) (s := s) .readByte (by simp [hp])
    obtain ⟨htaken, hnone⟩ := runMicros_readBits bits h
    rw [hfree, hmicros] at hanswers hdrawn
    exact ⟨_, hcut, hanswers.trans htaken, hphase.trans hp, fun _ => hdrawn.trans hnone⟩
  · have hwhole : runUntil [.prim .readByte] [] (4 * bits.length) s = (runPrim .readByte s).2 := by rw [heq]; rfl
    obtain ⟨htaken, _⟩ := runMicros_readBits bits ((deviceEvent_answers .readByte s).trans h)
    rw [← hmicros, heq] at htaken
    refine ⟨_, hwhole, ?_, (runPrim_phase _ s).trans hp, fun hlt => absurd heq hlt.ne⟩
    show (lineReadByte (byteAnswer s) (deviceEvent .readByte s)).2.answers = rest
    rw [hfree]
    exact htaken

/-! ### In a wait -/

/-- A wait against an oracle that answers ones is still waiting after each of them (R132). -/
theorem waitUntil_ones (n : Nat) {rest : List Bit} {s : State} (hin : s.pins.dir = .input) (ha : s.attached = false)
    (h : s.answers = List.replicate n true ++ rest) : waitUntil n s = ({ s with answers := rest }, none) := by
  induction n generalizing s with
  | zero =>
    have hs : s.answers = rest := h
    rw [← hs]
    rfl
  | succ n ih =>
    have hsample := sampleAck_oracle hin ha h
    cases n with
    | zero => rw [waitUntil, hsample]; rfl
    | succ n =>
      rw [waitUntil, hsample]
      exact ih hin ha rfl

/-- So is the command it holds up. -/
theorem resumeUntil_ones (j : Job) (n : Nat) {rest : List Bit} {s : State} (hin : s.pins.dir = .input)
    (ha : s.attached = false) (h : s.answers = List.replicate n true ++ rest) :
    resumeUntil j n s = { s with answers := rest } := by
  rw [resumeUntil, waitUntil_ones n hin ha h]

/-- Settles O12: `step_reset_command` and `step_reset_held` say what the reset finds; that is the first transfer of WRTIME
(`runUntil_timeWrites`), a START cut at its start condition (`runMicros_start`), the bits of an RBYTE (`runUntil_readByte`), the
samples of a wait (`resumeUntil_ones`). -/
theorem resetInsideACommand : Obligations.ResetInsideACommand := by
  unfold Obligations.ResetInsideACommand
  intro s hlines hstream he hreq
  refine ⟨?_, ?_, ?_, ?_⟩
  · rintro h m x rest hh hm hx ⟨ha, _, hp, hw⟩ hb hd hafter
    have hstep := step_reset_command hlines hstream hreq he hb hd (if_pos (timeValid_iff.mpr ⟨hh, hm, hx⟩)) hp
    have r := runUntil_timeWrites h m x ha
    rw [hafter] at hstep
    obtain ⟨hkept, _⟩ := hostReset_idle r.phase
    have hdevice := hkept.trans r.device
    refine ⟨_, hstep, fun a => ?_, by rw [hdevice], by rw [hdevice], rfl, rfl, rfl, rfl, rfl, rfl⟩
    rw [State.dev, hdevice, read_write hw, Function.update_apply, bcdEncode_eq h.toNat (by omega), State.dev]
  · intro a rest n h1 h3 hb hp hpins hhead hd hafter
    have hstep := step_reset_command hlines hstream hreq he hb hd rfl hp
    have hcut : runUntil [.prim (.start a)] [] s.resetAfter s = abandon n (.start a) s := by
      rw [hafter]
      exact if_pos (show n < 28 by omega)
    rw [hcut] at hstep
    obtain ⟨hanswers, htrace, hphase⟩ := abandon_line n (.start a) s
    obtain ⟨hkept, hnone, hshown⟩ := runMicros_start a (byteAnswer s) h1 h3 hpins (hhead.trans (congrArg _ hpins))
    obtain ⟨hdevice, hdrawn⟩ := hostReset_idle (hphase.trans hp)
    refine ⟨_, hstep, ?_, fun hlt => ?_, fun heq => ?_, hanswers.trans hkept, rfl, rfl, rfl, rfl, rfl, rfl⟩
    · rw [hostReset_tracePins, htrace, hshown]
      split_ifs <;> simp_all [Pins.idle]
    · obtain ⟨hd', hn'⟩ := abandon_device_kept (n := n) (s := s) (.start a) (by omega)
      exact ⟨hdevice.trans hd', hdrawn.trans (hn'.trans hnone)⟩
    · rw [hdevice]
      exact abandon_device_lost _ hp heq.ge
  · intro bits rest more hlen hb hp ha hanswers hd hafter
    have hstep := step_reset_command hlines hstream hreq he hb hd rfl hp
    have f := runUntil_frame [.prim .readByte] [] (4 * bits.length) s
    obtain ⟨u, hu, htaken, hphase, hdrawn⟩ := runUntil_readByte bits hlen hp ha hanswers
    rw [hafter, hu] at hstep
    rw [hu] at f
    obtain ⟨hlost, hone⟩ := hostReset_active hphase
    exact ⟨_, hstep, htaken, fun hlt => by rw [hone, hdrawn hlt], hlost, rfl, (hostReset_results _).trans f.results, rfl, rfl,
      rfl⟩
  · intro n j rest hb ha hin hanswers hafter
    have hstep := step_reset_held hlines hstream hreq he hb
    rw [hafter, resumeUntil_ones j n hin ha hanswers] at hstep
    exact ⟨_, hstep, rfl, hostReset_drawn _, rfl, hostReset_results _, rfl, rfl, rfl, rfl⟩

end Sys2Proof.Machine
